-- ==== Sys2Proof/Config.lean ====
section
/-! DEFINITION. The parameters of one HMIE26 (R6, R7 of spec/00_scope.md): the alphabet the source fixes and the sizes the
spec decides. `GEN_RETRY_CAP` is none (R7, R184), so there is no constant for it (log 18); `BASE` is a platform parameter no
rule depends on (R50), so there is none for it either. The one free value is the random-symbol stream of the environment
(R36, R243; log 25): nothing is known of it but its type. Everything else the spec leaves open is an input in State. -/

namespace Sys2Proof.Config

/-- `XLEN`: width in bits of every interface word (R7, D3). -/
abbrev xlen : Nat := 64

/-- `N_MAX`: largest row count and largest row length of a matrix operand or result (R7, D5). -/
abbrev nMax : Nat := 15

/-- `L_MAX` = `N_MAX`²: largest length of a string or vector operand or result (R7, D5). -/
abbrev lMax : Nat := nMax * nMax

/-- `ARG_WORDS`: size of the operand buffer in words (R7, R29). -/
abbrev argWords : Nat := 512

/-- `RES_WORDS`: size of the result buffer in words (R7, R30). -/
abbrev resWords : Nat := 512

/-- The alphabet size and the constant modulus of MATVEC, GENKEY, ENCODE and DECODE (R6, R164). -/
abbrev alphabetSize : Nat := 26

/-- The random-symbol stream: the symbol at each position, under no law (R36, R39, R243). A free value: it has no body, so no
proof can use a value of it. The position is `State.symbolsTaken`, which no reset turns back (R241; log 25). -/
opaque symbolStream : Nat → Fin alphabetSize

/-- Word offset of `CMD` (R21, R50). -/
abbrev cmdOffset : Nat := 0x000

/-- Word offset of `STATUS` (R22, R50). -/
abbrev statusOffset : Nat := 0x001

/-- Word offset of `RES_LEN` (R23, R50). -/
abbrev resLenOffset : Nat := 0x002

/-- Word offset of `CTRL` (R24, R50). -/
abbrev ctrlOffset : Nat := 0x003

/-- Word offset of `ARG[0]` (R29, R50). -/
abbrev argOffset : Nat := 0x200

/-- Word offset of `RES[0]` (R30, R50). -/
abbrev resOffset : Nat := 0x400

/-- Number of word offsets of the window (R42, R50). -/
abbrev windowWords : Nat := 0x600

end Sys2Proof.Config
end

