-- ==== Sys2Proof/Word.lean ====
section
/-! DEFINITION. The interface word and its plainest arithmetic (R15 of spec/00_scope.md): `int(w)`, `uns(w)`, `word(v)`. -/

namespace Sys2Proof

/-- One interface word of `XLEN` = 64 bits (R7, R15). -/
abbrev Word := BitVec Config.xlen

/-- One byte of a byte-addressed bus (R53). -/
abbrev Byte := BitVec 8

/-- A Symbol: an integer in [0, 25] (R6, R18); the type of a delivered draw (R36). -/
abbrev Symbol := Fin Config.alphabetSize

/-- `int(w)`: the two's-complement value (R15). -/
abbrev Word.int (w : Word) : Int := w.toInt

/-- `uns(w)`: the unsigned value (R15). -/
abbrev Word.uns (w : Word) : Nat := w.toNat

/-- `word(v)` (R15), for v in the signed range the word whose `int` is v. A CHAR code in [0, 2^64 - 1] goes to the word
whose `uns` is the code (R81: zero-extended). -/
abbrev Word.ofValue (v : Int) : Word := BitVec.ofInt Config.xlen v

/-- The INT range [-2^63, 2^63 - 1] (R15, R72). -/
def inIntRange (v : Int) : Bool := decide (-9223372036854775808 ≤ v ∧ v ≤ 9223372036854775807)

end Sys2Proof
end

