-- ==== Sys2Proof/Syntax.lean ====
section
/-! DEFINITION. The 19 commands of R80 (spec/30_encoding.md) with their parsed operands (R84), one constructor for each row of
spec/opcode_table.json. Operand values are the function-level values of R72 to R77: INT an integer, CHAR a character code,
STR a list of character codes, VEC a list of integers, MAT a list of rows. -/

namespace Sys2Proof

/-- A String: a list of character codes (R13, R75). -/
abbrev Str := List Nat

/-- A Vector: a list of integers (R13, R76). -/
abbrev Vec := List Int

/-- A Matrix: a list of rows, which may be square, rectangular, ragged or without rows (R13, R77). -/
abbrev Mat := List (List Int)

/-- The commands of R80, in the table's order. -/
inductive Instr where
  | c2s (c : Nat)
  | s2c (v : Int)
  | str2vec (str : Str)
  | vec2str (vec : Vec)
  | str2mat (str : Str)
  | mat2str (mat : Mat)
  | transp (mat : Mat)
  | minor (mat : Mat) (row col : Int)
  | det (mat : Mat)
  | matvec (mat : Mat) (vec : Vec)
  | invq (mat : Mat)
  | mod (x m : Int)
  | gcd (a b : Int)
  | egcd (a b : Int)
  | modinv (a m : Int)
  | invmod (mat : Mat) (modulus : Int)
  | genkey (n : Int)
  | encode (text key : Str)
  | decode (text key : Str)
  deriving DecidableEq, Repr

end Sys2Proof
end

