-- ==== Sys2Proof/Machine/Operands.lean ====
section
/-! DEFINITION. The operand and result formats of R72 to R81 (spec/30_encoding.md): reading each operand form from a list of
words, and laying each format out as values, one value for each word. One layout serves the encoder of operands and the
result buffer, since every result format with an operand use is identical to the operand format (R245). -/

namespace Sys2Proof.Machine

/-- What reading an operand comes to: a value and the words not looked at; a length word over its bound (R74), with the words
not looked at; or the words ran out, that is, the next word of the layout is unwritten (R33). -/
inductive Parsed (α : Type) where
  | ok (value : α) (rest : List Word)
  | overCapacity (rest : List Word)
  | unwritten
  deriving DecidableEq, Repr

/-- Reads an operand from the front of a list of words. -/
abbrev Parser (α : Type) := List Word → Parsed α

/-- The value handed on as it is. -/
def Parser.give {α : Type} (a : α) : Parser α := fun ws => .ok a ws

/-- Reads on from the word after the last word of the operand before (R79). -/
def Parser.andThen {α β : Type} (p : Parser α) (f : α → Parser β) : Parser β := fun ws =>
  match p ws with
  | .ok a rest => f a rest
  | .overCapacity rest => .overCapacity rest
  | .unwritten => .unwritten

/-- Two operands in layout order (R79). -/
def Parser.pair {α β : Type} (p : Parser α) (q : Parser β) : Parser (α × β) :=
  p.andThen fun a => q.andThen fun b => Parser.give (a, b)

/-- The next word, whatever it holds. -/
def parseWord : Parser Word
  | [] => .unwritten
  | w :: rest => .ok w rest

/-- INT (R72): one word, its two's-complement value. -/
def parseInt : Parser Int := parseWord.andThen fun w => Parser.give w.int

/-- CHAR (R73): one word, its unsigned value. -/
def parseChar : Parser Nat := parseWord.andThen fun w => Parser.give w.uns

/-- A length word with its bound (R74): read unsigned; over the bound the parse stops. -/
def parseLength (bound : Nat) : Parser Nat := parseWord.andThen fun w rest =>
  if bound < w.uns then .overCapacity rest else .ok w.uns rest

/-- k items in order, index 0 first. -/
def parseMany {α : Type} (p : Parser α) : Nat → Parser (List α)
  | 0 => Parser.give []
  | k + 1 => p.andThen fun a => (parseMany p k).andThen fun as => Parser.give (a :: as)

/-- STR (R75). -/
def parseStr : Parser Str := (parseLength Config.lMax).andThen (parseMany parseChar)

/-- VEC (R76). -/
def parseVec : Parser Vec := (parseLength Config.lMax).andThen (parseMany parseInt)

/-- One row of a MAT (R77). -/
def parseRow : Parser (List Int) := (parseLength Config.nMax).andThen (parseMany parseInt)

/-- MAT (R77). -/
def parseMat : Parser Mat := (parseLength Config.nMax).andThen (parseMany parseRow)

/-- The values of an INT, one for each word (R72). -/
def intItems (v : Int) : List Int := [v]

/-- The value of a CHAR: the character code (R73, R81). -/
def charItems (c : Nat) : List Int := [(c : Int)]

/-- The values of a STR: its length, then the character codes (R75). -/
def strItems (s : Str) : List Int := (s.length : Int) :: s.map (fun c => (c : Int))

/-- The values of a VEC, and of one row of a MAT: its length, then the elements (R76, R77). -/
def vecItems (v : Vec) : List Int := (v.length : Int) :: v

/-- The values of a MAT: the row count, then the rows (R77). -/
def matItems (m : Mat) : List Int := (m.length : Int) :: m.flatMap vecItems

/-- The values of a RATMAT: the MAT of numerators, then the denominator (R78). -/
def ratMatItems (m : Mat) (d : Int) : List Int := matItems m ++ [d]

/-- The values of EGCD's result: g, x, y (R81, R155). -/
def tripleItems (t : Int × Int × Int) : List Int := [t.1, t.2.1, t.2.2]

/-- Each value written with `word(v)` (R81). -/
def wordsOf (items : List Int) : List Word := items.map Word.ofValue

end Sys2Proof.Machine
end

