-- ==== Sys2Proof/WellFormed.lean ====
section
/-! DEFINITION. Which instructions the command encoding can express: every INT in the word's signed range (R72), every CHAR a
word (R73), every length at most its bound (R74 to R77). What the operands mean to the command (letters, squareness, ranges)
is the command's own matter (R83) and is not tested here. -/

namespace Sys2Proof

/-- A CHAR is one word read unsigned (R73). -/
def charOk (c : Nat) : Bool := decide (c < 18446744073709551616)

/-- A STR has at most `L_MAX` characters (R75). -/
def strOk (s : Str) : Bool := decide (s.length ≤ Config.lMax) && s.all charOk

/-- A VEC has at most `L_MAX` elements (R76). -/
def vecOk (v : Vec) : Bool := decide (v.length ≤ Config.lMax) && v.all inIntRange

/-- One row of a MAT has at most `N_MAX` entries (R77). -/
def rowOk (r : List Int) : Bool := decide (r.length ≤ Config.nMax) && r.all inIntRange

/-- A MAT has at most `N_MAX` rows (R77). -/
def matOk (m : Mat) : Bool := decide (m.length ≤ Config.nMax) && m.all rowOk

/-- The instruction has an encoding. -/
def Instr.wellFormed : Instr → Bool
  | .c2s c => charOk c
  | .s2c v => inIntRange v
  | .str2vec str => strOk str
  | .vec2str vec => vecOk vec
  | .str2mat str => strOk str
  | .mat2str mat => matOk mat
  | .transp mat => matOk mat
  | .minor mat row col => matOk mat && inIntRange row && inIntRange col
  | .det mat => matOk mat
  | .matvec mat vec => matOk mat && vecOk vec
  | .invq mat => matOk mat
  | .mod x m => inIntRange x && inIntRange m
  | .gcd a b => inIntRange a && inIntRange b
  | .egcd a b => inIntRange a && inIntRange b
  | .modinv a m => inIntRange a && inIntRange m
  | .invmod mat modulus => matOk mat && inIntRange modulus
  | .genkey n => inIntRange n
  | .encode text key => strOk text && strOk key
  | .decode text key => strOk text && strOk key

end Sys2Proof
end

