-- ==== Sys2Proof/Decode.lean ====
section
/-! DEFINITION. The decoder of R84 (spec/30_encoding.md): total on every pair (command word, operand words), and the encoder
written from the same tables (R70, R79, R80). -/

namespace Sys2Proof

open Machine

/-- The verdicts of R84 on a command word and the words of ARG: one of the 19 commands with its parsed operands (and the
words after its layout), illegal (R82), over capacity (R83, with the words after the length word found), and, where the words
given run out before the layout does, that the layout includes an unwritten word (R33). -/
inductive Decoded where
  | command (i : Instr) (rest : List Word)
  | illegal
  | overCapacity (rest : List Word)
  | unwritten
  deriving DecidableEq, Repr

/-- Field `OP` = w[7:0] (R70). -/
def opField (w : Word) : Nat := (w.extractLsb' 0 8).toNat

/-- Field `RSV` = w[63:8] (R70). -/
def rsvField (w : Word) : Nat := (w.extractLsb' 8 56).toNat

/-- The verdict from the parse of one command's operands. -/
def Decoded.ofParsed {α : Type} (f : α → Instr) : Parsed α → Decoded
  | .ok a rest => .command (f a) rest
  | .overCapacity rest => .overCapacity rest
  | .unwritten => .unwritten

/-- The opcode map of R80: which command, and its operand formats in layout order. -/
def decodeOp (op : Nat) (args : List Word) : Decoded :=
  match op with
  | 0x10 => Decoded.ofParsed Instr.c2s (parseChar args)
  | 0x11 => Decoded.ofParsed Instr.s2c (parseInt args)
  | 0x12 => Decoded.ofParsed Instr.str2vec (parseStr args)
  | 0x13 => Decoded.ofParsed Instr.vec2str (parseVec args)
  | 0x14 => Decoded.ofParsed Instr.str2mat (parseStr args)
  | 0x15 => Decoded.ofParsed Instr.mat2str (parseMat args)
  | 0x20 => Decoded.ofParsed Instr.transp (parseMat args)
  | 0x21 => Decoded.ofParsed (fun p => Instr.minor p.1 p.2.1 p.2.2) (parseMat.pair (parseInt.pair parseInt) args)
  | 0x22 => Decoded.ofParsed Instr.det (parseMat args)
  | 0x23 => Decoded.ofParsed (fun p => Instr.matvec p.1 p.2) (parseMat.pair parseVec args)
  | 0x24 => Decoded.ofParsed Instr.invq (parseMat args)
  | 0x30 => Decoded.ofParsed (fun p => Instr.mod p.1 p.2) (parseInt.pair parseInt args)
  | 0x31 => Decoded.ofParsed (fun p => Instr.gcd p.1 p.2) (parseInt.pair parseInt args)
  | 0x32 => Decoded.ofParsed (fun p => Instr.egcd p.1 p.2) (parseInt.pair parseInt args)
  | 0x33 => Decoded.ofParsed (fun p => Instr.modinv p.1 p.2) (parseInt.pair parseInt args)
  | 0x34 => Decoded.ofParsed (fun p => Instr.invmod p.1 p.2) (parseMat.pair parseInt args)
  | 0x40 => Decoded.ofParsed Instr.genkey (parseInt args)
  | 0x50 => Decoded.ofParsed (fun p => Instr.encode p.1 p.2) (parseStr.pair parseStr args)
  | 0x51 => Decoded.ofParsed (fun p => Instr.decode p.1 p.2) (parseStr.pair parseStr args)
  | _ => .illegal

/-- The decoder (R84): a word with a reserved bit set is illegal whatever its `OP` is, and an illegal word's operands are not
looked at (R82). -/
def decode (cmd : Word) (args : List Word) : Decoded :=
  if rsvField cmd ≠ 0 then .illegal else decodeOp (opField cmd) args

/-- The words of ARG sampled at issue (R60, R79): those the parse visits, none for an illegal word (R82); no sample where the
layout includes an unwritten word (R33). -/
def sampledWords (cmd : Word) (args : List Word) : Option (List Word) :=
  match decode cmd args with
  | .command _ rest => some (args.take (args.length - rest.length))
  | .overCapacity rest => some (args.take (args.length - rest.length))
  | .illegal => some []
  | .unwritten => none

/-- The opcode of R80. -/
def Instr.opcode : Instr → Nat
  | .c2s _ => 0x10
  | .s2c _ => 0x11
  | .str2vec _ => 0x12
  | .vec2str _ => 0x13
  | .str2mat _ => 0x14
  | .mat2str _ => 0x15
  | .transp _ => 0x20
  | .minor _ _ _ => 0x21
  | .det _ => 0x22
  | .matvec _ _ => 0x23
  | .invq _ => 0x24
  | .mod _ _ => 0x30
  | .gcd _ _ => 0x31
  | .egcd _ _ => 0x32
  | .modinv _ _ => 0x33
  | .invmod _ _ => 0x34
  | .genkey _ => 0x40
  | .encode _ _ => 0x50
  | .decode _ _ => 0x51

/-- The command word: `zext_XLEN(OP)` (R87). -/
def Instr.commandWord (i : Instr) : Word := BitVec.ofNat Config.xlen i.opcode

/-- The operand words: the operands' encodings one after another (R79, R87). -/
def Instr.operandWords : Instr → List Word
  | .c2s c => wordsOf (charItems c)
  | .s2c v => wordsOf (intItems v)
  | .str2vec str => wordsOf (strItems str)
  | .vec2str vec => wordsOf (vecItems vec)
  | .str2mat str => wordsOf (strItems str)
  | .mat2str mat => wordsOf (matItems mat)
  | .transp mat => wordsOf (matItems mat)
  | .minor mat row col => wordsOf (matItems mat ++ (intItems row ++ intItems col))
  | .det mat => wordsOf (matItems mat)
  | .matvec mat vec => wordsOf (matItems mat ++ vecItems vec)
  | .invq mat => wordsOf (matItems mat)
  | .mod x m => wordsOf (intItems x ++ intItems m)
  | .gcd a b => wordsOf (intItems a ++ intItems b)
  | .egcd a b => wordsOf (intItems a ++ intItems b)
  | .modinv a m => wordsOf (intItems a ++ intItems m)
  | .invmod mat modulus => wordsOf (matItems mat ++ intItems modulus)
  | .genkey n => wordsOf (intItems n)
  | .encode text key => wordsOf (strItems text ++ strItems key)
  | .decode text key => wordsOf (strItems text ++ strItems key)

/-- `asm` of R87: the command word and the operand words of an instruction. -/
def encode (i : Instr) : Word × List Word := (i.commandWord, i.operandWords)

/-- The command word whose low nbits bits are w's and whose other bits are 0. -/
def tableCommandWord (nbits w : Nat) : Word := BitVec.ofNat Config.xlen (w % 2 ^ nbits)

/-- Operand words of zeros, as many as ARG has. -/
def zeroOperands : List Word := List.replicate Config.argWords 0

/-- The instruction the decoder reads from the command word w with operand words of zeros. -/
def decodeTableWord (nbits w : Nat) : Option Instr :=
  match decode (tableCommandWord nbits w) zeroOperands with
  | .command i _ => some i
  | _ => none

end Sys2Proof
end

