-- ==== Sys2Proof/Machine/State.lean ====
section
/-! DEFINITION. The state of one instance (spec/10_state.md) and of its environment (R254), as plain data, with the state
after reset (R41, R240) and the reasons a step can stop. -/

namespace Sys2Proof.Machine

/-- `STATUS.STATE` (R22, R27): IDLE no command issued since reset, BUSY a command is in flight, DONE the last command has
completed. The value 3 is never read, so it has no constructor (U12). -/
inductive EngineState where
  | idle
  | busy
  | done
  deriving DecidableEq, Repr

/-- The six error kinds of R211, in the source's order. -/
inductive ErrorKind where
  | invalidCharacter
  | outOfRange
  | invalidMatrixSize
  | invalidKeyLength
  | invalidDimensions
  | invalidKey
  deriving DecidableEq, Repr

/-- The refusal reasons of R216. -/
inductive RefuseReason where
  | illegalCommand
  | capacity
  | unspecified
  | resultOverflow
  deriving DecidableEq, Repr

/-- The values of `STATUS.CODE` (R210): 0 OK, 1 to 6 the error kinds, 7 NothingFound, 8 Refused. The values 9 to 15 are never
read (R22, U12). -/
inductive Code where
  | ok
  | error (k : ErrorKind)
  | nothingFound
  | refused
  deriving DecidableEq, Repr

/-- The values of `STATUS.REASON` (R22): 0, or a reason 1 to 4. The values 5 to 255 are never read (U12). -/
inductive Reason where
  | none
  | some (r : RefuseReason)
  deriving DecidableEq, Repr

/-- The register `STATUS` by its fields (R22). The word a read returns is `Status.word` of Machine/Flags.lean. -/
structure Status where
  state  : EngineState
  code   : Code
  reason : Reason
  deriving DecidableEq, Repr

/-- The outcome a command ends with (R210), with the result words on OK (R81). -/
inductive Completion where
  | ok (result : List Word)
  | error (k : ErrorKind)
  | nothingFound
  | refused (r : RefuseReason)
  deriving DecidableEq, Repr

/-- The command in flight (R37): the sampled command word and the sampled operand words. -/
structure InFlight where
  cmd      : Word
  operands : List Word
  deriving DecidableEq, Repr

/-- A buffer of words: (index, word) pairs, indices strictly rising. An index that is not listed has no value: an unwritten
word of ARG (R33), a word of RES that holds no specified value (R34). The unit is the word, since the window is
word-addressed and has no narrower access (R53, R54; log 1). -/
abbrev Memory := List (Nat × Word)

/-- What one read returned to the host: a word from a word offset of the window (R16), or the eight bytes of a byte-mapped bus
(R53). -/
inductive HostRead where
  | word (off : Nat) (w : Word)
  | bytes (addr : Nat) (bs : List Byte)
  deriving DecidableEq, Repr

/-- What happens next, by whom (R254). `read` and `write` are `BusRead` and `BusWrite` of R16; `readBytes` and `writeBytes`
are accesses of a platform that maps the window onto a byte-addressed bus (R53, R54); `engine` is a turn of the engine;
`rngAck` is the random-symbol source's `rng_ack` with a `rng_sym[4:0]` that the event names (R35); `rngTurn` is a turn of the
source, which answers a waiting draw with the next symbol of its stream (R36, R243); `hardReset` is the reset input (R240). -/
inductive Event where
  | read (off : Nat)
  | write (off : Nat) (w : Word)
  | readBytes (addr width : Nat)
  | writeBytes (addr : Nat) (bs : List Byte)
  | engine
  | rngAck (sym : BitVec 5)
  | rngTurn
  | hardReset
  deriving DecidableEq, Repr

/-- The random-symbol stream (R36, R39, R243), an infinite sequence of symbols: at the first positions the symbols of `first`,
then those of `again` for ever, and where `again` is empty the free symbols of `Config.symbolStream`. With both lists empty
the whole stream is free. A particular stream is named only to write down a particular run (log 25). -/
structure SymbolStream where
  first : List Symbol
  again : List Symbol
  deriving DecidableEq, Repr

/-- The state: the engine's (`status` to `candidate`), then what the model holds of the environment and of the run. -/
structure State where
  /-- `STATUS` (R22). -/
  status : Status
  /-- `RES_LEN` (R23), a number in [0, `RES_WORDS`]. -/
  resLen : Nat
  /-- `ARG` with the written-marks (R29, R33): a listed index is a written word. -/
  arg : Memory
  /-- `RES` (R30): the words that hold a specified value (R32, R34). -/
  res : Memory
  /-- The command in flight (R37). -/
  inFlight : Option InFlight
  /-- The signal `rng_req` of the random-symbol port (R35, R41; log 7). -/
  rngReq : Bool
  /-- Working storage of GENKEY (R38): the symbols drawn so far for the current candidate (R181; log 9). -/
  candidate : List Symbol
  /-- The environment: the events still to come, oldest first (R254; log 5). -/
  script : List Event
  /-- The environment for ever: the events that come again and again, once each round, after `script` is used up; a round
  begins with a turn of the engine, which the host cannot starve (R252; log 24). -/
  recurring : List Event
  /-- The random-symbol stream a turn of the source answers from (R36); its position is `symbolsTaken` (R39). -/
  stream : SymbolStream
  /-- The host's view: what its reads have returned, oldest first (R16). -/
  reads : List HostRead
  /-- The host's view: a read of `STATUS` has returned DONE for the last command issued (R248 (b); log 26). -/
  doneSeen : Bool
  /-- How many symbols have been taken from the random-symbol stream (an observation of R254; the position is the
  environment's, R39). -/
  symbolsTaken : Nat
  /-- The sticky refusal mark: a command has completed with the outcome Refused (R218), or the host has read `RES` before it
  had observed DONE (R248 (b), by the mark R57 allows; log 26). -/
  refusalMark : Bool
  deriving DecidableEq, Repr

/-- There is no fault: the engine has no traps, no machine check and no bus error (R224), and a protocol violation is never a
fault (U9: the engine raises nothing). No step answers with one. -/
inductive Fault where
  deriving DecidableEq, Repr

/-- The protocol violations of R57: the host accesses that R52 gives no meaning. -/
inductive Violation where
  /-- A read of `CMD` or `CTRL`, which are write-only (R21, R24). -/
  | readOfWriteOnly
  /-- A write to `STATUS`, `RES_LEN` or `RES`, which are read-only (R22, R23, R30). -/
  | writeToReadOnly
  /-- An access to the reserved offsets 0x004 to 0x1FF (R51). -/
  | reservedOffset
  /-- An access outside the window of 0x600 words (R50). -/
  | outsideWindow
  /-- An access to `CMD`, `ARG`, `RES_LEN` or `RES` while BUSY (R52). -/
  | accessWhileBusy
  /-- A read of an `ARG` word nobody has written since reset (R33, R52). -/
  | readOfUnwritten
  /-- A read of `RES[i]` outside DONE or for i ≥ `RES_LEN` (R30, R34). -/
  | readOfUnspecified
  /-- A `CTRL` write with a bit above bit 0 set (R24). -/
  | ctrlReservedBits
  /-- An issue whose operand layout includes an unwritten word (R33). -/
  | issueOverUnwritten
  /-- On a byte-mapped bus, an access that is not 8 bytes wide or not 8-byte aligned (R54). -/
  | notOneWord
  deriving DecidableEq, Repr

/-- The broken contracts of the random-symbol source (R36, R246). -/
inductive SourceViolation where
  /-- `rng_sym` delivers 26 to 31, which are never delivered (R36, U2). -/
  | notASymbol
  /-- An acknowledgement while `rng_req` is low: the source answers draws and nothing else (R36; log 8). -/
  | unrequested
  deriving DecidableEq, Repr

/-- Why a step has no meaning. All are safe: the model stops where the spec gives the run no meaning. -/
inductive Refusal where
  /-- An instruction whose meaning is not written; no arm of exec answers with it. Safe. -/
  | notModelled (mnemonic : String)
  /-- Raised by the host accesses of Machine/Ops.lean (R57: the run has no meaning from that access on). Safe. -/
  | protocolViolation (v : Violation)
  /-- Raised by the source's answer in Machine/Ops.lean (U2). Safe. -/
  | sourceContract (v : SourceViolation)
  deriving DecidableEq, Repr

/-- `STATUS` = 0: IDLE, `CODE` 0, `REASON` 0 (R22, R41). -/
def Status.reset : Status := { state := .idle, code := .ok, reason := .none }

/-- The state right after reset (R41, R240), with an environment that has nothing to do (log 21). -/
def State.reset : State where
  status := Status.reset
  resLen := 0
  arg := []
  res := []
  inFlight := none
  rngReq := false
  candidate := []
  script := []
  recurring := []
  stream := { first := [], again := [] }
  reads := []
  doneSeen := false
  symbolsTaken := 0
  refusalMark := false

end Sys2Proof.Machine
end

