-- ==== Sys2Proof/Machine/Flags.lean ====
section
/-! DEFINITION. The status flags (R28): the numbers of R210 and R216, the word a read of `STATUS` returns (R22), and what a
completion writes to the fields (R222). -/

namespace Sys2Proof.Machine

/-- `STATE`: 0 IDLE, 1 BUSY, 2 DONE (R22). -/
def EngineState.number : EngineState → Nat
  | .idle => 0
  | .busy => 1
  | .done => 2

/-- The codes 1 to 6 (R210). -/
def ErrorKind.number : ErrorKind → Nat
  | .invalidCharacter => 1
  | .outOfRange => 2
  | .invalidMatrixSize => 3
  | .invalidKeyLength => 4
  | .invalidDimensions => 5
  | .invalidKey => 6

/-- `CODE` (R210). -/
def Code.number : Code → Nat
  | .ok => 0
  | .error k => k.number
  | .nothingFound => 7
  | .refused => 8

/-- The reasons 1 to 4 (R216). -/
def RefuseReason.number : RefuseReason → Nat
  | .illegalCommand => 1
  | .capacity => 2
  | .unspecified => 3
  | .resultOverflow => 4

/-- `REASON` (R22). -/
def Reason.number : Reason → Nat
  | .none => 0
  | .some r => r.number

/-- The word a read of `STATUS` returns (R22): `STATE` in bits [1:0], `CODE` in [7:4], `REASON` in [15:8], the rest 0. -/
def Status.word (st : Status) : Word :=
  BitVec.ofNat Config.xlen (st.state.number + 16 * st.code.number + 256 * st.reason.number)

/-- `CODE` of an outcome (R222). -/
def Completion.code : Completion → Code
  | .ok _ => .ok
  | .error k => .error k
  | .nothingFound => .nothingFound
  | .refused _ => .refused

/-- `REASON` of an outcome: the reason for code 8, else 0 (R213, R222). -/
def Completion.reason : Completion → Reason
  | .refused r => .some r
  | _ => .none

/-- The words an outcome leaves in `RES`: the result on OK, none on any other outcome (R32, R222). -/
def Completion.result : Completion → List Word
  | .ok result => result
  | _ => []

/-- Whether the outcome is Refused, which sets the refusal mark (R218). -/
def Completion.isRefused : Completion → Bool
  | .refused _ => true
  | _ => false

/-- `STATUS` after a completion (R222). -/
def Completion.status (c : Completion) : Status := { state := .done, code := c.code, reason := c.reason }

/-- `STATUS` after an issue: `STATE` BUSY, `CODE` 0, `REASON` 0 (R21). -/
def Status.issued : Status := { state := .busy, code := .ok, reason := .none }

end Sys2Proof.Machine
end

