-- ==== Sys2Proof/Machine/Ops.lean ====
section
/-! DEFINITION. The named operations over the buffers, the registers and the random-symbol port: the host's accesses by the
table of R52, the issue (R21, R60), the completion of a command with any outcome, which is this hardware's taking of an
exception (R222), what stands in place of a return from one (R223: the next issue clears the flags), and reset (R41). -/

namespace Sys2Proof.Machine

/-- What a step comes to. -/
abbrev StepResult := Host.Outcome State Fault Refusal

/-- The step is refused: the access has no meaning (R57). -/
def violation (v : Violation) : StepResult := .refused (.protocolViolation v)

/-! ## Buffers -/

/-- The word at index i; none where the word holds no value (R33, R34). -/
def Memory.read : Memory → Nat → Option Word
  | [], _ => none
  | (j, w) :: rest, i => if j = i then some w else Memory.read rest i

/-- Word i replaced whole by w (R55), the list kept in its order. -/
def Memory.write : Memory → Nat → Word → Memory
  | [], i, w => [(i, w)]
  | (j, v) :: rest, i, w =>
    if i < j then (i, w) :: (j, v) :: rest
    else if i = j then (i, w) :: rest
    else (j, v) :: Memory.write rest i w

/-- The words at indices k, k + 1, ... -/
def Memory.ofWordsFrom (k : Nat) : List Word → Memory
  | [] => []
  | w :: rest => (k, w) :: Memory.ofWordsFrom (k + 1) rest

/-- The words at indices 0, 1, ... and no other. -/
def Memory.ofWords (ws : List Word) : Memory := Memory.ofWordsFrom 0 ws

/-- The words at k, k + 1, ... up to the first index without a value. -/
def Memory.wordsFrom (k : Nat) : Memory → List Word
  | [] => []
  | (j, w) :: rest => if j = k then w :: Memory.wordsFrom (k + 1) rest else []

/-- The words at 0, 1, ... up to the first index without a value: what a parse of ARG from `ARG[0]` upward can visit (R79). -/
def Memory.words (m : Memory) : List Word := Memory.wordsFrom 0 m

/-- Every index is at least `least` and below `bound`, and the indices strictly rise. -/
def Memory.risingFrom (least bound : Nat) : Memory → Bool
  | [] => true
  | (j, _) :: rest => decide (least ≤ j) && decide (j < bound) && Memory.risingFrom (j + 1) bound rest

/-- The one canonical form of a buffer of `bound` words: indices strictly rising, each below the bound. (No listed entry can
equal what an unlisted index reads as, which is no value.) -/
def Memory.wf (bound : Nat) (m : Memory) : Bool := Memory.risingFrom 0 bound m

/-! ## Completion, the counterpart of taking an exception -/

/-- Completion with any outcome, in one step (R222): `STATUS` gets DONE with the outcome's code and reason, `RES` and `RES_LEN`
the result on OK and nothing on every other outcome. The command in flight and the working storage are gone (R37, R38). ARG is
unchanged. A Refused outcome sets the model's refusal mark (R218). -/
def complete (c : Completion) (s : State) : State :=
  { s with
    status := c.status
    resLen := c.result.length
    res := Memory.ofWords c.result
    inFlight := none
    rngReq := false
    candidate := []
    refusalMark := s.refusalMark || c.isRefused }

/-- Stage 5 of R219: the exact result values are written with `word(v)`; a value outside the INT range is refused, never wrapped
(R163 (b), R216 reason ResultOverflow). -/
def deliver (items : List Int) (s : State) : State :=
  if items.all inIntRange then complete (.ok (wordsOf items)) s else complete (.refused .resultOverflow) s

/-- The end of a command whose function answers a value or raises (R14, R214: the kind raised is the outcome). -/
def finish (r : Except ErrorKind (List Int)) (s : State) : StepResult :=
  match r with
  | .ok items => .next (deliver items s)
  | .error k => .next (complete (.error k) s)

/-- The end of a command whose function may also answer nothing-found (R212). -/
def finishOption (r : Except ErrorKind (Option (List Int))) (s : State) : StepResult :=
  match r with
  | .ok (some items) => .next (deliver items s)
  | .ok none => .next (complete .nothingFound s)
  | .error k => .next (complete (.error k) s)

/-- The end of a command that the spec refuses (R216). -/
def refuse (r : RefuseReason) (s : State) : StepResult := .next (complete (.refused r) s)

/-! ## Issue and reset -/

/-- The engine takes the command word and the sampled operand words (R21, R60): BUSY, `CODE` and `REASON` 0, the command in
flight. From here to the next completion `RES` holds no specified value (R34, R249); `RES_LEN` is written by completions only
(R23) and cannot be read while BUSY (log 10). The host has not seen this command's DONE (R248 (b)). -/
def accept (cmd : Word) (operands : List Word) (s : State) : State :=
  { s with
    status := Status.issued
    res := []
    inFlight := some { cmd := cmd, operands := operands }
    rngReq := false
    candidate := []
    doneSeen := false }

/-- A write of w to `CMD` in IDLE or DONE issues the command (R21): the layout's words are sampled from ARG; where the layout
includes an unwritten word the issue has no meaning (R33). -/
def issue (w : Word) (s : State) : StepResult :=
  match sampledWords w s.arg.words with
  | some operands => .next (accept w operands s)
  | none => violation .issueOverUnwritten

/-- The reset state (R41), by the reset input or by `SRST`, which are indistinguishable afterwards (R240). The environment goes
on where it is: events to come, what was read, symbols taken, refusal mark (R241; log 11). -/
def resetEngine (s : State) : State :=
  { State.reset with
    script := s.script
    recurring := s.recurring
    stream := s.stream
    reads := s.reads
    symbolsTaken := s.symbolsTaken
    refusalMark := s.refusalMark }

/-! ## Host accesses (the table of R52) -/

/-- Where a word offset lies in the window (the map of R50). -/
inductive Place where
  | cmd
  | status
  | resLen
  | ctrl
  | reserved
  | arg (i : Nat)
  | res (i : Nat)
  | outside
  deriving DecidableEq, Repr

/-- The map of R50. -/
def placeOf (off : Nat) : Place :=
  if off = Config.cmdOffset then .cmd
  else if off = Config.statusOffset then .status
  else if off = Config.resLenOffset then .resLen
  else if off = Config.ctrlOffset then .ctrl
  else if off < Config.argOffset then .reserved
  else if off < Config.resOffset then .arg (off - Config.argOffset)
  else if off < Config.windowWords then .res (off - Config.resOffset)
  else .outside

/-- `STATUS.STATE` is BUSY. -/
def State.isBusy (s : State) : Bool := decide (s.status.state = .busy)

/-- `RES[i]` holds a result word: DONE and i < `RES_LEN` (R30). -/
def State.resReadable (s : State) (i : Nat) : Bool := decide (s.status.state = .done) && decide (i < s.resLen)

/-- The word a permitted `BusRead(off)` returns, or the violation it is (R52). No read changes the engine (R55). -/
def readWord (off : Nat) (s : State) : Except Violation Word :=
  match placeOf off with
  | .cmd => .error .readOfWriteOnly
  | .ctrl => .error .readOfWriteOnly
  | .status => .ok s.status.word
  | .resLen => if s.isBusy then .error .accessWhileBusy else .ok (BitVec.ofNat Config.xlen s.resLen)
  | .arg i =>
    if s.isBusy then .error .accessWhileBusy
    else match s.arg.read i with
      | some w => .ok w
      | none => .error .readOfUnwritten
  | .res i =>
    if s.isBusy then .error .accessWhileBusy
    else if s.resReadable i then
      match s.res.read i with
      | some w => .ok w
      | none => .error .readOfUnspecified
    else .error .readOfUnspecified
  | .reserved => .error .reservedOffset
  | .outside => .error .outsideWindow

/-- The host has read r at word offset off. A read of `STATUS` in DONE is the observation of DONE; a read of `RES` before that
returns its word as R52 has it and sets the refusal mark, since R248 (b) gives it no meaning (R57; log 26). The engine's own
state does not change (R55). -/
def logRead (off : Nat) (r : HostRead) (s : State) : State :=
  { s with
    reads := s.reads ++ [r]
    doneSeen := s.doneSeen || (decide (off = Config.statusOffset) && decide (s.status.state = .done))
    refusalMark := s.refusalMark || (decide (Config.resOffset ≤ off) && !s.doneSeen) }

/-- `BusRead(off)` (R16, R52). -/
def busRead (off : Nat) (s : State) : StepResult :=
  match readWord off s with
  | .ok w => .next (logRead off (.word off w) s)
  | .error v => violation v

/-- A write of w to `ARG[i]` makes word i written (R29, R33). -/
def writeArg (i : Nat) (w : Word) (s : State) : State := { s with arg := s.arg.write i w }

/-- A write to `CTRL` (R24): bit 0 is `SRST`; the other bits must be 0; a write with bit 0 = 0 does nothing. -/
def writeCtrl (w : Word) (s : State) : StepResult :=
  if w.extractLsb' 1 63 ≠ 0 then violation .ctrlReservedBits
  else if w.getLsbD 0 then .next (resetEngine s)
  else .next s

/-- `BusWrite(off, w)` (R16, R52). -/
def busWrite (off : Nat) (w : Word) (s : State) : StepResult :=
  match placeOf off with
  | .cmd => if s.isBusy then violation .accessWhileBusy else issue w s
  | .ctrl => writeCtrl w s
  | .arg i => if s.isBusy then violation .accessWhileBusy else .next (writeArg i w s)
  | .status => violation .writeToReadOnly
  | .resLen => violation .writeToReadOnly
  | .res _ => violation .writeToReadOnly
  | .reserved => violation .reservedOffset
  | .outside => violation .outsideWindow

/-! ## The window on a byte-addressed bus (R53, R54) -/

/-- The eight bytes of a word, least significant first (R53: little-endian). -/
def bytesOf (w : Word) : List Byte := (List.range 8).map fun k => w.extractLsb' (8 * k) 8

/-- The word whose bytes, least significant first, are given. -/
def wordOfBytes : List Byte → Word
  | [] => 0
  | b :: rest => (wordOfBytes rest <<< 8) ||| b.setWidth Config.xlen

/-- An access of `width` bytes at byte offset `addr` is one whole word: 8 bytes wide and 8-byte aligned (R54). -/
def isOneWord (addr width : Nat) : Bool := decide (width = 8) && decide (addr % 8 = 0)

/-- A read on a byte-mapped bus: word offset k occupies byte offsets 8k to 8k + 7 (R53). -/
def busReadBytes (addr width : Nat) (s : State) : StepResult :=
  if isOneWord addr width then
    match readWord (addr / 8) s with
    | .ok w => .next (logRead (addr / 8) (.bytes addr (bytesOf w)) s)
    | .error v => violation v
  else violation .notOneWord

/-- A write on a byte-mapped bus (R53, R54). -/
def busWriteBytes (addr : Nat) (bs : List Byte) (s : State) : StepResult :=
  if isOneWord addr bs.length then busWrite (addr / 8) (wordOfBytes bs) s else violation .notOneWord

/-! ## The random-symbol port (R35, R36) -/

/-- `RngDraw()` raises `rng_req` and waits (R36; log 7). -/
def raiseRequest (s : State) : State := { s with rngReq := true }

/-- The source's answer to a draw: the next symbol of the candidate (R181), one more symbol taken, `rng_req` low. -/
def takeSymbol (x : Symbol) (s : State) : State :=
  { s with rngReq := false, candidate := s.candidate ++ [x], symbolsTaken := s.symbolsTaken + 1 }

/-- The candidate is rejected: none of its symbols is used again (R181, R182). -/
def rejectCandidate (s : State) : State := { s with candidate := [] }

/-- `rng_ack` with `rng_sym` (R35, R36). -/
def rngAnswer (sym : BitVec 5) (s : State) : StepResult :=
  if s.rngReq then
    if h : sym.toNat < Config.alphabetSize then .next (takeSymbol ⟨sym.toNat, h⟩ s)
    else .refused (.sourceContract .notASymbol)
  else .refused (.sourceContract .unrequested)

/-- The symbol at a position of the stream (R36: draws are answered in order, from one stream). -/
def SymbolStream.symbolAt (stream : SymbolStream) (position : Nat) : Symbol :=
  (stream.first[position]? <|> stream.again[(position - stream.first.length) % stream.again.length]?).getD
    (Config.symbolStream position)

/-- A turn of the source: a waiting draw is answered with the next symbol of the stream; with no draw waiting the source does
nothing (R36, R39). -/
def sourceTurn (s : State) : StepResult :=
  if s.rngReq then .next (takeSymbol (s.stream.symbolAt s.symbolsTaken) s) else .next s

end Sys2Proof.Machine
end

