-- ==== Sys2Proof/Machine/Arith.lean ====
section
/-! DEFINITION. Exact integer arithmetic (R12, R163 of the spec): the canonical residue, Euclid's algorithm, the integer square
root, the sign of a cofactor, and element-wise application (R91). -/

namespace Sys2Proof.Machine

/-- `mod(x, m)` = x - m·⌊x / m⌋ (R150); applied with m ≥ 1 only. -/
def modZ (x m : Int) : Int := x - m * x.fdiv m

/-- Euclid's recursion, at most `fuel` steps deep. -/
def gcdAux : Nat → Int → Int → Int
  | 0, a, _ => a
  | fuel + 1, a, b => if b = 0 then a else gcdAux fuel b (modZ a b)

/-- `gcd(a, b)` for a, b ≥ 0 (R152). The second argument strictly decreases, so b + 1 steps are enough (log 15). -/
def gcdZ (a b : Int) : Int := gcdAux (b.toNat + 1) a b

/-- The extended recursion, at most `fuel` steps deep. -/
def extendedGCDAux : Nat → Int → Int → Int × Int × Int
  | 0, a, _ => (a, 1, 0)
  | fuel + 1, a, b =>
    if b = 0 then (a, 1, 0)
    else
      let t := extendedGCDAux fuel b (modZ a b)
      (t.1, t.2.2, t.2.1 - a.fdiv b * t.2.2)

/-- `extendedGCD(a, b)` = (g, x, y) for a, b ≥ 0 (R154; log 15). -/
def extendedGCD (a b : Int) : Int × Int × Int := extendedGCDAux (b.toNat + 1) a b

/-- `modInverse(a, m)` for a ≥ 0 and m ≥ 1 (R156). -/
def modInverse (a m : Int) : Option Int :=
  let t := extendedGCD a m
  if t.1 ≠ 1 then none else some (modZ t.2.1 m)

/-- The largest s ≤ bound with s·s ≤ k. -/
def isqrtBelow : Nat → Nat → Nat
  | 0, _ => 0
  | s + 1, k => if (s + 1) * (s + 1) ≤ k then s + 1 else isqrtBelow s k

/-- `isqrt(k)`: the largest s with s·s ≤ k (R12). -/
def isqrt (k : Nat) : Nat := isqrtBelow k k

/-- `(-1)^k`: by the parity of k only (R12, R163 (d)). -/
def altSign (k : Nat) : Int := if k % 2 = 0 then 1 else -1

/-- Element-wise application in ascending index; the first element that raises ends it (R91, R220). -/
def mapRaising {α β : Type} (f : α → Except ErrorKind β) : List α → Except ErrorKind (List β)
  | [] => .ok []
  | a :: rest =>
    match f a with
    | .error k => .error k
    | .ok b =>
      match mapRaising f rest with
      | .error k => .error k
      | .ok bs => .ok (b :: bs)

/-- The value of a function that may raise, carried on by one that cannot. -/
def thenItems {α : Type} (layout : α → List Int) : Except ErrorKind α → Except ErrorKind (List Int)
  | .ok a => .ok (layout a)
  | .error k => .error k

/-- The same for a function that may also answer nothing-found. -/
def thenOptionItems {α : Type} (layout : α → List Int) :
    Except ErrorKind (Option α) → Except ErrorKind (Option (List Int))
  | .ok (some a) => .ok (some (layout a))
  | .ok none => .ok none
  | .error k => .error k

end Sys2Proof.Machine
end

