-- ==== Sys2Proof/Machine/Codec.lean ====
section
/-! DEFINITION. The Alphabet Codec (spec/41_alphabet_codec.md): its functions and the meanings of C2S, S2C, STR2VEC, VEC2STR,
STR2MAT, MAT2STR. -/

namespace Sys2Proof.Machine

/-- `charToSymbol(c)` (R100, R101). -/
def charToSymbol (c : Nat) : Except ErrorKind Int :=
  if 0x41 ≤ c ∧ c ≤ 0x5A then .ok ((c : Int) - 0x41)
  else if 0x61 ≤ c ∧ c ≤ 0x7A then .ok ((c : Int) - 0x61)
  else .error .invalidCharacter

/-- `symbolToChar(s)` (R102). -/
def symbolToChar (v : Int) : Except ErrorKind Nat :=
  if 0 ≤ v ∧ v ≤ 25 then .ok (0x41 + v.toNat) else .error .outOfRange

/-- `stringToVector(s)` (R103). -/
def stringToVector (str : Str) : Except ErrorKind Vec := mapRaising charToSymbol str

/-- `vectorToString(v)` (R104). -/
def vectorToString (vec : Vec) : Except ErrorKind Str := mapRaising symbolToChar vec

/-- `square(m)`: every row's length is the row count (R120, D24). -/
def square (mat : Mat) : Bool := mat.all fun row => decide (row.length = mat.length)

/-- The n×n matrix with element (i, j) at index i·n + j of the list (R105, R180: row-major). Every index read is in range
where the list has n² elements (log 16). -/
def rowMajor (n : Nat) (list : List Int) : Mat :=
  (List.range n).map fun i => (List.range n).map fun j => list.getD (i * n + j) 0

/-- `stringToMatrix(s)` (R105): the length test comes before any character is converted, and the characters are converted in
ascending index. -/
def stringToMatrix (str : Str) : Except ErrorKind Mat :=
  let side := isqrt str.length
  if side * side ≠ str.length then .error .invalidKeyLength
  else match mapRaising charToSymbol str with
    | .ok symbols => .ok (rowMajor side symbols)
    | .error k => .error k

/-- `matrixToString(m)` for m with at least one row (R106): the shape test comes before any entry is converted; i outer, j
inner. -/
def matrixToString (mat : Mat) : Except ErrorKind Str :=
  if square mat then mapRaising symbolToChar mat.flatten else .error .invalidMatrixSize

/-- C2S (R101). -/
def execC2s (c : Nat) (s : State) : StepResult := finish (thenItems intItems (charToSymbol c)) s

/-- S2C (R102). -/
def execS2c (v : Int) (s : State) : StepResult := finish (thenItems charItems (symbolToChar v)) s

/-- STR2VEC (R103). -/
def execStr2vec (str : Str) (s : State) : StepResult := finish (thenItems vecItems (stringToVector str)) s

/-- VEC2STR (R104). -/
def execVec2str (vec : Vec) (s : State) : StepResult := finish (thenItems strItems (vectorToString vec)) s

/-- STR2MAT (R105). -/
def execStr2mat (str : Str) (s : State) : StepResult := finish (thenItems matItems (stringToMatrix str)) s

/-- MAT2STR (R106; R121: a matrix with no rows is refused). -/
def execMat2str (mat : Mat) (s : State) : StepResult :=
  if mat.length = 0 then refuse .unspecified s else finish (thenItems strItems (matrixToString mat)) s

end Sys2Proof.Machine
end

