-- ==== Sys2Proof/Machine/Matrix.lean ====
section
/-! DEFINITION. Matrix Algebra (spec/42_matrix_algebra.md): its functions and the meanings of TRANSP, MINOR, DET, MATVEC, INVQ.
All arithmetic is exact (R12). -/

namespace Sys2Proof.Machine

/-- m[i][j] (R13). Every index a rule reads is in range once its shape test has passed (log 16). -/
def entry (mat : Mat) (i j : Nat) : Int := (mat.getD i []).getD j 0

/-- The n×n matrix of the values f i j. -/
def tabulate (n : Nat) (f : Nat → Nat → Int) : Mat :=
  (List.range n).map fun i => (List.range n).map fun j => f i j

/-- `transpose(m)` for m square (R122). -/
def transposeOf (mat : Mat) : Mat := tabulate mat.length fun i j => entry mat j i

/-- `minor(m, row, col)` for m square and both indices in range (R123): row and col deleted, the rest in order. -/
def minorOf (mat : Mat) (row col : Nat) : Mat := (mat.eraseIdx row).map fun r => r.eraseIdx col

/-- The determinant of a square matrix of size n by R124: the base cases, then cofactor expansion along row 0. The case n = 0
is the spec's own (D26, C3) and is reached from a minor of a 1×1 matrix only. -/
def detOfSize : Nat → Mat → Int
  | 0, _ => 1
  | 1, mat => entry mat 0 0
  | 2, mat => entry mat 0 0 * entry mat 1 1 - entry mat 0 1 * entry mat 1 0
  | n + 3, mat =>
    ((List.range (n + 3)).map fun col =>
      altSign col * entry mat 0 col * detOfSize (n + 2) (minorOf mat 0 col)).sum

/-- The value of `determinant(m)` once m has passed the test for squareness (R124). -/
def detValue (mat : Mat) : Int := detOfSize mat.length mat

/-- `determinant(m)` (R124). The recursive calls are on square matrices, so only the outermost call can raise. -/
def determinant (mat : Mat) : Except ErrorKind Int :=
  if square mat then .ok (detValue mat) else .error .invalidMatrixSize

/-- (-1)^(i+j) · determinant(minor(m, i, j)) (R128, R158 step 4). -/
def cofactor (mat : Mat) (i j : Nat) : Int := altSign (i + j) * detValue (minorOf mat i j)

/-- `cofactors(m)` for m square of size n ≥ 1 (R128). -/
def cofactors (mat : Mat) : Mat := tabulate mat.length (cofactor mat)

/-- Σ_j row[j]·v[j] (R127), for a row as long as v. -/
def dot (row : List Int) (vec : Vec) : Int := (List.zipWith (· * ·) row vec).sum

/-- `multiplyMatrixVector(m, v)` (R127, D25): every row's length must be len(v); the modulus is the constant 26. -/
def multiplyMatrixVector (mat : Mat) (vec : Vec) : Except ErrorKind Vec :=
  if mat.all fun row => decide (row.length = vec.length) then
    .ok (mat.map fun row => modZ (dot row vec) Config.alphabetSize)
  else .error .invalidDimensions

/-- `inverseMatrix(m)` (R129): the numerators and the common denominator, not reduced (R78, D33; log 17). -/
def inverseMatrix (mat : Mat) : Except ErrorKind (Option (Mat × Int)) :=
  match determinant mat with
  | .error k => .error k
  | .ok d => if d = 0 then .ok none else .ok (some (transposeOf (cofactors mat), d))

/-- TRANSP (R122): a matrix with no rows or not square is refused (R121, D27). -/
def execTransp (mat : Mat) (s : State) : StepResult :=
  if mat.length = 0 then refuse .unspecified s
  else if square mat then .next (deliver (matItems (transposeOf mat)) s)
  else refuse .unspecified s

/-- An index in [0, n - 1] (R123). -/
def indexOk (mat : Mat) (i : Int) : Bool := decide (0 ≤ i) && decide (i < mat.length)

/-- MINOR (R123): a matrix with no rows, not square, or an index outside [0, n - 1] is refused (R121, D28). -/
def execMinor (mat : Mat) (row col : Int) (s : State) : StepResult :=
  if mat.length = 0 then refuse .unspecified s
  else if square mat && indexOk mat row && indexOk mat col then
    .next (deliver (matItems (minorOf mat row.toNat col.toNat)) s)
  else refuse .unspecified s

/-- DET (R125). -/
def execDet (mat : Mat) (s : State) : StepResult :=
  if mat.length = 0 then refuse .unspecified s else finish (thenItems intItems (determinant mat)) s

/-- MATVEC (R127). -/
def execMatvec (mat : Mat) (vec : Vec) (s : State) : StepResult :=
  if mat.length = 0 then refuse .unspecified s
  else finish (thenItems vecItems (multiplyMatrixVector mat vec)) s

/-- INVQ (R129). -/
def execInvq (mat : Mat) (s : State) : StepResult :=
  if mat.length = 0 then refuse .unspecified s
  else finishOption (thenOptionItems (fun p => ratMatItems p.1 p.2) (inverseMatrix mat)) s

end Sys2Proof.Machine
end

