-- ==== Sys2Proof/Machine/Modular.lean ====
section
/-! DEFINITION. Modular Arithmetic (spec/43_modular_arithmetic.md): the modular matrix inverse and the meanings of MOD, GCD,
EGCD, MODINV, INVMOD. The scalar functions are in Machine/Arith.lean. -/

namespace Sys2Proof.Machine

/-- Step 4 of R158: the cofactor matrix reduced mod `modulus` (`cof`, C2). -/
def cofactorsMod (mat : Mat) (modulus : Int) : Mat := tabulate mat.length fun i j => modZ (cofactor mat i j) modulus

/-- Steps 5 and 6 of R158: the transpose, each entry scaled by invDet and reduced. -/
def scaledAdjugate (mat : Mat) (modulus invDet : Int) : Mat :=
  tabulate mat.length fun i j => modZ (entry (transposeOf (cofactorsMod mat modulus)) i j * invDet) modulus

/-- `inverseMatrixMod(m, modulus)` for modulus ≥ 1, in the six steps of R158. Step 3's failure branch cannot be taken (R160)
and is kept. -/
def inverseMatrixMod (mat : Mat) (modulus : Int) : Except ErrorKind (Option Mat) :=
  match determinant mat with
  | .error k => .error k
  | .ok det =>
    let detMod := modZ det modulus
    if gcdZ detMod modulus ≠ 1 then .ok none
    else match modInverse detMod modulus with
      | none => .ok none
      | some invDet => .ok (some (scaledAdjugate mat modulus invDet))

/-- MOD (R151): refused for m < 1 (D29). -/
def execMod (x m : Int) (s : State) : StepResult :=
  if m < 1 then refuse .unspecified s else .next (deliver (intItems (modZ x m)) s)

/-- GCD (R153): refused for a negative operand (D30). -/
def execGcd (a b : Int) (s : State) : StepResult :=
  if a < 0 ∨ b < 0 then refuse .unspecified s else .next (deliver (intItems (gcdZ a b)) s)

/-- EGCD (R155): refused for a negative operand (D30). -/
def execEgcd (a b : Int) (s : State) : StepResult :=
  if a < 0 ∨ b < 0 then refuse .unspecified s else .next (deliver (tripleItems (extendedGCD a b)) s)

/-- MODINV (R157): refused for a < 0 or m < 1 (D29, D30). -/
def execModinv (a m : Int) (s : State) : StepResult :=
  if a < 0 ∨ m < 1 then refuse .unspecified s
  else finishOption (thenOptionItems intItems (.ok (modInverse a m))) s

/-- INVMOD (R159): refused for a matrix with no rows (R121) or modulus < 1 (D29), before the test for squareness (R219). -/
def execInvmod (mat : Mat) (modulus : Int) (s : State) : StepResult :=
  if mat.length = 0 ∨ modulus < 1 then refuse .unspecified s
  else finishOption (thenOptionItems matItems (inverseMatrixMod mat modulus)) s

end Sys2Proof.Machine
end

