-- ==== Sys2Proof/Machine/Cipher.lean ====
section
/-! DEFINITION. The Cipher Engine (spec/45_cipher_engine.md): `encode`, `decode` and the meanings of ENCODE and DECODE. -/

namespace Sys2Proof.Machine

/-- `encode(text, keyString)` (R190): the length test, then the key, then the text (R195). -/
def encodeText (text key : Str) : Except ErrorKind Str :=
  if text.length * text.length ≠ key.length then .error .invalidKeyLength
  else match stringToMatrix key with
    | .error k => .error k
    | .ok keyMat =>
      match stringToVector text with
      | .error k => .error k
      | .ok vec =>
        match multiplyMatrixVector keyMat vec with
        | .error k => .error k
        | .ok product => vectorToString product

/-- `decode(text, keyString)` (R193): the length test, the key, its inverse, then `encode` on the text with the inverse key
string (R195). -/
def decodeText (text key : Str) : Except ErrorKind Str :=
  if text.length * text.length ≠ key.length then .error .invalidKeyLength
  else match stringToMatrix key with
    | .error k => .error k
    | .ok keyMat =>
      match inverseMatrixMod keyMat Config.alphabetSize with
      | .error k => .error k
      | .ok none => .error .invalidKey
      | .ok (some inverse) =>
        match matrixToString inverse with
        | .error k => .error k
        | .ok inverseKey => encodeText text inverseKey

/-- ENCODE (R190); two empty strings pass the length test and are refused (D34). -/
def execEncode (text key : Str) (s : State) : StepResult :=
  if text.length * text.length ≠ key.length then .next (complete (.error .invalidKeyLength) s)
  else if text.length = 0 then refuse .unspecified s
  else finish (thenItems strItems (encodeText text key)) s

/-- DECODE (R193); two empty strings pass the length test and are refused (D34). -/
def execDecode (text key : Str) (s : State) : StepResult :=
  if text.length * text.length ≠ key.length then .next (complete (.error .invalidKeyLength) s)
  else if text.length = 0 then refuse .unspecified s
  else finish (thenItems strItems (decodeText text key)) s

end Sys2Proof.Machine
end

