-- ==== Sys2Proof/Machine/KeyGen.lean ====
section
/-! DEFINITION. The Key Generator (spec/44_key_generator.md): one turn of the engine on GENKEY. The command is the only one
that takes more than one turn: each symbol is drawn by itself (R36, R254) and a candidate may be rejected any number of times
(R182, R184; log 9, log 18). -/

namespace Sys2Proof.Machine

/-- The symbols of a candidate as integers. -/
def symbolValues (symbols : List Symbol) : List Int := symbols.map fun x => (x.val : Int)

/-- The candidate as a row-major n×n matrix (R180, R181). -/
def candidateMatrix (n : Nat) (symbols : List Symbol) : Mat := rowMajor n (symbolValues symbols)

/-- A full candidate is tested: invertible mod 26, its string is the result; else it is rejected, which is no error (R180,
R182). The two raising branches cannot be taken (R180: no other error kind can occur) and are kept. -/
def testCandidate (n : Nat) (s : State) : StepResult :=
  match inverseMatrixMod (candidateMatrix n s.candidate) Config.alphabetSize with
  | .error k => .next (complete (.error k) s)
  | .ok none => .next (rejectCandidate s)
  | .ok (some _) => finish (thenItems strItems (vectorToString (symbolValues s.candidate))) s

/-- GENKEY (R180): the tests on n come first and draw no symbol; then a symbol is requested for as long as the candidate holds
fewer than n² (R181: each candidate draws exactly n² fresh symbols); a full candidate is tested. -/
def execGenkey (n : Int) (s : State) : StepResult :=
  if n ≤ 0 then .next (complete (.error .invalidKeyLength) s)
  else if (Config.nMax : Int) < n then refuse .capacity s
  else if s.candidate.length < n.toNat * n.toNat then .next (raiseRequest s)
  else testCandidate n.toNat s

end Sys2Proof.Machine
end

