-- ==== Sys2Proof/Machine/Dispatch.lean ====
section
/-! DEFINITION. One arm per command of R80: the engine's turn on the command in flight, its operands parsed. -/

namespace Sys2Proof.Machine

def exec (i : Instr) (s : State) : Host.Outcome State Fault Refusal :=
  match i with
  | .c2s c => Sys2Proof.Machine.execC2s c s
  | .s2c v => Sys2Proof.Machine.execS2c v s
  | .str2vec str => Sys2Proof.Machine.execStr2vec str s
  | .vec2str vec => Sys2Proof.Machine.execVec2str vec s
  | .str2mat str => Sys2Proof.Machine.execStr2mat str s
  | .mat2str mat => Sys2Proof.Machine.execMat2str mat s
  | .transp mat => Sys2Proof.Machine.execTransp mat s
  | .minor mat row col => Sys2Proof.Machine.execMinor mat row col s
  | .det mat => Sys2Proof.Machine.execDet mat s
  | .matvec mat vec => Sys2Proof.Machine.execMatvec mat vec s
  | .invq mat => Sys2Proof.Machine.execInvq mat s
  | .mod x m => Sys2Proof.Machine.execMod x m s
  | .gcd a b => Sys2Proof.Machine.execGcd a b s
  | .egcd a b => Sys2Proof.Machine.execEgcd a b s
  | .modinv a m => Sys2Proof.Machine.execModinv a m s
  | .invmod mat modulus => Sys2Proof.Machine.execInvmod mat modulus s
  | .genkey n => Sys2Proof.Machine.execGenkey n s
  | .encode text key => Sys2Proof.Machine.execEncode text key s
  | .decode text key => Sys2Proof.Machine.execDecode text key s

end Sys2Proof.Machine
end

