-- ==== Sys2Proof/Machine/Engine.lean ====
section
/-! DEFINITION. What moves: the engine's turn on the command in flight (R27), and each event of the environment (R254). -/

namespace Sys2Proof.Machine

/-- The verdict on the command in flight (R84): the sampled words, and no others (R60). -/
def fetch (c : InFlight) : Decoded := decode c.cmd c.operands

/-- A turn of the engine. Stages 1 and 2 of R219 are here: an illegal word completes Refused/IllegalCommand (R82), a length word
over its bound Refused/Capacity (R83); the rest is the command's own rule. Where no command is in flight the engine does
nothing (R27: DONE does not fall back to IDLE; log 6). The sampled words always hold the whole layout (R33), so the last
verdict does not arise. -/
def engineTurn (s : State) : StepResult :=
  match s.inFlight with
  | none => .next s
  | some c =>
    match fetch c with
    | .command i _ => exec i s
    | .illegal => refuse .illegalCommand s
    | .overCapacity _ => refuse .capacity s
    | .unwritten => violation .issueOverUnwritten

/-- One event of the environment, already taken from the script (R254). -/
def eventStep (e : Event) (s : State) : StepResult :=
  match e with
  | .read off => busRead off s
  | .write off w => busWrite off w s
  | .readBytes addr width => busReadBytes addr width s
  | .writeBytes addr bs => busWriteBytes addr bs s
  | .engine => engineTurn s
  | .rngAck sym => rngAnswer sym s
  | .rngTurn => sourceTurn s
  | .hardReset => .next (resetEngine s)

/-- The event at the front of the script is taken. -/
def popScript (rest : List Event) (s : State) : State := { s with script := rest }

/-- The script is used up and the recurring events are to come once more (log 24). -/
def nextRound (s : State) : State := { s with script := s.recurring }

/-- The command word cmd stored as the command in flight over operand words of zeros, as if a host had written them to ARG and
issued it (R21, R60), with nothing else to happen before the engine's turn (log 12). -/
def placeCommand (cmd : Word) (s : State) : State :=
  let operands := (sampledWords cmd zeroOperands).getD []
  accept cmd operands { s with arg := Memory.ofWords operands, script := [] }

end Sys2Proof.Machine
end

