-- ==== Sys2Proof/Machine/Step.lean ====
section
/-! DEFINITION. One step: the oldest event of the script, or, when the script is used up, a turn of the engine (R252: a command
in flight is eventually completed, whatever the host does; log 5), after which the recurring events come again (log 24). -/

namespace Sys2Proof.Machine

def step (s : State) : Host.Outcome State Fault Refusal :=
  match s.script with
  | [] => engineTurn (nextRound s)
  | e :: rest => eventStep e (popScript rest s)

/-- The state whose very next step runs the command word w (log 12). -/
def State.withFetchWord (s : State) (nbits w : Nat) : State := placeCommand (tableCommandWord nbits w) s

end Sys2Proof.Machine
end

