-- ==== Sys2Proof/Safety.lean ====
section
/-! DEFINITION. What claims are stated in: the states a command can end in (R222), the invariant of every run, the runs
about which something may be claimed (R57, R218), when a run is over and what is observed of it (R254). The end states are written out field by field, not by the operation that
produces them. -/

namespace Sys2Proof.Machine

/-- The end of a command with outcome OK and the given result values (R222, R81): every other field is as before. -/
def endedOk (s : State) (values : List Int) : State :=
  { s with
    status := { state := .done, code := .ok, reason := .none }
    resLen := values.length
    res := Memory.ofWords (values.map Word.ofValue)
    inFlight := none
    rngReq := false
    candidate := [] }

/-- The end of a command with an error (R213, R222): the bare kind, nothing in `RES`. -/
def endedError (s : State) (k : ErrorKind) : State :=
  { s with
    status := { state := .done, code := .error k, reason := .none }
    resLen := 0
    res := []
    inFlight := none
    rngReq := false
    candidate := [] }

/-- The end of a command with nothing-found (R212, R222). -/
def endedNothingFound (s : State) : State :=
  { s with
    status := { state := .done, code := .nothingFound, reason := .none }
    resLen := 0
    res := []
    inFlight := none
    rngReq := false
    candidate := [] }

/-- The end of a command with the outcome Refused (R216, R222); the refusal mark of R218 is set. -/
def endedRefused (s : State) (r : RefuseReason) : State :=
  { s with
    status := { state := .done, code := .refused, reason := .some r }
    resLen := 0
    res := []
    inFlight := none
    rngReq := false
    candidate := []
    refusalMark := true }

/-- GENKEY of size n is in flight, 1 ≤ n ≤ 15, and its candidate is not over-full (R181); while a draw is asked for it is not
full. -/
def Drawing (s : State) : Prop :=
  ∃ (c : InFlight) (n : Nat) (rest : List Word), s.inFlight = some c ∧ fetch c = .command (.genkey n) rest ∧
    1 ≤ n ∧ n ≤ Config.nMax ∧ s.candidate.length ≤ n * n ∧ (s.rngReq = true → s.candidate.length < n * n)

/-- What holds in every state of every run. -/
structure Inv (s : State) : Prop where
  /-- ARG keeps its canonical form, within its 512 words (R29). -/
  argWf : Memory.wf Config.argWords s.arg = true
  /-- RES keeps its canonical form, within its 512 words (R30). -/
  resWf : Memory.wf Config.resWords s.res = true
  /-- `RES_LEN` is a number in [0, `RES_WORDS`] (R23). -/
  resLenBound : s.resLen ≤ Config.resWords
  /-- While `STATE` is IDLE or BUSY, `CODE` and `REASON` read 0 (R22). -/
  flagsClear : s.status.state ≠ .done → s.status.code = .ok ∧ s.status.reason = .none
  /-- `REASON` is a reason exactly when `CODE` is 8 (R22, R213). -/
  reasonIff : s.status.reason ≠ .none ↔ s.status.code = .refused
  /-- `RES_LEN` is 0 on every outcome other than OK (R23, R32). -/
  noResultOnFailure : s.status.code ≠ .ok → s.resLen = 0
  /-- `RES_LEN` reads 0 in IDLE (R23). -/
  idleLength : s.status.state = .idle → s.resLen = 0
  /-- In DONE exactly the first `RES_LEN` words of `RES` hold a value (R32, R34). -/
  resultWords : s.status.state = .done → ∃ ws : List Word, s.res = Memory.ofWords ws ∧ ws.length = s.resLen
  /-- Outside DONE no word of `RES` holds a value (R34). -/
  noResultOutsideDone : s.status.state ≠ .done → s.res = []
  /-- A command is in flight exactly in BUSY (R27, R37). -/
  flightIffBusy : s.inFlight.isSome = true ↔ s.status.state = .busy
  /-- The words in flight are those ARG still holds (R31, R60). -/
  sampledFromArg : ∀ c, s.inFlight = some c → sampledWords c.cmd s.arg.words = some c.operands
  /-- The random-symbol port and the working storage are used by GENKEY only (R35, R181). -/
  portUse : s.rngReq = true ∨ s.candidate ≠ [] → Drawing s
  /-- A completion with Refused has set the refusal mark (R218). -/
  markSet : s.status.code = .refused → s.refusalMark = true
  /-- The host has seen DONE only where the engine is in DONE (R248 (b)). -/
  seenInDone : s.doneSeen = true → s.status.state = .done

/-- k steps go well: no protocol violation and no broken contract has stopped it (R57). -/
def RunsTo (k : Nat) (s t : State) : Prop := Host.Core.run Sys2Proof.core k s = .next t

/-- A host's event: an access to the window, or the reset input. -/
def isHostEvent : Event → Bool
  | .read _ => true
  | .write _ _ => true
  | .readBytes _ _ => true
  | .writeBytes _ _ => true
  | .hardReset => true
  | .engine => false
  | .rngAck _ => false
  | .rngTurn => false

/-- A run is over: the host makes no further access and no command is in flight, `STATE` IDLE or DONE (R254, D44). -/
def runOver (s : State) : Bool := (s.script ++ s.recurring).all (fun e => !isHostEvent e) && !s.isBusy

/-- What is observed of a finished run (R254, D44): the last `STATUS`, `RES_LEN`, the words `RES[0 .. RES_LEN-1]`, the
contents of the written ARG words, and how many symbols were taken from the stream. -/
structure Observation where
  status : Status
  resLen : Nat
  result : List Word
  arg : Memory
  symbolsTaken : Nat
  deriving DecidableEq, Repr

/-- The observation of a state. -/
def observe (s : State) : Observation where
  status := s.status
  resLen := s.resLen
  result := s.res.words.take s.resLen
  arg := s.arg
  symbolsTaken := s.symbolsTaken

/-- A finished run: after k steps from s the run is over in t. A run that stays BUSY, or that breaks the protocol, is none. -/
def FinishesIn (k : Nat) (s t : State) : Prop := RunsTo k s t ∧ runOver t = true

/-- The observations of a sequence of commands in k steps: one at each completion the host reads, that is, at each read of
`STATUS` that first returns DONE for a command (R254). -/
def observed : Nat → State → List Observation
  | 0, _ => []
  | k + 1, s =>
    match step s with
    | .next t => (if !s.doneSeen && t.doneSeen then [observe t] else []) ++ observed k t
    | _ => []

/-- Something may be claimed of the source's functions in a run that has come to s: no command has been Refused (R218), and no
word of `RES` was read before DONE had been observed (R248 (b), R57; log 26). -/
def Claimable (s : State) : Prop := s.refusalMark = false

end Sys2Proof.Machine
end

