-- ==== Sys2Proof/Certificates/Slice0/Obligations.lean ====
section
/-! DEFINITION. The statements for the provers, each a Prop, and the words they are said in (namespace Sys2Proof.Claims). No
statement is about a program. Where a statement rests on what the spec marks as its own derivation or on general knowledge, its
docstring says so and OBLIGATIONS.json lists it as derived. -/

namespace Sys2Proof.Claims

open Sys2Proof Sys2Proof.Machine

/-! ## The words -/

/-- What a step comes to when e is the very next event of s. -/
def after (e : Event) (s : State) : StepResult := step { s with script := e :: s.script }

/-- A step that has no meaning by R57, with the violation it is. -/
def refusedAs (v : Violation) : StepResult := .refused (.protocolViolation v)

/-- The state with one more word read by the host. -/
def hasRead (s : State) (off : Nat) (w : Word) : State := { s with reads := s.reads ++ [.word off w] }

/-- The state with STATUS read by the host, who has seen DONE if that is what it reads (R248 (b); log 26). -/
def hasReadStatus (s : State) : State :=
  { hasRead s 0x001 s.status.word with doneSeen := s.doneSeen || decide (s.status.state = .done) }

/-- The state with RES[i] read by the host, as v; where DONE has not been observed the refusal mark is set (R248 (b), R57;
log 26). -/
def hasReadResult (s : State) (i : Nat) (v : Word) : State :=
  { hasRead s (0x400 + i) v with refusalMark := s.refusalMark || !s.doneSeen }

/-- The next event of s is a read of the word of RES at offset off, on either bus form. -/
def ReadsResultAt (s : State) (off : Nat) : Prop :=
  0x400 ≤ off ∧ ∃ rest, s.script = .read off :: rest ∨ s.script = .readBytes (8 * off) 8 :: rest

/-- The state with the recurring events next, as it is once the events of the script are used up (log 24). -/
def newRound (s : State) : State := { s with script := s.recurring }

/-- In flight under the command word op, with its operand words, the command i is what the step runs. -/
def RunsAs (op : Word) (i : Instr) : Prop :=
  i.wellFormed = true → ∀ s : State, s.script = [] → s.inFlight = some { cmd := op, operands := i.operandWords } →
    step s = exec i (newRound s)

/-- In flight under the command word op, these operand words end Refused/Capacity. -/
def EndsOverCapacity (op : Word) (operands : List Word) : Prop :=
  ∀ s : State, s.script = [] → s.inFlight = some { cmd := op, operands := operands } →
    step s = .next (endedRefused (newRound s) .capacity)

/-- A first length word over 225 (R75, R76). -/
def LongFirst (op : Word) : Prop :=
  ∀ (w : Word) (rest : List Word), 225 < w.toNat → EndsOverCapacity op (w :: rest)

/-- A first MAT operand with a row count over 15, or with a row length over 15 after rows that are in order (R77). -/
def WideFirst (op : Word) : Prop :=
  (∀ (w : Word) (rest : List Word), 15 < w.toNat → EndsOverCapacity op (w :: rest)) ∧
  (∀ (rows : Mat) (count : Nat) (w : Word) (rest : List Word), rows.all rowOk = true → rows.length < count →
    count ≤ 15 → 15 < w.toNat →
    EndsOverCapacity op (wordsOf ((count : Int) :: rows.flatMap vecItems) ++ w :: rest))

/-- An upper-case letter (R100). -/
abbrev IsUpper (c : Nat) : Prop := 0x41 ≤ c ∧ c ≤ 0x5A

/-- A lower-case letter (R100). -/
abbrev IsLower (c : Nat) : Prop := 0x61 ≤ c ∧ c ≤ 0x7A

/-- A letter (R100). -/
abbrev IsLetter (c : Nat) : Prop := IsUpper c ∨ IsLower c

/-- The Symbol of a letter: its place in the alphabet, upper or lower case (R100). -/
def letterValue (c : Nat) : Int := if c ≤ 0x5A then (c : Int) - 0x41 else (c : Int) - 0x61

/-- The upper-case form of a letter. -/
def upperOf (c : Nat) : Nat := if IsLower c then c - 0x20 else c

/-- Every row is as long as there are rows (R120). -/
abbrev Square (mat : Mat) : Prop := ∀ row ∈ mat, row.length = mat.length

/-- The n×n matrix of the values f i j. -/
def gridRows (n : Nat) (f : Nat → Nat → Int) : Mat := (List.range n).map fun i => (List.range n).map (f i)

/-- The values of the n×n MAT of the values f i j: the row count, then each row's length and entries (R77). -/
def gridValues (n : Nat) (f : Nat → Nat → Int) : List Int :=
  (n : Int) :: (List.range n).flatMap fun i => (n : Int) :: (List.range n).map (f i)

/-- The index in the whole matrix of what stands at k once `deleted` is gone (R123). -/
def skipping (deleted k : Nat) : Nat := if k < deleted then k else k + 1

/-- The matrix as a matrix of the library. -/
def matrixOf (n : Nat) (mat : Mat) : Matrix (Fin n) (Fin n) ℤ := Matrix.of fun i j => entry mat i.val j.val

/-- The entry of a library matrix at two numbers. -/
def valueAt {n : Nat} (m : Matrix (Fin n) (Fin n) ℤ) (i j : Nat) : Int :=
  if h : i < n ∧ j < n then m ⟨i, h.1⟩ ⟨j, h.2⟩ else 0

/-- The key matrix of a string of n² letters, row-major (R105). -/
def keyMatrix (n : Nat) (key : Str) : Mat := gridRows n fun i j => letterValue (key.getD (i * n + j) 0)

/-- `inverseMatrixMod(m, 26)` is not nothing-found (R183). -/
def Invertible26 (mat : Mat) : Prop := ∃ inverse, inverseMatrixMod mat 26 = .ok (some inverse)

/-- The matrix a block of symbols fills, row-major (R181). -/
def blockMatrix (n : Nat) (block : List Symbol) : Mat :=
  gridRows n fun i j => (block.map fun x => (x.val : Int)).getD (i * n + j) 0

/-- Block r, counted from 0, of n² symbols of the stream from where it stands. -/
def streamBlock (n : Nat) (s : State) (r : Nat) : List Symbol :=
  (List.range (n * n)).map fun j => s.stream.symbolAt (s.symbolsTaken + r * (n * n) + j)

/-- The letters a block of symbols spells. -/
def blockLetters (block : List Symbol) : Str := block.map fun x => 0x41 + x.val

/-- The events of one candidate: a turn that asks and an answer for each symbol, then a turn that tests. -/
def candidateEvents (block : List Symbol) : List Event :=
  (block.flatMap fun x => [Event.engine, Event.rngAck (BitVec.ofNat 5 x.val)]) ++ [Event.engine]

/-- A GENKEY of size n, 1 ≤ n ≤ 15, has been issued and has drawn nothing yet. -/
structure GenkeyIssued (n : Nat) (s : State) : Prop where
  atLeastOne : 1 ≤ n
  atMostFifteen : n ≤ 15
  flight : s.inFlight = some { cmd := 0x40, operands := [Word.ofValue (n : Int)] }
  busy : s.status = { state := .busy, code := .ok, reason := .none }
  noSymbols : s.candidate = []
  noRequest : s.rngReq = false

/-- The host's accesses that write the operand words and issue the command (R244). -/
def issueEvents (i : Instr) : List Event :=
  (i.operandWords.zipIdx.map fun p => Event.write (0x200 + p.2) p.1) ++ [Event.write 0x000 i.commandWord]

/-- The outcomes a command can end with (the table of R215; Capacity stands for GENKEY's n > 15 only, since a length word over
its bound is met before there is a command with operands). -/
def possibleEnds : Instr → List (Code × Reason)
  | .c2s _ => [(.ok, .none), (.error .invalidCharacter, .none)]
  | .s2c _ => [(.ok, .none), (.error .outOfRange, .none)]
  | .str2vec _ => [(.ok, .none), (.error .invalidCharacter, .none)]
  | .vec2str _ => [(.ok, .none), (.error .outOfRange, .none)]
  | .str2mat _ => [(.ok, .none), (.error .invalidCharacter, .none), (.error .invalidKeyLength, .none)]
  | .mat2str _ => [(.ok, .none), (.error .outOfRange, .none), (.error .invalidMatrixSize, .none),
      (.refused, .some .unspecified)]
  | .transp _ => [(.ok, .none), (.refused, .some .unspecified)]
  | .minor _ _ _ => [(.ok, .none), (.refused, .some .unspecified)]
  | .det _ => [(.ok, .none), (.error .invalidMatrixSize, .none), (.refused, .some .unspecified),
      (.refused, .some .resultOverflow)]
  | .matvec _ _ => [(.ok, .none), (.error .invalidDimensions, .none), (.refused, .some .unspecified)]
  | .invq _ => [(.ok, .none), (.error .invalidMatrixSize, .none), (.nothingFound, .none),
      (.refused, .some .unspecified), (.refused, .some .resultOverflow)]
  | .mod _ _ => [(.ok, .none), (.refused, .some .unspecified)]
  | .gcd _ _ => [(.ok, .none), (.refused, .some .unspecified)]
  | .egcd _ _ => [(.ok, .none), (.refused, .some .unspecified)]
  | .modinv _ _ => [(.ok, .none), (.nothingFound, .none), (.refused, .some .unspecified)]
  | .invmod _ _ => [(.ok, .none), (.error .invalidMatrixSize, .none), (.nothingFound, .none),
      (.refused, .some .unspecified)]
  | .genkey _ => [(.ok, .none), (.error .invalidKeyLength, .none), (.refused, .some .capacity)]
  | .encode _ _ => [(.ok, .none), (.error .invalidCharacter, .none), (.error .invalidKeyLength, .none),
      (.refused, .some .unspecified)]
  | .decode _ _ => [(.ok, .none), (.error .invalidCharacter, .none), (.error .invalidKeyLength, .none),
      (.error .invalidKey, .none), (.refused, .some .unspecified)]

/-- The opcodes of R80. -/
def opcodes : List Nat :=
  [0x10, 0x11, 0x12, 0x13, 0x14, 0x15, 0x20, 0x21, 0x22, 0x23, 0x24, 0x30, 0x31, 0x32, 0x33, 0x34, 0x40, 0x50, 0x51]

end Sys2Proof.Claims

open Sys2Proof Sys2Proof.Machine Sys2Proof.Claims

/-! ## Alphabet codec -/

/-- R101: C2S maps the upper-case and the lower-case letters to 0..25 and fails InvalidCharacter on every other code. -/
def Obligations.C2sMapsLettersToSymbols : Prop :=
  ∀ (c : Nat) (s : State),
    RunsAs 0x10 (.c2s c) ∧
    (IsUpper c → exec (.c2s c) s = .next (endedOk s [(c : Int) - 0x41])) ∧
    (IsLower c → exec (.c2s c) s = .next (endedOk s [(c : Int) - 0x61])) ∧
    (¬IsLetter c → exec (.c2s c) s = .next (endedError s .invalidCharacter))

/-- R102: S2C maps 0..25 to the upper-case letters and fails OutOfRange elsewhere, without reducing mod 26. -/
def Obligations.S2cMapsSymbolsToLetters : Prop :=
  ∀ (v : Int) (s : State),
    RunsAs 0x11 (.s2c v) ∧
    (0 ≤ v → v ≤ 25 → exec (.s2c v) s = .next (endedOk s [0x41 + v])) ∧
    (v < 0 ∨ 25 < v → exec (.s2c v) s = .next (endedError s .outOfRange))

/-- R103: STR2VEC converts every character, in order; one character that is no letter makes it InvalidCharacter. -/
def Obligations.Str2vecConvertsEachCharacter : Prop :=
  ∀ (str : Str) (s : State),
    RunsAs 0x12 (.str2vec str) ∧ LongFirst 0x12 ∧
    (strOk str = true → (∀ c ∈ str, IsLetter c) →
      exec (.str2vec str) s = .next (endedOk s ((str.length : Int) :: str.map letterValue))) ∧
    ((∃ c ∈ str, ¬IsLetter c) → exec (.str2vec str) s = .next (endedError s .invalidCharacter))

/-- R104: VEC2STR converts every element, in order; one element outside [0,25] makes it OutOfRange. -/
def Obligations.Vec2strConvertsEachSymbol : Prop :=
  ∀ (vec : Vec) (s : State),
    RunsAs 0x13 (.vec2str vec) ∧ LongFirst 0x13 ∧
    (vecOk vec = true → (∀ v ∈ vec, 0 ≤ v ∧ v ≤ 25) →
      exec (.vec2str vec) s = .next (endedOk s ((vec.length : Int) :: vec.map fun v => 0x41 + v))) ∧
    ((∃ v ∈ vec, v < 0 ∨ 25 < v) → exec (.vec2str vec) s = .next (endedError s .outOfRange))

/-- R105: STR2MAT fills a square matrix row-major; the length test comes before any character is looked at. -/
def Obligations.Str2matFillsRowMajor : Prop :=
  ∀ (str : Str) (s : State),
    RunsAs 0x14 (.str2mat str) ∧ LongFirst 0x14 ∧
    (∀ side : Nat, strOk str = true → str.length = side * side → (∀ c ∈ str, IsLetter c) →
      exec (.str2mat str) s =
        .next (endedOk s (gridValues side fun i j => letterValue (str.getD (i * side + j) 0)))) ∧
    (∀ side : Nat, str.length = side * side → (∃ c ∈ str, ¬IsLetter c) →
      exec (.str2mat str) s = .next (endedError s .invalidCharacter)) ∧
    ((∀ side ≤ str.length, str.length ≠ side * side) →
      exec (.str2mat str) s = .next (endedError s .invalidKeyLength))

/-- R106: MAT2STR serializes row-major; a matrix with no rows is refused; the shape test comes before any entry. -/
def Obligations.Mat2strSerializesRowMajor : Prop :=
  ∀ (mat : Mat) (s : State),
    RunsAs 0x15 (.mat2str mat) ∧ WideFirst 0x15 ∧
    (mat = [] → exec (.mat2str mat) s = .next (endedRefused s .unspecified)) ∧
    (mat ≠ [] → ¬Square mat → exec (.mat2str mat) s = .next (endedError s .invalidMatrixSize)) ∧
    (mat ≠ [] → Square mat → (∃ row ∈ mat, ∃ v ∈ row, v < 0 ∨ 25 < v) →
      exec (.mat2str mat) s = .next (endedError s .outOfRange)) ∧
    (mat ≠ [] → Square mat → matOk mat = true → (∀ row ∈ mat, ∀ v ∈ row, 0 ≤ v ∧ v ≤ 25) →
      exec (.mat2str mat) s = .next (endedOk s (((mat.length * mat.length : Nat) : Int) ::
        (List.range mat.length).flatMap fun i => (List.range mat.length).map fun j => 0x41 + entry mat i j)))

/-- The four properties the source lists for the codec, which the spec derives from its rules: letters to Symbols and back,
Symbols to letters and back, matrices through strings and back, lengths and order kept. -/
def Obligations.CodecRoundTrips : Prop :=
  (∀ c : Nat, IsLetter c → ∃ v, charToSymbol c = .ok v ∧ symbolToChar v = .ok (upperOf c)) ∧
  (∀ v : Int, 0 ≤ v → v ≤ 25 → ∃ c, symbolToChar v = .ok c ∧ charToSymbol c = .ok v) ∧
  (∀ mat : Mat, Square mat → (∀ row ∈ mat, ∀ v ∈ row, 0 ≤ v ∧ v ≤ 25) →
    ∃ str, matrixToString mat = .ok str ∧ stringToMatrix str = .ok mat) ∧
  (∀ (str : Str) (vec : Vec), stringToVector str = .ok vec → vec.length = str.length ∧
    vectorToString vec = .ok (str.map upperOf))

/-! ## Matrix algebra -/

/-- R122: TRANSP of a square matrix swaps the indices and copies the entries; the rest is refused. -/
def Obligations.TranspSwapsIndices : Prop :=
  ∀ (mat : Mat) (s : State),
    RunsAs 0x20 (.transp mat) ∧ WideFirst 0x20 ∧
    (mat ≠ [] → Square mat → matOk mat = true →
      exec (.transp mat) s = .next (endedOk s (gridValues mat.length fun i j => entry mat j i))) ∧
    (mat = [] ∨ ¬Square mat → exec (.transp mat) s = .next (endedRefused s .unspecified))

/-- R123: MINOR deletes one row and one column of a square matrix and keeps the others in order; the rest is refused. -/
def Obligations.MinorDeletesRowAndColumn : Prop :=
  ∀ (mat : Mat) (row col : Int) (s : State),
    RunsAs 0x21 (.minor mat row col) ∧ WideFirst 0x21 ∧
    (mat ≠ [] → Square mat → matOk mat = true → 0 ≤ row → row < mat.length → 0 ≤ col → col < mat.length →
      exec (.minor mat row col) s = .next (endedOk s (gridValues (mat.length - 1) fun i j =>
        entry mat (skipping row.toNat i) (skipping col.toNat j)))) ∧
    (mat = [] ∨ ¬Square mat ∨ row < 0 ∨ (mat.length : Int) ≤ row ∨ col < 0 ∨ (mat.length : Int) ≤ col →
      exec (.minor mat row col) s = .next (endedRefused s .unspecified))

/-- The cofactor recursion of rule R124, with the value 1 for the matrix with no rows, which is the spec's own (D26, C3). -/
def Obligations.DeterminantExpandsAlongRowZero : Prop :=
  determinant [] = .ok 1 ∧
  (∀ a : Int, determinant [[a]] = .ok a) ∧
  (∀ a b c d : Int, determinant [[a, b], [c, d]] = .ok (a * d - b * c)) ∧
  (∀ mat : Mat, ¬Square mat → determinant mat = .error .invalidMatrixSize) ∧
  (∀ mat : Mat, Square mat → 3 ≤ mat.length →
    ∃ sub : Nat → Int, (∀ col < mat.length, determinant (minorOf mat 0 col) = .ok (sub col)) ∧
      determinant mat =
        .ok (∑ col ∈ Finset.range mat.length, (-1) ^ col * entry mat 0 col * sub col))

/-- DET delivers the determinant (the library's, which the spec says from general knowledge the recursion computes), exactly or
not at all (R125). -/
def Obligations.DetDeliversTheDeterminant : Prop :=
  ∀ (mat : Mat) (s : State),
    (mat = [] → exec (.det mat) s = .next (endedRefused s .unspecified)) ∧
    (mat ≠ [] → ¬Square mat → exec (.det mat) s = .next (endedError s .invalidMatrixSize)) ∧
    (mat ≠ [] → Square mat → inIntRange (matrixOf mat.length mat).det = true →
      exec (.det mat) s = .next (endedOk s [(matrixOf mat.length mat).det])) ∧
    (mat ≠ [] → Square mat → inIntRange (matrixOf mat.length mat).det = false →
      exec (.det mat) s = .next (endedRefused s .resultOverflow))

/-- R125: DET by the function of R124, its encoding and capacity included. -/
def Obligations.DetRunsTheDeterminantFunction : Prop :=
  ∀ (mat : Mat) (s : State),
    RunsAs 0x22 (.det mat) ∧ WideFirst 0x22 ∧
    (mat = [] → exec (.det mat) s = .next (endedRefused s .unspecified)) ∧
    (∀ kind, mat ≠ [] → determinant mat = .error kind →
      kind = .invalidMatrixSize ∧ exec (.det mat) s = .next (endedError s .invalidMatrixSize)) ∧
    (∀ d, mat ≠ [] → determinant mat = .ok d → inIntRange d = true → exec (.det mat) s = .next (endedOk s [d])) ∧
    (∀ d, mat ≠ [] → determinant mat = .ok d → inIntRange d = false →
      exec (.det mat) s = .next (endedRefused s .resultOverflow))

/-- The bound the spec derives for a determinant, and what it implies: DET and INVQ do not overflow on matrices of Symbols of
size 9 or less. -/
def Obligations.DeterminantIsBounded : Prop :=
  (∀ (mat : Mat) (bound : Nat), Square mat → (∀ row ∈ mat, ∀ v ∈ row, |v| ≤ (bound : Int)) →
    ∀ d, determinant mat = .ok d → |d| ≤ ((mat.length.factorial * bound ^ mat.length : Nat) : Int)) ∧
  (∀ (mat : Mat) (s : State), mat ≠ [] → Square mat → mat.length ≤ 9 →
    (∀ row ∈ mat, ∀ v ∈ row, 0 ≤ v ∧ v ≤ 25) →
    (∃ d, determinant mat = .ok d ∧ exec (.det mat) s = .next (endedOk s [d])) ∧
    (exec (.invq mat) s = .next (endedNothingFound s) ∨ ∃ values, exec (.invq mat) s = .next (endedOk s values)))

/-- R127: MATVEC reduces every row's product sum into [0,25]; every row must be as long as the vector; the matrix need not be
square. -/
def Obligations.MatvecReducesEachRowSum : Prop :=
  ∀ (mat : Mat) (vec : Vec) (s : State),
    RunsAs 0x23 (.matvec mat vec) ∧ WideFirst 0x23 ∧
    (∀ (w : Word) (rest : List Word), matOk mat = true → 225 < w.toNat →
      EndsOverCapacity 0x23 (wordsOf (matItems mat) ++ w :: rest)) ∧
    (mat = [] → exec (.matvec mat vec) s = .next (endedRefused s .unspecified)) ∧
    (mat ≠ [] → (∃ row ∈ mat, row.length ≠ vec.length) →
      exec (.matvec mat vec) s = .next (endedError s .invalidDimensions)) ∧
    (mat ≠ [] → matOk mat = true → (∀ row ∈ mat, row.length = vec.length) →
      exec (.matvec mat vec) s = .next (endedOk s ((mat.length : Int) ::
        (List.range mat.length).map fun i =>
          (∑ j ∈ Finset.range vec.length, entry mat i j * vec.getD j 0) % 26)))

/-- INVQ delivers the adjugate and the determinant (the library's; the spec gives the identity that makes them an inverse from
general knowledge), exactly or not at all; determinant 0 is nothing-found (R129). -/
def Obligations.InvqDeliversAdjugateAndDeterminant : Prop :=
  ∀ (mat : Mat) (s : State),
    RunsAs 0x24 (.invq mat) ∧ WideFirst 0x24 ∧
    (mat = [] → exec (.invq mat) s = .next (endedRefused s .unspecified)) ∧
    (mat ≠ [] → ¬Square mat → exec (.invq mat) s = .next (endedError s .invalidMatrixSize)) ∧
    (mat ≠ [] → Square mat → (matrixOf mat.length mat).det = 0 →
      exec (.invq mat) s = .next (endedNothingFound s)) ∧
    (∀ values : List Int,
      values = gridValues mat.length (valueAt (matrixOf mat.length mat).adjugate) ++ [(matrixOf mat.length mat).det] →
      mat ≠ [] → Square mat → (matrixOf mat.length mat).det ≠ 0 →
      (values.all inIntRange = true → exec (.invq mat) s = .next (endedOk s values)) ∧
      (values.all inIntRange = false → exec (.invq mat) s = .next (endedRefused s .resultOverflow)))

/-! ## Modular arithmetic -/

/-- R150, R151: MOD delivers the canonical representative in [0, m); m < 1 is refused. -/
def Obligations.ModDeliversCanonicalResidue : Prop :=
  ∀ (x m : Int) (s : State),
    RunsAs 0x30 (.mod x m) ∧
    (1 ≤ m → inIntRange m = true → ∃ r, exec (.mod x m) s = .next (endedOk s [r]) ∧
      r = x - m * ⌊(x : ℚ) / (m : ℚ)⌋ ∧ 0 ≤ r ∧ r ≤ m - 1 ∧ m ∣ x - r) ∧
    (m < 1 → exec (.mod x m) s = .next (endedRefused s .unspecified))

/-- R152, R153: GCD by Euclid's recursion delivers the greatest common divisor; a negative operand is refused. -/
def Obligations.GcdDeliversGreatestCommonDivisor : Prop :=
  (∀ a : Int, 0 ≤ a → gcdZ a 0 = a) ∧
  (∀ a b : Int, 0 ≤ a → 0 < b → gcdZ a b = gcdZ b (modZ a b)) ∧
  (∀ (a b : Int) (s : State),
    RunsAs 0x31 (.gcd a b) ∧
    (0 ≤ a → 0 ≤ b → (Instr.gcd a b).wellFormed = true →
      exec (.gcd a b) s = .next (endedOk s [(Int.gcd a b : Int)])) ∧
    (a < 0 ∨ b < 0 → exec (.gcd a b) s = .next (endedRefused s .unspecified)))

/-- EGCD delivers g, x, y with a·x + b·y = g = gcd(a, b), by the recursion of R154, within the bound that R155 gives from
general knowledge; a negative operand is refused. -/
def Obligations.EgcdDeliversBezoutCoefficients : Prop :=
  (∀ a : Int, 0 ≤ a → extendedGCD a 0 = (a, 1, 0)) ∧
  (∀ a b g x y : Int, 0 ≤ a → 0 < b → extendedGCD b (a % b) = (g, x, y) →
    extendedGCD a b = (g, y, x - (a / b) * y)) ∧
  (∀ (a b : Int) (s : State),
    RunsAs 0x32 (.egcd a b) ∧
    (0 ≤ a → 0 ≤ b → (Instr.egcd a b).wellFormed = true →
      ∃ g x y, extendedGCD a b = (g, x, y) ∧ exec (.egcd a b) s = .next (endedOk s [g, x, y]) ∧
        g = Int.gcd a b ∧ a * x + b * y = g ∧ |x| ≤ max (max a b) 1 ∧ |y| ≤ max (max a b) 1) ∧
    (a < 0 ∨ b < 0 → exec (.egcd a b) s = .next (endedRefused s .unspecified)))

/-- MODINV delivers the inverse mod m (R157), the property R156 derives: the one r in [0, m - 1] with a·r ≡ 1; no inverse is
nothing-found; a < 0 or m < 1 is refused. -/
def Obligations.ModinvDeliversTheInverse : Prop :=
  ∀ (a m : Int) (s : State),
    RunsAs 0x33 (.modinv a m) ∧
    (0 ≤ a → 1 ≤ m → inIntRange m = true → Int.gcd a m = 1 →
      ∃ r, exec (.modinv a m) s = .next (endedOk s [r]) ∧ 0 ≤ r ∧ r ≤ m - 1 ∧ (a * r) % m = 1 % m ∧
        r = (extendedGCD a m).2.1 % m) ∧
    (0 ≤ a → 1 ≤ m → Int.gcd a m ≠ 1 → exec (.modinv a m) s = .next (endedNothingFound s)) ∧
    (a < 0 ∨ m < 1 → exec (.modinv a m) s = .next (endedRefused s .unspecified))

/-- R158, R159: INVMOD by the six steps, with the refusals before the test for squareness. -/
def Obligations.InvmodFollowsTheSixSteps : Prop :=
  ∀ (mat : Mat) (modulus : Int) (s : State),
    RunsAs 0x34 (.invmod mat modulus) ∧ WideFirst 0x34 ∧
    (mat = [] ∨ modulus < 1 → exec (.invmod mat modulus) s = .next (endedRefused s .unspecified)) ∧
    (mat ≠ [] → 1 ≤ modulus → ¬Square mat →
      exec (.invmod mat modulus) s = .next (endedError s .invalidMatrixSize)) ∧
    (∀ det, mat ≠ [] → 1 ≤ modulus → determinant mat = .ok det → Int.gcd (det % modulus) modulus ≠ 1 →
      exec (.invmod mat modulus) s = .next (endedNothingFound s)) ∧
    (∀ (det : Int) (sub : Nat → Nat → Int), mat ≠ [] → 1 ≤ modulus → (Instr.invmod mat modulus).wellFormed = true →
      determinant mat = .ok det → Int.gcd (det % modulus) modulus = 1 →
      (∀ i < mat.length, ∀ j < mat.length, determinant (minorOf mat i j) = .ok (sub i j)) →
      ∃ invDet, modInverse (det % modulus) modulus = some invDet ∧
        exec (.invmod mat modulus) s = .next (endedOk s (gridValues mat.length fun i j =>
          (((-1) ^ (i + j) * sub j i) % modulus * invDet) % modulus)))

/-- What INVMOD's result is (R161, from general knowledge): the two-sided inverse over the integers mod `modulus`, delivered
exactly when there is one, which is when the determinant is coprime to the modulus. -/
def Obligations.InvmodInvertsTheMatrix : Prop :=
  ∀ (mat : Mat) (modulus : Int) (s : State), mat ≠ [] → Square mat → 1 ≤ modulus →
    (Instr.invmod mat modulus).wellFormed = true →
    (Int.gcd (matrixOf mat.length mat).det modulus ≠ 1 →
      exec (.invmod mat modulus) s = .next (endedNothingFound s) ∧
      ¬∃ f : Nat → Nat → Int, ∀ i < mat.length, ∀ k < mat.length,
        (∑ j ∈ Finset.range mat.length, entry mat i j * f j k) % modulus = (if i = k then 1 else 0) % modulus) ∧
    (Int.gcd (matrixOf mat.length mat).det modulus = 1 →
      ∃ f : Nat → Nat → Int, exec (.invmod mat modulus) s = .next (endedOk s (gridValues mat.length f)) ∧
        ∀ i < mat.length, ∀ k < mat.length,
          0 ≤ f i k ∧ f i k ≤ modulus - 1 ∧
          (∑ j ∈ Finset.range mat.length, entry mat i j * f j k) % modulus = (if i = k then 1 else 0) % modulus ∧
          (∑ j ∈ Finset.range mat.length, f i j * entry mat j k) % modulus = (if i = k then 1 else 0) % modulus)

/-- Step 3's failure branch cannot be taken (R160, which the spec derives). -/
def Obligations.StepThreeCannotFail : Prop :=
  ∀ det modulus : Int, 1 ≤ modulus → gcdZ (modZ det modulus) modulus = 1 →
    ∃ r, modInverse (modZ det modulus) modulus = some r ∧ 0 ≤ r ∧ r < modulus

/-! ## Key generator -/

/-- From R180: a turn on GENKEY: the tests on n, then a request while the candidate is short, then the test of a full candidate.
That a turn is one request or one test is the model's choice (log 9), and so is that the request is a level, high from the turn
that asks until the answer (log 7, deduced from R35 and R36). -/
def Obligations.GenkeyTestsDrawsAndReturns : Prop :=
  ∀ (n : Int) (s : State),
    RunsAs 0x40 (.genkey n) ∧
    (n ≤ 0 → exec (.genkey n) s = .next (endedError s .invalidKeyLength)) ∧
    (15 < n → exec (.genkey n) s = .next (endedRefused s .capacity)) ∧
    (1 ≤ n → n ≤ 15 → s.candidate.length < n.toNat * n.toNat →
      exec (.genkey n) s = .next { s with rngReq := true }) ∧
    (1 ≤ n → n ≤ 15 → s.candidate.length = n.toNat * n.toNat →
      Invertible26 (blockMatrix n.toNat s.candidate) →
      exec (.genkey n) s = .next (endedOk s (strItems (blockLetters s.candidate)))) ∧
    (1 ≤ n → n ≤ 15 → s.candidate.length = n.toNat * n.toNat →
      ¬Invertible26 (blockMatrix n.toNat s.candidate) →
      exec (.genkey n) s = .next { s with candidate := [] })

/-- One direction of the relation R183 derives: where the symbols form blocks of n², all but the last not invertible and the
last invertible, GENKEY completes with the last block's letters and has taken every symbol. The number of steps and the turns
between the answers are the model's grain (log 9). -/
def Obligations.GenkeyCompletesWithFirstInvertibleBlock : Prop :=
  ∀ (n : Nat) (s : State) (rejected : List (List Symbol)) (last : List Symbol) (later : List Event),
    GenkeyIssued n s →
    (∀ block ∈ rejected, block.length = n * n ∧ ¬Invertible26 (blockMatrix n block)) →
    last.length = n * n → Invertible26 (blockMatrix n last) →
    RunsTo ((rejected.length + 1) * (2 * (n * n) + 1))
      { s with script := (rejected ++ [last]).flatMap candidateEvents ++ later }
      (endedOk { s with script := later, symbolsTaken := s.symbolsTaken + (rejected.length + 1) * (n * n) }
        (strItems (blockLetters last)))

/-- The other direction (R183): a GENKEY that completes OK returns n² upper-case letters whose matrix is invertible mod 26. -/
def Obligations.GenkeyReturnsOnlyInvertibleKeys : Prop :=
  ∀ (n : Int) (s t : State), exec (.genkey n) s = .next t → s.status.state ≠ .done → t.status.state = .done →
    t.status.code = .ok → s.candidate.length ≤ n.toNat * n.toNat →
    1 ≤ n ∧ n ≤ 15 ∧ ∃ key : Str, key.length = n.toNat * n.toNat ∧ (∀ c ∈ key, IsUpper c) ∧
      t = endedOk s (strItems key) ∧ ∃ mat, stringToMatrix key = .ok mat ∧ Invertible26 mat

/-- From R184 and R252: GENKEY need not end. A source that stops answering leaves it BUSY for ever; so does a source that
answers every draw, for ever, and whose stream has no block that is invertible; with every draw answered it completes if and
only if the stream has one; `SRST` is the way out. The turns between the answers are the model's grain (log 9), the request
that stays high is log 7. -/
def Obligations.GenkeyNeedNotEnd : Prop :=
  (∀ (k : Nat) (n : Nat) (s : State), GenkeyIssued n s → s.script = [] → s.recurring = [] →
    RunsTo (k + 1) s { s with rngReq := true }) ∧
  (∀ (n : Nat) (s : State) (rejected : List (List Symbol)) (later : List Event), GenkeyIssued n s →
    (∀ block ∈ rejected, block.length = n * n ∧ ¬Invertible26 (blockMatrix n block)) →
    RunsTo (rejected.length * (2 * (n * n) + 1)) { s with script := rejected.flatMap candidateEvents ++ later }
      { s with script := later, symbolsTaken := s.symbolsTaken + rejected.length * (n * n) }) ∧
  (∀ (n : Nat) (s : State), GenkeyIssued n s → s.script = [] → s.recurring = [.rngTurn] →
    (∀ r, ¬Invertible26 (blockMatrix n (streamBlock n s r))) →
    (∀ r, RunsTo (r * (2 * (n * n) + 2)) s { s with symbolsTaken := s.symbolsTaken + r * (n * n) }) ∧
    ∀ k, ∃ t, RunsTo k s t ∧ t.status.state = .busy) ∧
  (∀ (n : Nat) (s : State), GenkeyIssued n s → s.script = [] → s.recurring = [.rngTurn] →
    ((∃ k t, RunsTo k s t ∧ t.status.state = .done) ↔ ∃ r, Invertible26 (blockMatrix n (streamBlock n s r)))) ∧
  (∀ s : State, ∃ t, after (.write 0x003 1) s = .next t ∧ t.status.state = .idle ∧ t.inFlight = none)

/-- From R36, R35: a draw is answered with the symbol delivered, in order, whether the event names it or it is the next one of
the stream (log 25); 26 to 31 are refused. That an answer nobody asked for is
refused is the model's choice (log 8), and that the request falls with the answer is deduced (log 7). -/
def Obligations.PortAnswersOneDrawEach : Prop :=
  ∀ (sym : BitVec 5) (s : State),
    (∀ h : sym.toNat < 26, s.rngReq = true →
      after (.rngAck sym) s = .next { s with
        rngReq := false
        candidate := s.candidate ++ [⟨sym.toNat, h⟩]
        symbolsTaken := s.symbolsTaken + 1 }) ∧
    (26 ≤ sym.toNat → s.rngReq = true → after (.rngAck sym) s = .refused (.sourceContract .notASymbol)) ∧
    (s.rngReq = false → after (.rngAck sym) s = .refused (.sourceContract .unrequested)) ∧
    (s.rngReq = true → after .rngTurn s = .next { s with
      rngReq := false
      candidate := s.candidate ++ [s.stream.symbolAt s.symbolsTaken]
      symbolsTaken := s.symbolsTaken + 1 }) ∧
    (s.rngReq = false → after .rngTurn s = .next s)

/-- From R181: a symbol is taken only for a GENKEY in flight with 1 ≤ n ≤ 15 whose candidate is not full, one at a time, and only
as the source's answer (its steps are log 9, the request's level log 7). -/
def Obligations.SymbolsAreTakenByGenkeyOnly : Prop :=
  ∀ s t : State, Inv s → step s = .next t →
    t.symbolsTaken = s.symbolsTaken ∨
    (t.symbolsTaken = s.symbolsTaken + 1 ∧ s.rngReq = true ∧ Drawing s ∧ t.inFlight = s.inFlight ∧
      ∃ (x : Symbol) (rest : List Event), t.candidate = s.candidate ++ [x] ∧
        ((∃ sym : BitVec 5, s.script = .rngAck sym :: rest ∧ sym.toNat = x.val) ∨
          (s.script = .rngTurn :: rest ∧ x = s.stream.symbolAt s.symbolsTaken)))

/-! ## Cipher engine -/

/-- R190: ENCODE multiplies the key matrix with the text vector mod 26; the length test comes first. -/
def Obligations.EncodeMultipliesByTheKey : Prop :=
  ∀ (text key : Str) (s : State),
    RunsAs 0x50 (.encode text key) ∧ LongFirst 0x50 ∧
    (∀ (w : Word) (rest : List Word), strOk text = true → 225 < w.toNat →
      EndsOverCapacity 0x50 (wordsOf (strItems text) ++ w :: rest)) ∧
    (text.length * text.length ≠ key.length →
      exec (.encode text key) s = .next (endedError s .invalidKeyLength)) ∧
    (text = [] → key = [] → exec (.encode text key) s = .next (endedRefused s .unspecified)) ∧
    (text ≠ [] → text.length * text.length = key.length → (∃ c ∈ key ++ text, ¬IsLetter c) →
      exec (.encode text key) s = .next (endedError s .invalidCharacter)) ∧
    (text ≠ [] → text.length * text.length = key.length → strOk text = true → (∀ c ∈ key ++ text, IsLetter c) →
      exec (.encode text key) s = .next (endedOk s ((text.length : Int) ::
        (List.range text.length).map fun i => 0x41 +
          (∑ j ∈ Finset.range text.length,
            letterValue (key.getD (i * text.length + j) 0) * letterValue (text.getD j 0)) % 26)))

/-- From R193: DECODE is ENCODE with the inverse key, serialized; the order of its tests is length, key characters,
invertibility, text characters. The last clause is the one formula the spec derives in R194. -/
def Obligations.DecodeEncodesWithTheInverseKey : Prop :=
  ∀ (text key : Str) (s : State),
    RunsAs 0x51 (.decode text key) ∧ LongFirst 0x51 ∧
    (∀ (w : Word) (rest : List Word), strOk text = true → 225 < w.toNat →
      EndsOverCapacity 0x51 (wordsOf (strItems text) ++ w :: rest)) ∧
    (text.length * text.length ≠ key.length →
      exec (.decode text key) s = .next (endedError s .invalidKeyLength)) ∧
    (text = [] → key = [] → exec (.decode text key) s = .next (endedRefused s .unspecified)) ∧
    (text ≠ [] → text.length * text.length = key.length → (∃ c ∈ key, ¬IsLetter c) →
      exec (.decode text key) s = .next (endedError s .invalidCharacter)) ∧
    (text ≠ [] → text.length * text.length = key.length → (∀ c ∈ key, IsLetter c) →
      ¬Invertible26 (keyMatrix text.length key) →
      exec (.decode text key) s = .next (endedError s .invalidKey)) ∧
    (text ≠ [] → text.length * text.length = key.length → (∀ c ∈ key, IsLetter c) →
      Invertible26 (keyMatrix text.length key) → (∃ c ∈ text, ¬IsLetter c) →
      exec (.decode text key) s = .next (endedError s .invalidCharacter)) ∧
    (∀ inverse : Mat, text ≠ [] → text.length * text.length = key.length → (∀ c ∈ key, IsLetter c) →
      inverseMatrixMod (keyMatrix text.length key) 26 = .ok (some inverse) →
      ∃ inverseKey, matrixToString inverse = .ok inverseKey ∧
        exec (.decode text key) s = exec (.encode text inverseKey) s) ∧
    (∀ inverse : Mat, text ≠ [] → text.length * text.length = key.length → strOk text = true →
      (∀ c ∈ key ++ text, IsLetter c) → inverseMatrixMod (keyMatrix text.length key) 26 = .ok (some inverse) →
      exec (.decode text key) s = .next (endedOk s ((text.length : Int) ::
        (List.range text.length).map fun i => 0x41 +
          (∑ j ∈ Finset.range text.length, entry inverse i j * letterValue (text.getD j 0)) % 26)))

/-- R196, the correctness invariant of the whole design: with a key invertible mod 26, DECODE of what ENCODE delivers is the
text (in upper case). -/
def Obligations.DecodeUndoesEncode : Prop :=
  ∀ text key : Str, text ≠ [] → text.length * text.length = key.length → strOk text = true → strOk key = true →
    (∀ c ∈ key ++ text, IsLetter c) → Invertible26 (keyMatrix text.length key) →
    ∃ cipher : Str, cipher.length = text.length ∧ (∀ c ∈ cipher, IsUpper c) ∧
      (∀ s : State, exec (.encode text key) s = .next (endedOk s (strItems cipher))) ∧
      (∀ s : State, exec (.decode cipher key) s = .next (endedOk s (strItems (text.map upperOf))))

/-- From R197: the source's scenario "HELLO" / "JGUAU" and its boundary, from every state. -/
def Obligations.SourceScenarioHolds : Prop :=
  ∀ s : State,
    exec (.encode [0x48, 0x45, 0x4C, 0x4C, 0x4F]
        [0x47, 0x59, 0x42, 0x43, 0x48, 0x4E, 0x51, 0x4B, 0x4E, 0x42, 0x55, 0x52, 0x50, 0x56, 0x4F, 0x53, 0x43, 0x58,
          0x50, 0x48, 0x4A, 0x45, 0x4C, 0x51, 0x56]) s =
      .next (endedOk s [5, 0x4A, 0x47, 0x55, 0x41, 0x55]) ∧
    exec (.decode [0x4A, 0x47, 0x55, 0x41, 0x55]
        [0x47, 0x59, 0x42, 0x43, 0x48, 0x4E, 0x51, 0x4B, 0x4E, 0x42, 0x55, 0x52, 0x50, 0x56, 0x4F, 0x53, 0x43, 0x58,
          0x50, 0x48, 0x4A, 0x45, 0x4C, 0x51, 0x56]) s =
      .next (endedOk s [5, 0x48, 0x45, 0x4C, 0x4C, 0x4F]) ∧
    (∀ text key : Str, text.length ^ 2 ≠ key.length →
      exec (.encode text key) s = .next (endedError s .invalidKeyLength) ∧
      exec (.decode text key) s = .next (endedError s .invalidKeyLength))

/-! ## Encoding -/

/-- Decoding an encoded well-formed instruction gives it back, with every operand, whatever words stand after its layout
(R79, R84). -/
def Obligations.DecodeOfEncodeIsIdentity : Prop :=
  ∀ (i : Instr) (rest : List Word), i.wellFormed = true →
    decode (encode i).1 ((encode i).2 ++ rest) = .command i rest

/-- Encoding what was decoded gives the words back: each pair of words means one instruction, and a well-formed one (R84). -/
def Obligations.EncodeOfDecodeIsIdentity : Prop :=
  ∀ (cmd : Word) (args rest : List Word) (i : Instr), decode cmd args = .command i rest →
    i.wellFormed = true ∧ cmd = (encode i).1 ∧ args = (encode i).2 ++ rest

/-- R82: a command word is illegal exactly when a bit of [63:8] is set or its low byte is none of the 19 opcodes; it is still
issued, over whatever ARG holds, and completes Refused/IllegalCommand. -/
def Obligations.EveryOtherWordIsIllegal : Prop :=
  ∀ (cmd : Word) (args : List Word),
    (decode cmd args = .illegal ↔ 256 ≤ cmd.toNat ∨ cmd.toNat % 256 ∉ opcodes) ∧
    (256 ≤ cmd.toNat ∨ cmd.toNat % 256 ∉ opcodes →
      (∀ s : State, s.status.state ≠ .busy → after (.write 0x000 cmd) s = .next { s with
        status := { state := .busy, code := .ok, reason := .none }
        res := []
        inFlight := some { cmd := cmd, operands := [] }
        rngReq := false
        candidate := []
        doneSeen := false }) ∧
      (∀ s : State, s.script = [] → s.inFlight = some { cmd := cmd, operands := args } →
        step s = .next (endedRefused (newRound s) .illegalCommand)))

/-- From R83, R74 to R77: an over-capacity verdict comes from one word over the bound of its place, with no word after it
looked at: any word over the bound stops the parse there, and none at most the bound does. The bound is 225 for the length of
a STR or VEC and 15 for the row count and the row lengths of a MAT. Such a command ends Refused/Capacity, and words all of
which are at most 15 are never malformed. -/
def Obligations.OnlyLengthWordsCanBeMalformed : Prop :=
  (∀ (cmd : Word) (args rest : List Word), decode cmd args = .overCapacity rest →
    EndsOverCapacity cmd args ∧
    ∃ (before : List Word) (w : Word) (bound : Nat), args = before ++ w :: rest ∧ bound < w.toNat ∧
      (∀ (v : Word) (later : List Word), bound < v.toNat → decode cmd (before ++ v :: later) = .overCapacity later) ∧
      (∀ (v : Word) (later : List Word), v.toNat ≤ bound → decode cmd (before ++ v :: later) ≠ .overCapacity later) ∧
      (cmd.toNat ∈ [0x12, 0x13, 0x14, 0x50, 0x51] → bound = 225) ∧
      (cmd.toNat ∈ [0x15, 0x20, 0x21, 0x22, 0x24, 0x34] → bound = 15) ∧
      (cmd.toNat = 0x23 → (bound = 15 ∨ bound = 225) ∧
        (bound = 225 ↔ ∃ mat : Mat, matOk mat = true ∧ before = wordsOf (matItems mat)))) ∧
  (∀ (cmd : Word) (args : List Word), (∀ w ∈ args, w.toNat ≤ 15) → ∀ rest, decode cmd args ≠ .overCapacity rest)

/-- R79 (the length bound is derived there): the words sampled are the front of ARG that the parse visits, at most 467, the
verdict rests on them alone, and with 467 written words no layout runs short. -/
def Obligations.SampleIsExactlyTheLayout : Prop :=
  ∀ (cmd : Word) (args : List Word),
    (467 ≤ args.length → ∃ operands, sampledWords cmd args = some operands) ∧
    (∀ operands, sampledWords cmd args = some operands →
      operands.length ≤ 467 ∧ (∃ rest, args = operands ++ rest) ∧
      (∀ later, sampledWords cmd (operands ++ later) = some operands) ∧
      (∀ i rest later, decode cmd args = .command i rest → decode cmd (operands ++ later) = .command i later) ∧
      (∀ rest later, decode cmd args = .overCapacity rest → decode cmd (operands ++ later) = .overCapacity later))

/-- Words written out from the opcode map and the formats of the spec decode to what they stand for (a sanity statement). -/
def Obligations.WrittenOutWordsDecode : Prop :=
  decode 0x0000000000000010 [0x68] = .command (.c2s 0x68) [] ∧
  decode 0x0000000000000021 [2, 2, 1, 2, 2, 3, 4, 0, 1] = .command (.minor [[1, 2], [3, 4]] 0 1) [] ∧
  decode 0x0000000000000030 [0xFFFFFFFFFFFFFFFF, 0x1A] = .command (.mod (-1) 26) [] ∧
  decode 0x0000000000000040 [2] = .command (.genkey 2) [] ∧
  decode 0x0000000000000050 [1, 0x68, 1, 0x64] = .command (.encode [0x68] [0x64]) [] ∧
  decode 0x0000000000000110 [0x41] = .illegal ∧
  decode 0x0000000000000022 [2, 2, 1, 2, 0x10] = .overCapacity []

/-! ## The machine -/

/-- A step runs the instruction in flight: with the events used up (the recurring ones then come again, log 24), or as the
engine's turn among them (then the event is taken). And a run that is over stays over, with nothing observed of it changed
(R254). -/
def Obligations.StepRunsTheCommandInFlight : Prop :=
  (∀ (s : State) (c : InFlight) (i : Instr) (rest : List Word), s.inFlight = some c →
    decode c.cmd c.operands = .command i rest →
    (s.script = [] → step s = exec i (newRound s)) ∧
    (∀ later, s.script = .engine :: later → step s = exec i { s with script := later })) ∧
  (∀ s t : State, Inv s → runOver s = true → step s = .next t → runOver t = true ∧ observe t = observe s)

/-- R21: a write to CMD in IDLE or DONE samples the command word and the layout's words (R60) and goes BUSY with the flags
clear, RES from then on without a value (R34; log 2); in BUSY it has no meaning, and over an unwritten word of the layout
(R33) neither; nor has a read of CMD. -/
def Obligations.CmdWriteSamplesAndGoesBusy : Prop :=
  ∀ (w : Word) (s : State),
    (∀ operands, s.status.state ≠ .busy → sampledWords w s.arg.words = some operands →
      after (.write 0x000 w) s = .next { s with
        status := { state := .busy, code := .ok, reason := .none }
        res := []
        inFlight := some { cmd := w, operands := operands }
        rngReq := false
        candidate := []
        doneSeen := false }) ∧
    (s.status.state ≠ .busy → sampledWords w s.arg.words = none →
      after (.write 0x000 w) s = refusedAs .issueOverUnwritten) ∧
    (s.status.state = .busy → after (.write 0x000 w) s = refusedAs .accessWhileBusy) ∧
    after (.read 0x000) s = refusedAs .readOfWriteOnly

/-- From R52: the table of permitted accesses, every row in every engine state. A read of RES in DONE returns its word,
as the table has it; where DONE has not been observed it also sets the model's refusal mark, for R248 (b) (log 26). -/
def Obligations.AccessTableHolds : Prop :=
  ∀ (s : State) (w : Word) (i : Nat), i < 512 →
    after (.read 0x001) s = .next (hasReadStatus s) ∧
    (w.toNat ≤ 1 → ∃ t, after (.write 0x003 w) s = .next t) ∧
    (s.status.state ≠ .busy → sampledWords w s.arg.words ≠ none →
      ∃ t, after (.write 0x000 w) s = .next t ∧ t.status.state = .busy) ∧
    (s.status.state = .busy →
      after (.write 0x000 w) s = refusedAs .accessWhileBusy ∧
      after (.write (0x200 + i) w) s = refusedAs .accessWhileBusy ∧
      after (.read (0x200 + i)) s = refusedAs .accessWhileBusy ∧
      after (.read 0x002) s = refusedAs .accessWhileBusy ∧
      after (.read (0x400 + i)) s = refusedAs .accessWhileBusy) ∧
    (s.status.state ≠ .busy →
      after (.write (0x200 + i) w) s = .next { s with arg := s.arg.write i w } ∧
      (∀ v, s.arg.read i = some v → after (.read (0x200 + i)) s = .next (hasRead s (0x200 + i) v)) ∧
      (s.arg.read i = none → after (.read (0x200 + i)) s = refusedAs .readOfUnwritten) ∧
      after (.read 0x002) s = .next (hasRead s 0x002 (BitVec.ofNat 64 s.resLen))) ∧
    (s.status.state = .idle → after (.read (0x400 + i)) s = refusedAs .readOfUnspecified) ∧
    (s.status.state = .idle → Inv s → after (.read 0x002) s = .next (hasRead s 0x002 0)) ∧
    (s.status.state = .done →
      (∀ v, i < s.resLen → s.res.read i = some v → after (.read (0x400 + i)) s = .next (hasReadResult s i v)) ∧
      (Inv s → i < s.resLen → ∃ v, s.res.read i = some v) ∧
      (s.resLen ≤ i → after (.read (0x400 + i)) s = refusedAs .readOfUnspecified)) ∧
    after (.write 0x001 w) s = refusedAs .writeToReadOnly ∧
    after (.write 0x002 w) s = refusedAs .writeToReadOnly ∧
    after (.write (0x400 + i) w) s = refusedAs .writeToReadOnly ∧
    after (.read 0x000) s = refusedAs .readOfWriteOnly ∧
    after (.read 0x003) s = refusedAs .readOfWriteOnly ∧
    (∀ off, 0x004 ≤ off → off < 0x200 →
      after (.read off) s = refusedAs .reservedOffset ∧ after (.write off w) s = refusedAs .reservedOffset) ∧
    (∀ off, 0x600 ≤ off →
      after (.read off) s = refusedAs .outsideWindow ∧ after (.write off w) s = refusedAs .outsideWindow)

/-- From R24: `CTRL` bit 0 puts the instance, from any state, into the reset state of R41; a write with no bit set does nothing; a
reserved bit has no meaning. What stays is the environment's (log 11). -/
def Obligations.SoftResetFromAnyState : Prop :=
  ∀ s : State,
    after (.write 0x003 1) s = .next { s with
      status := { state := .idle, code := .ok, reason := .none }
      resLen := 0
      arg := []
      res := []
      inFlight := none
      rngReq := false
      candidate := []
      doneSeen := false } ∧
    after (.write 0x003 0) s = .next s ∧
    (∀ w : Word, 2 ≤ w.toNat → after (.write 0x003 w) s = refusedAs .ctrlReservedBits)

/-- R41, R240: the state after reset, and that the reset input and `SRST` give the same state from any state. -/
def Obligations.ResetStateIsTheSpecs : Prop :=
  State.reset.status.word = 0 ∧ State.reset.status.state = .idle ∧ State.reset.resLen = 0 ∧
  (∀ i, State.reset.arg.read i = none) ∧ (∀ i, State.reset.res.read i = none) ∧ State.reset.inFlight = none ∧
  State.reset.rngReq = false ∧
  (∀ s : State, after .hardReset s = after (.write 0x003 1) s ∧
    ∃ t, after .hardReset s = .next t ∧ t.status = State.reset.status ∧ t.resLen = State.reset.resLen ∧
      t.arg = State.reset.arg ∧ t.res = State.reset.res ∧ t.inFlight = State.reset.inFlight ∧
      t.rngReq = State.reset.rngReq ∧ t.symbolsTaken = s.symbolsTaken)

/-- R22: where the fields of STATUS stand in the word a read returns, that every other bit reads 0, that it is readable in
every state and never writable, and when CODE and REASON read 0. -/
def Obligations.StatusWordHasItsFields : Prop :=
  State.reset.status.word = 0 ∧
  (∀ (s : State) (w : Word),
    after (.read 0x001) s = .next (hasReadStatus s) ∧
    after (.write 0x001 w) s = refusedAs .writeToReadOnly ∧
    (Inv s → s.status.state ≠ .done → s.status.code = .ok ∧ s.status.reason = .none) ∧
    (Inv s → (s.status.code = .refused ↔ s.status.reason ≠ .none))) ∧
  ∀ st : Status,
    (st.word.extractLsb' 0 2).toNat = (match st.state with | .idle => 0 | .busy => 1 | .done => 2) ∧
    st.word.extractLsb' 2 2 = 0 ∧
    (st.word.extractLsb' 4 4).toNat = (match st.code with
      | .ok => 0 | .error .invalidCharacter => 1 | .error .outOfRange => 2 | .error .invalidMatrixSize => 3
      | .error .invalidKeyLength => 4 | .error .invalidDimensions => 5 | .error .invalidKey => 6
      | .nothingFound => 7 | .refused => 8) ∧
    (st.word.extractLsb' 8 8).toNat = (match st.reason with
      | .none => 0 | .some .illegalCommand => 1 | .some .capacity => 2 | .some .unspecified => 3
      | .some .resultOverflow => 4) ∧
    st.word.extractLsb' 16 48 = 0

/-- From R55: no read has a side effect: a step that reads changes nothing but what the host has seen, and the
refusal mark by a read that R248 (b) gives no meaning (log 26). -/
def Obligations.ReadsHaveNoSideEffect : Prop :=
  ∀ s t : State,
    (∀ off, after (.read off) s = .next t →
      ∃ w, t = { s with
          reads := s.reads ++ [.word off w], doneSeen := t.doneSeen, refusalMark := t.refusalMark } ∧
        (t.doneSeen ≠ s.doneSeen → off = 0x001 ∧ s.status.state = .done) ∧
        (t.refusalMark ≠ s.refusalMark → 0x400 ≤ off ∧ s.doneSeen = false)) ∧
    (∀ addr width, after (.readBytes addr width) s = .next t →
      ∃ bs, bs.length = 8 ∧ t = { s with
          reads := s.reads ++ [.bytes addr bs], doneSeen := t.doneSeen, refusalMark := t.refusalMark } ∧
        (t.doneSeen ≠ s.doneSeen → addr = 8 ∧ s.status.state = .done) ∧
        (t.refusalMark ≠ s.refusalMark → 0x2000 ≤ addr ∧ s.doneSeen = false))

/-- From R29, R33: a word written to ARG in IDLE or DONE reads back, is written for good, and leaves every other word as it was. -/
def Obligations.ArgKeepsWhatTheHostWrote : Prop :=
  ∀ (s : State) (i : Nat) (w : Word), i < 512 → s.status.state ≠ .busy →
    ∃ t, after (.write (0x200 + i) w) s = .next t ∧
      after (.read (0x200 + i)) t = .next (hasRead t (0x200 + i) w) ∧
      t.arg.read i = some w ∧ (∀ k, k ≠ i → t.arg.read k = s.arg.read k) ∧
      t = { s with arg := t.arg } ∧ (Memory.wf 512 s.arg = true → Memory.wf 512 t.arg = true)

/-- R32: after an OK completion the host, having read DONE (R244, R248 (b)), reads RES_LEN and exactly the result's words; after
any other completion RES_LEN reads 0 and no word of RES may be read. -/
def Obligations.ResultWordsAreReadable : Prop :=
  ∀ (s : State) (values : List Int), values.length ≤ 512 →
    (∀ t, t = hasReadStatus (endedOk s values) →
      after (.read 0x001) (endedOk s values) = .next t ∧
      after (.read 0x002) t = .next (hasRead t 0x002 (BitVec.ofNat 64 values.length)) ∧
      (∀ i v, values[i]? = some v → after (.read (0x400 + i)) t = .next (hasRead t (0x400 + i) (Word.ofValue v))) ∧
      (∀ i, values.length ≤ i → i < 512 → after (.read (0x400 + i)) t = refusedAs .readOfUnspecified)) ∧
    (∀ t, t = endedNothingFound s ∨ (∃ k, t = endedError s k) ∨ (∃ r, t = endedRefused s r) →
      after (.read 0x002) t = .next (hasRead t 0x002 0) ∧
      ∀ i < 512, after (.read (0x400 + i)) t = refusedAs .readOfUnspecified)

/-- From R27: the engine state changes only by reset, by an issue from IDLE or DONE, and by a completion from BUSY. -/
def Obligations.EngineStateTransitions : Prop :=
  ∀ s t : State, Inv s → step s = .next t → t.status.state ≠ s.status.state →
    (t.status = { state := .idle, code := .ok, reason := .none } ∧
      ∃ e rest, s.script = e :: rest ∧
        (e = .hardReset ∨ e = .write 0x003 1 ∨ ∃ bs, e = .writeBytes 24 bs ∧ wordOfBytes bs = 1)) ∨
    (s.status.state ≠ .busy ∧ t.status = { state := .busy, code := .ok, reason := .none } ∧
      ∃ e rest, s.script = e :: rest ∧ ((∃ w, e = .write 0x000 w) ∨ ∃ bs, e = .writeBytes 0 bs)) ∨
    (s.status.state = .busy ∧ t.status.state = .done ∧
      (s.script = [] ∨ ∃ rest, s.script = .engine :: rest))

/-- R31: the engine never writes ARG: a step that is no host write to ARG and no reset leaves every word of it, written or
unwritten, as it was. -/
def Obligations.EngineNeverWritesArg : Prop :=
  ∀ s t : State, step s = .next t →
    (s.script = [] ∨ ∃ e rest, s.script = e :: rest ∧
      (e = .engine ∨ (∃ off, e = .read off) ∨ (∃ addr width, e = .readBytes addr width) ∨
        (∃ sym, e = .rngAck sym) ∨ e = .rngTurn ∨ (∃ w, e = .write 0x000 w))) →
    t.arg = s.arg ∧ ∀ i, t.arg.read i = s.arg.read i

/-- The frame of all 19 commands (R222: nothing else changes): ARG, the events to come, the host's reads and the symbols taken
are unchanged; a completion leaves no command in flight and no word of RES beyond RES_LEN with a value; GENKEY's other turns
change only the request signal or the candidate (log 9, log 7). -/
def Obligations.CommandsChangeOnlyTheirOutcome : Prop :=
  ∀ (i : Instr) (s t : State), exec i s = .next t →
    t.arg = s.arg ∧ (∀ k, t.arg.read k = s.arg.read k) ∧ t.script = s.script ∧ t.recurring = s.recurring ∧
    t.stream = s.stream ∧ t.reads = s.reads ∧ t.doneSeen = s.doneSeen ∧ t.symbolsTaken = s.symbolsTaken ∧
    ((t.inFlight = none ∧ t.status.state = .done ∧ t.rngReq = false ∧ t.candidate = [] ∧
        (∀ k, t.resLen ≤ k → t.res.read k = none) ∧ (∀ k < t.resLen, t.res.read k ≠ none) ∧
        t.refusalMark = (s.refusalMark || decide (t.status.code = .refused))) ∨
      (∃ n, i = .genkey n ∧ (t = { s with rngReq := true } ∨ t = { s with candidate := [] })))

/-- The outcome-by-command table, which the spec derives (R215): a command ends with no outcome but those its row allows. -/
def Obligations.CommandsEndAsTheTableSays : Prop :=
  ∀ (i : Instr) (s t : State), i.wellFormed = true → s.candidate.length ≤ 225 → exec i s = .next t →
    (t.status.state = .done ∧ (t.status.code, t.status.reason) ∈ possibleEnds i) ∨
    (∃ n, i = .genkey n ∧ t.status = s.status ∧ t.inFlight = s.inFlight)

/-- The invariant holds right after reset. -/
def Obligations.ResetMeetsTheInvariant : Prop := Inv State.reset

/-- Every step keeps the invariant: buffers in canonical form, flags clear outside DONE, a command in flight exactly in BUSY,
RES holding exactly RES_LEN words in DONE and none elsewhere, the port used by GENKEY only. -/
def Obligations.StepKeepsTheInvariant : Prop := ∀ s t : State, Inv s → step s = .next t → Inv t

/-- Statelessness, which the spec derives (R40): two issues with equal command word and equal designated operand words, GENKEY
excepted, end with equal outcomes and results, whatever else the two states hold. -/
def Obligations.OutcomeRestsOnSampledWordsOnly : Prop :=
  ∀ (w : Word) (operands : List Word) (s₁ s₂ : State), s₁.status.state ≠ .busy → s₂.status.state ≠ .busy →
    sampledWords w s₁.arg.words = some operands → sampledWords w s₂.arg.words = some operands →
    (∀ n rest, decode w operands ≠ .command (.genkey n) rest) →
    ∃ t₁ t₂, RunsTo 2 { s₁ with script := [.write 0x000 w, .engine] } t₁ ∧
      RunsTo 2 { s₂ with script := [.write 0x000 w, .engine] } t₂ ∧
      t₁.status.state = .done ∧ t₁.status = t₂.status ∧ t₁.resLen = t₂.resLen ∧ t₁.res = t₂.res

/-- The command sequence of R244 does what the command's rule says: a host that writes a well-formed command's operand words to
ARG and issues it ends, after the engine's turn, with exactly what the command's meaning gives, ARG holding its operands and
otherwise unchanged; and a host that then reads STATUS has observed that one completion (R254). -/
def Obligations.HostSequenceRunsTheCommand : Prop :=
  ∀ (i : Instr) (s : State), i.wellFormed = true → (∀ n, i ≠ .genkey n) → s.status.state ≠ .busy →
    Memory.wf 512 s.arg = true → s.script = [] →
    ∃ t u, exec i s = .next t ∧
      RunsTo (i.operandWords.length + 2) { s with script := issueEvents i ++ [.engine] } u ∧
      u = { t with arg := u.arg, doneSeen := false } ∧
      observed (i.operandWords.length + 3) { s with script := issueEvents i ++ [.engine, .read 0x001] } = [observe u] ∧
      (∀ k w, i.operandWords[k]? = some w → u.arg.read k = some w) ∧
      (∀ k, i.operandWords.length ≤ k → u.arg.read k = s.arg.read k)

/-- Progress (R252, which the spec derives): however many times the host polls STATUS, a command in flight other than GENKEY
then completes, whatever events recur after that; and where the host makes no further access the run is over (R254). -/
def Obligations.CommandsCompleteAfterAnyPolling : Prop :=
  ∀ (s : State) (c : InFlight) (polls : Nat), Inv s → s.inFlight = some c →
    (∀ n rest, fetch c ≠ .command (.genkey n) rest) → s.script = List.replicate polls (.read 0x001) →
    ∃ t, RunsTo (polls + 1) s t ∧ t.status.state = .done ∧
      (s.recurring.all (fun e => !isHostEvent e) = true → FinishesIn (polls + 1) s t) ∧
      t.reads = s.reads ++ List.replicate polls (.word 0x001 s.status.word)

/-- R53, R54: on a byte-addressed bus word offset k is byte offsets 8k to 8k+7, least significant byte first; any other width
or alignment has no meaning. -/
def Obligations.ByteMappedWindowIsLittleEndian : Prop :=
  (∀ (s : State) (k : Nat) (w : Word),
    after (.writeBytes (8 * k) [w.extractLsb' 0 8, w.extractLsb' 8 8, w.extractLsb' 16 8, w.extractLsb' 24 8,
      w.extractLsb' 32 8, w.extractLsb' 40 8, w.extractLsb' 48 8, w.extractLsb' 56 8]) s = after (.write k w) s ∧
    (∀ t, after (.read k) s = .next t → t.reads = s.reads ++ [.word k w] →
      after (.readBytes (8 * k) 8) s = .next { t with reads := s.reads ++ [.bytes (8 * k)
        [w.extractLsb' 0 8, w.extractLsb' 8 8, w.extractLsb' 16 8, w.extractLsb' 24 8,
          w.extractLsb' 32 8, w.extractLsb' 40 8, w.extractLsb' 48 8, w.extractLsb' 56 8]] })) ∧
  (∀ (s : State) (addr : Nat) (bs : List Byte), addr % 8 ≠ 0 ∨ bs.length ≠ 8 →
    after (.writeBytes addr bs) s = refusedAs .notOneWord ∧
    after (.readBytes addr bs.length) s = refusedAs .notOneWord)

/-- The refusal mark is set by every completion with the outcome Refused (R218), by every read of RES before DONE has been
observed (R248 (b), R57) and by nothing else, and is never cleared. That these two set one mark is the model's form (log 4,
log 26). -/
def Obligations.RefusalMarkIsSticky : Prop :=
  ∀ s t : State, step s = .next t →
    (s.refusalMark = true → t.refusalMark = true) ∧
    (s.refusalMark = false → t.refusalMark = true →
      (t.status.state = .done ∧ t.status.code = .refused) ∨ (s.doneSeen = false ∧ ∃ off, ReadsResultAt s off)) ∧
    (s.status.state ≠ .done → t.status.state = .done → t.status.code = .refused → t.refusalMark = true) ∧
    (∀ off, ReadsResultAt s off → s.doneSeen = false → t.refusalMark = true)

/-- From R61: once DONE, the outcome and the result stay as they are for as long as the engine is in DONE, that is, until an
issue or a reset, whatever else the host does. -/
def Obligations.ResultStaysUntilIssueOrReset : Prop :=
  ∀ s t : State, Inv s → step s = .next t → s.status.state = .done →
    (t.status = s.status ∧ t.resLen = s.resLen ∧ t.res = s.res ∧ (s.doneSeen = true → t.doneSeen = true)) ∨
    ∃ e rest, s.script = e :: rest ∧
      (e = .hardReset ∨ (∃ w, e = .write 0x000 w) ∨ (∃ bs, e = .writeBytes 0 bs) ∨ e = .write 0x003 1 ∨
        ∃ bs, e = .writeBytes 24 bs ∧ wordOfBytes bs = 1)

/-- From R221: `SRST` against a turn of the engine on the command in flight: in both orders the instance ends in the reset
state, the outcome lost. -/
def Obligations.SoftResetWinsTheRace : Prop :=
  ∀ s : State, Inv s → s.status.state = .busy →
    ∀ events, events = [.write 0x003 1, .engine] ∨ events = [.engine, .write 0x003 1] →
      ∃ t, RunsTo 2 { s with script := events } t ∧ t.status = { state := .idle, code := .ok, reason := .none } ∧
        t.resLen = 0 ∧ (∀ i, t.arg.read i = none) ∧ (∀ i, t.res.read i = none) ∧ t.inFlight = none ∧
        t.rngReq = false ∧ t.symbolsTaken = s.symbolsTaken
end

