-- ==== Sys2Proof/Laws/Arith.lean ====
section
/-! SUPPORT. One specification lemma for each function of Machine/Arith.lean that the rules use. -/

namespace Sys2Proof.Machine

/-- The canonical residue is Lean's integer remainder for a positive modulus (R150). -/
theorem modZ_eq_emod (x : Int) {m : Int} (hm : 1 ≤ m) : modZ x m = x % m := by
  have h : x.fdiv m = x / m := Int.fdiv_eq_ediv_of_nonneg x (by omega)
  rw [modZ, h, Int.emod_def]

theorem modZ_nonneg (x : Int) {m : Int} (hm : 1 ≤ m) : 0 ≤ modZ x m := by
  rw [modZ_eq_emod x hm]
  exact Int.emod_nonneg x (by omega)

theorem modZ_lt (x : Int) {m : Int} (hm : 1 ≤ m) : modZ x m < m := by
  rw [modZ_eq_emod x hm]
  exact Int.emod_lt_of_pos x (by omega)

theorem isqrtBelow_spec (bound k : Nat) (hk : k < (bound + 1) * (bound + 1)) :
    isqrtBelow bound k * isqrtBelow bound k ≤ k ∧
      k < (isqrtBelow bound k + 1) * (isqrtBelow bound k + 1) := by
  induction bound with
  | zero => simpa [isqrtBelow] using hk
  | succ n ih =>
    by_cases h : (n + 1) * (n + 1) ≤ k
    · simp only [isqrtBelow, h, if_true]
      exact ⟨trivial, hk⟩
    · simp only [isqrtBelow, h, if_false]
      exact ih (by omega)

/-- `isqrt(k)` is the largest s with s·s ≤ k (R12). -/
theorem isqrt_spec (k : Nat) : isqrt k * isqrt k ≤ k ∧ k < (isqrt k + 1) * (isqrt k + 1) :=
  isqrtBelow_spec k k (by nlinarith)

/-- The side of a perfect square is found. -/
theorem isqrt_square (n : Nat) : isqrt (n * n) = n := by
  obtain ⟨h1, h2⟩ := isqrt_spec (n * n)
  have a : isqrt (n * n) ≤ n := by by_contra h; nlinarith
  have b : n ≤ isqrt (n * n) := by by_contra h; nlinarith
  omega

/-- Where no element raises, element-wise application is map. -/
theorem mapRaising_ok {α β : Type} {f : α → Except ErrorKind β} {g : α → β} {l : List α}
    (h : ∀ a ∈ l, f a = .ok (g a)) : mapRaising f l = .ok (l.map g) := by
  induction l with
  | nil => rfl
  | cons a rest ih =>
    simp [mapRaising, h a (by simp), ih fun b hb => h b (by simp [hb])]

/-- Where every raising element raises k, some element that raises makes the whole raise k (R213: no payload). -/
theorem mapRaising_error {α β : Type} {f : α → Except ErrorKind β} {k : ErrorKind} {l : List α}
    (hk : ∀ a ∈ l, ∀ k', f a = .error k' → k' = k) (h : ∃ a ∈ l, ∃ k', f a = .error k') :
    mapRaising f l = .error k := by
  induction l with
  | nil => simp at h
  | cons a rest ih =>
    cases hf : f a with
    | error k' => simp [mapRaising, hf, hk a (by simp) k' hf]
    | ok b =>
      have h' : ∃ c ∈ rest, ∃ k', f c = .error k' := by
        obtain ⟨c, hc, k', hk'⟩ := h
        rcases List.mem_cons.mp hc with rfl | hc
        · simp [hf] at hk'
        · exact ⟨c, hc, k', hk'⟩
      simp [mapRaising, hf, ih (fun c hc => hk c (by simp [hc])) h']

theorem charToSymbol_error {c : Nat} {k : ErrorKind} (h : charToSymbol c = .error k) : k = .invalidCharacter := by
  unfold charToSymbol at h
  split at h
  · cases h
  · split at h <;> cases h
    rfl

theorem symbolToChar_error {v : Int} {k : ErrorKind} (h : symbolToChar v = .error k) : k = .outOfRange := by
  unfold symbolToChar at h
  split at h <;> cases h
  rfl

end Sys2Proof.Machine
end

