-- ==== Sys2Proof/Laws/Memory.lean ====
section
/-! SUPPORT. The laws of the word buffers: read after write, and the canonical form kept by every operation. -/

namespace Sys2Proof.Machine

theorem Memory.read_write_same (m : Memory) (i : Nat) (w : Word) : (m.write i w).read i = some w := by
  induction m with
  | nil => simp [Memory.write, Memory.read]
  | cons c rest ih =>
    obtain ⟨j, v⟩ := c
    by_cases h : i < j
    · simp [Memory.write, Memory.read, h]
    · by_cases h' : i = j
      · simp [Memory.write, Memory.read, h']
      · simp [Memory.write, Memory.read, h, h', ih, Ne.symm h']

theorem Memory.read_write_other (m : Memory) (i k : Nat) (w : Word) (hk : k ≠ i) :
    (m.write i w).read k = m.read k := by
  induction m with
  | nil => simp [Memory.write, Memory.read, hk.symm]
  | cons c rest ih =>
    obtain ⟨j, v⟩ := c
    by_cases h : i < j
    · simp [Memory.write, Memory.read, h, hk.symm]
    · by_cases h' : i = j
      · subst h'
        simp [Memory.write, Memory.read, hk.symm]
      · simp [Memory.write, Memory.read, h, h', ih]

theorem Memory.risingFrom_mono {m : Memory} {least least' bound : Nat} (hl : least' ≤ least)
    (h : m.risingFrom least bound = true) : m.risingFrom least' bound = true := by
  cases m with
  | nil => rfl
  | cons c rest =>
    obtain ⟨j, v⟩ := c
    simp only [Memory.risingFrom, Bool.and_eq_true, decide_eq_true_eq] at h ⊢
    exact ⟨⟨by omega, h.1.2⟩, h.2⟩

theorem Memory.risingFrom_write {m : Memory} {least bound i : Nat} (w : Word) (h : m.risingFrom least bound = true)
    (hl : least ≤ i) (hi : i < bound) : (m.write i w).risingFrom least bound = true := by
  induction m generalizing least with
  | nil => simp [Memory.write, Memory.risingFrom, hl, hi]
  | cons c rest ih =>
    obtain ⟨j, v⟩ := c
    simp only [Memory.risingFrom, Bool.and_eq_true, decide_eq_true_eq] at h
    obtain ⟨⟨hj, hjb⟩, hr⟩ := h
    by_cases h1 : i < j
    · simp only [Memory.write, h1, if_true, Memory.risingFrom, Bool.and_eq_true, decide_eq_true_eq]
      exact ⟨⟨hl, hi⟩, ⟨⟨by omega, hjb⟩, hr⟩⟩
    · by_cases h2 : i = j
      · subst h2
        simp only [Memory.write, h1, if_true, if_false, Memory.risingFrom, Bool.and_eq_true, decide_eq_true_eq]
        exact ⟨⟨hl, hi⟩, hr⟩
      · simp only [Memory.write, h1, h2, if_false, Memory.risingFrom, Bool.and_eq_true, decide_eq_true_eq]
        exact ⟨⟨hj, hjb⟩, ih hr (by omega)⟩

/-- Writing one word keeps the canonical form. -/
theorem Memory.wf_write {m : Memory} {bound i : Nat} (w : Word) (h : m.wf bound = true) (hi : i < bound) :
    (m.write i w).wf bound = true :=
  Memory.risingFrom_write w h (Nat.zero_le i) hi

theorem Memory.wf_nil (bound : Nat) : Memory.wf bound [] = true := rfl

theorem Memory.risingFrom_ofWordsFrom (ws : List Word) (k bound : Nat) (h : k + ws.length ≤ bound) :
    (Memory.ofWordsFrom k ws).risingFrom k bound = true := by
  induction ws generalizing k with
  | nil => rfl
  | cons w rest ih =>
    simp only [List.length_cons] at h
    simp only [Memory.ofWordsFrom, Memory.risingFrom, Bool.and_eq_true, decide_eq_true_eq]
    exact ⟨⟨le_refl k, by omega⟩, ih (k + 1) (by omega)⟩

/-- A result that fits the buffer is laid out in canonical form. -/
theorem Memory.wf_ofWords {ws : List Word} {bound : Nat} (h : ws.length ≤ bound) :
    (Memory.ofWords ws).wf bound = true :=
  Memory.risingFrom_ofWordsFrom ws 0 bound (by omega)

theorem Memory.read_ofWordsFrom (ws : List Word) (k i : Nat) :
    (Memory.ofWordsFrom k ws).read i = if k ≤ i then ws[i - k]? else none := by
  induction ws generalizing k with
  | nil => simp [Memory.ofWordsFrom, Memory.read]
  | cons w rest ih =>
    simp only [Memory.ofWordsFrom, Memory.read, ih]
    by_cases h : k = i
    · subst h; simp
    · by_cases h' : k ≤ i
      · have h1 : k + 1 ≤ i := by omega
        have h2 : i - k = (i - (k + 1)) + 1 := by omega
        simp [h, h', h1, h2]
      · have h1 : ¬k + 1 ≤ i := by omega
        simp [h, h', h1]

/-- Word i of a laid-out result is its i-th word, and the words beyond it have no value. -/
theorem Memory.read_ofWords (ws : List Word) (i : Nat) : (Memory.ofWords ws).read i = ws[i]? := by
  simp [Memory.ofWords, Memory.read_ofWordsFrom]

theorem Memory.words_ofWordsFrom (ws : List Word) (k : Nat) :
    Memory.wordsFrom k (Memory.ofWordsFrom k ws) = ws := by
  induction ws generalizing k with
  | nil => rfl
  | cons w rest ih => simp [Memory.ofWordsFrom, Memory.wordsFrom, ih]

/-- The words a parse can visit in a buffer laid out from index 0 are exactly those laid out. -/
theorem Memory.words_ofWords (ws : List Word) : (Memory.ofWords ws).words = ws :=
  Memory.words_ofWordsFrom ws 0

end Sys2Proof.Machine
end

