-- ==== Sys2Proof/Laws/Operands.lean ====
section
/-! SUPPORT. Reading back each operand format from the words it is laid out in (R72 to R77), whatever stands after it. -/

namespace Sys2Proof.Machine

theorem wordsOf_append (a b : List Int) : wordsOf (a ++ b) = wordsOf a ++ wordsOf b := by simp [wordsOf]

theorem Parser.andThen_ok {α β : Type} {p : Parser α} {f : α → Parser β} {ws rest : List Word} {a : α}
    (h : p ws = .ok a rest) : p.andThen f ws = f a rest := by simp [Parser.andThen, h]

theorem Parser.pair_ok {α β : Type} {p : Parser α} {q : Parser β} {ws mid rest : List Word} {a : α} {b : β}
    (hp : p ws = .ok a mid) (hq : q mid = .ok b rest) : p.pair q ws = .ok (a, b) rest := by
  simp [Parser.pair, Parser.andThen, Parser.give, hp, hq]

theorem int_ofValue {v : Int} (h : inIntRange v = true) : (Word.ofValue v).int = v := by
  simp only [inIntRange, decide_eq_true_eq] at h
  simp only [Word.int, Word.ofValue, Config.xlen, BitVec.toInt_ofInt]
  exact Int.bmod_eq_of_le (by omega) (by omega)

theorem uns_ofValue {c : Nat} (h : c < 18446744073709551616) : (Word.ofValue (c : Int)).uns = c := by
  simp only [Word.uns, Word.ofValue, Config.xlen, BitVec.toNat_ofInt]
  omega

theorem parseInt_items {v : Int} (h : inIntRange v = true) (rest : List Word) :
    parseInt (wordsOf (intItems v) ++ rest) = .ok v rest := by
  show Parsed.ok (Word.ofValue v).int rest = .ok v rest
  rw [int_ofValue h]

theorem parseChar_items {c : Nat} (h : charOk c = true) (rest : List Word) :
    parseChar (wordsOf (charItems c) ++ rest) = .ok c rest := by
  simp only [charOk, decide_eq_true_eq] at h
  show Parsed.ok (Word.ofValue (c : Int)).uns rest = .ok c rest
  rw [uns_ofValue h]

/-- A length within its bound is read as it is. -/
theorem parseLength_within {k bound : Nat} (hk : k ≤ bound) (hb : bound < 18446744073709551616) (rest : List Word) :
    parseLength bound (Word.ofValue (k : Int) :: rest) = .ok k rest := by
  simp only [parseLength, parseWord, Parser.andThen]
  rw [uns_ofValue (by omega), if_neg (by omega)]

/-- A length over its bound stops the parse before any later word is looked at (R79). -/
theorem parseLength_over {w : Word} {bound : Nat} (h : bound < w.uns) (rest : List Word) :
    parseLength bound (w :: rest) = .overCapacity rest := by
  simp [parseLength, parseWord, Parser.andThen, h]

theorem parseMany_items {α : Type} {p : Parser α} {layout : α → List Word} (items : List α)
    (h : ∀ a ∈ items, ∀ rest, p (layout a ++ rest) = .ok a rest) (rest : List Word) :
    parseMany p items.length (items.flatMap layout ++ rest) = .ok items rest := by
  induction items generalizing rest with
  | nil => rfl
  | cons a as ih =>
    have ha := h a (by simp) (as.flatMap layout ++ rest)
    have has := ih (fun b hb => h b (by simp [hb])) rest
    simp only [List.length_cons, List.flatMap_cons, List.append_assoc, parseMany]
    rw [Parser.andThen_ok ha, Parser.andThen_ok has]
    rfl

theorem parseMany_ints {v : List Int} (h : v.all inIntRange = true) (rest : List Word) :
    parseMany parseInt v.length (wordsOf v ++ rest) = .ok v rest := by
  have e : wordsOf v = v.flatMap fun x => wordsOf (intItems x) := by
    induction v with
    | nil => rfl
    | cons a as ih =>
      simp only [List.all_cons, Bool.and_eq_true] at h
      simpa [wordsOf, intItems] using ih h.2
  rw [e]
  exact parseMany_items v (fun a ha => parseInt_items (List.all_eq_true.mp h a ha)) rest

theorem parseMany_chars {str : Str} (h : str.all charOk = true) (rest : List Word) :
    parseMany parseChar str.length (wordsOf (str.map fun c => (c : Int)) ++ rest) = .ok str rest := by
  have e : wordsOf (str.map fun c => (c : Int)) = str.flatMap fun c => wordsOf (charItems c) := by
    induction str with
    | nil => rfl
    | cons a as ih =>
      simp only [List.all_cons, Bool.and_eq_true] at h
      simpa [wordsOf, charItems] using ih h.2
  rw [e]
  exact parseMany_items str (fun a ha => parseChar_items (List.all_eq_true.mp h a ha)) rest

theorem parseStr_items {str : Str} (h : strOk str = true) (rest : List Word) :
    parseStr (wordsOf (strItems str) ++ rest) = .ok str rest := by
  simp only [strOk, Bool.and_eq_true, decide_eq_true_eq] at h
  show parseStr (Word.ofValue (str.length : Int) :: (wordsOf (str.map fun c => (c : Int)) ++ rest)) = .ok str rest
  rw [parseStr, Parser.andThen_ok (parseLength_within h.1 (by decide) _), parseMany_chars h.2]

theorem parseVec_items {vec : Vec} (h : vecOk vec = true) (rest : List Word) :
    parseVec (wordsOf (vecItems vec) ++ rest) = .ok vec rest := by
  simp only [vecOk, Bool.and_eq_true, decide_eq_true_eq] at h
  show parseVec (Word.ofValue (vec.length : Int) :: (wordsOf vec ++ rest)) = .ok vec rest
  rw [parseVec, Parser.andThen_ok (parseLength_within h.1 (by decide) _), parseMany_ints h.2]

theorem parseRow_items {row : List Int} (h : rowOk row = true) (rest : List Word) :
    parseRow (wordsOf (vecItems row) ++ rest) = .ok row rest := by
  simp only [rowOk, Bool.and_eq_true, decide_eq_true_eq] at h
  show parseRow (Word.ofValue (row.length : Int) :: (wordsOf row ++ rest)) = .ok row rest
  rw [parseRow, Parser.andThen_ok (parseLength_within h.1 (by decide) _), parseMany_ints h.2]

theorem parseMany_rows {mat : Mat} (h : mat.all rowOk = true) (rest : List Word) :
    parseMany parseRow mat.length (wordsOf (mat.flatMap vecItems) ++ rest) = .ok mat rest := by
  have e : wordsOf (mat.flatMap vecItems) = mat.flatMap fun row => wordsOf (vecItems row) := by
    simp [wordsOf, List.map_flatMap]
  rw [e]
  exact parseMany_items mat (fun a ha => parseRow_items (List.all_eq_true.mp h a ha)) rest

theorem parseMat_items {mat : Mat} (h : matOk mat = true) (rest : List Word) :
    parseMat (wordsOf (matItems mat) ++ rest) = .ok mat rest := by
  simp only [matOk, Bool.and_eq_true, decide_eq_true_eq] at h
  show parseMat (Word.ofValue (mat.length : Int) :: (wordsOf (mat.flatMap vecItems) ++ rest)) = .ok mat rest
  rw [parseMat, Parser.andThen_ok (parseLength_within h.1 (by decide) _), parseMany_rows h.2]

theorem wordsOf_length (items : List Int) : (wordsOf items).length = items.length := by simp [wordsOf]

theorem strItems_length (str : Str) : (strItems str).length = 1 + str.length := by simp [strItems]; omega

theorem vecItems_length (vec : Vec) : (vecItems vec).length = 1 + vec.length := by simp [vecItems]; omega

/-- A MAT occupies at most 1 + 15·16 = 241 words (R77). -/
theorem matItems_length {mat : Mat} (h : matOk mat = true) : (matItems mat).length ≤ 241 := by
  simp only [matOk, Bool.and_eq_true, decide_eq_true_eq] at h
  have rows : ∀ m : Mat, m.all rowOk = true → (m.flatMap vecItems).length ≤ 16 * m.length := by
    intro m hm
    induction m with
    | nil => simp
    | cons row rest ih =>
      simp only [List.all_cons, Bool.and_eq_true, rowOk, decide_eq_true_eq] at hm
      have := ih (by simpa [rowOk] using hm.2)
      simp only [List.flatMap_cons, List.length_append, vecItems_length, List.length_cons]
      have := hm.1.1
      simp only [Config.nMax] at this
      omega
  have := rows mat h.2
  simp only [matItems, List.length_cons]
  have := h.1
  simp only [Config.nMax] at this
  omega

end Sys2Proof.Machine
end

