-- ==== Sys2Proof/Laws/PerInstr.lean ====
section
/-! SUPPORT. A statement about every instruction as syntax, one lemma for each constructor: its operand layout fits the operand
buffer, the longest being MATVEC's 241 + 226 = 467 words (R79). -/

namespace Sys2Proof.Laws.LayoutFits

open Sys2Proof.Machine

/-- The operand words of an encodable instruction are at most 467. -/
def Statement (i : Instr) : Prop := i.wellFormed = true → i.operandWords.length ≤ 467

theorem strWords {str : Str} (h : strOk str = true) : (strItems str).length ≤ 226 := by
  simp only [strOk, Bool.and_eq_true, decide_eq_true_eq] at h
  have := h.1
  simp only [Config.lMax, Config.nMax] at this
  rw [strItems_length]; omega

theorem vecWords {vec : Vec} (h : vecOk vec = true) : (vecItems vec).length ≤ 226 := by
  simp only [vecOk, Bool.and_eq_true, decide_eq_true_eq] at h
  have := h.1
  simp only [Config.lMax, Config.nMax] at this
  rw [vecItems_length]; omega

theorem ofStr {str : Str} (h : strOk str = true) : (wordsOf (strItems str)).length ≤ 467 := by
  have := strWords h
  rw [wordsOf_length]; omega

theorem ofMat {mat : Mat} (h : matOk mat = true) : (wordsOf (matItems mat)).length ≤ 467 := by
  have := matItems_length h
  rw [wordsOf_length]; omega

theorem ofPair {a b : List Int} (ha : a.length ≤ 241) (hb : b.length ≤ 226) : (wordsOf (a ++ b)).length ≤ 467 := by
  rw [wordsOf_length, List.length_append]; omega

theorem c2s (c : Nat) : Statement (.c2s c) := fun _ => by simp [Instr.operandWords, charItems, wordsOf]

theorem s2c (v : Int) : Statement (.s2c v) := fun _ => by simp [Instr.operandWords, intItems, wordsOf]

theorem str2vec (str : Str) : Statement (.str2vec str) := fun h => ofStr h

theorem vec2str (vec : Vec) : Statement (.vec2str vec) := fun h => by
  have := vecWords h
  simp only [Instr.operandWords, wordsOf_length]; omega

theorem str2mat (str : Str) : Statement (.str2mat str) := fun h => ofStr h

theorem mat2str (mat : Mat) : Statement (.mat2str mat) := fun h => ofMat h

theorem transp (mat : Mat) : Statement (.transp mat) := fun h => ofMat h

theorem minor (mat : Mat) (row col : Int) : Statement (.minor mat row col) := fun h => by
  simp only [Instr.wellFormed, Bool.and_eq_true] at h
  exact ofPair (matItems_length h.1.1) (by simp [intItems])

theorem det (mat : Mat) : Statement (.det mat) := fun h => ofMat h

theorem matvec (mat : Mat) (vec : Vec) : Statement (.matvec mat vec) := fun h => by
  simp only [Instr.wellFormed, Bool.and_eq_true] at h
  exact ofPair (matItems_length h.1) (vecWords h.2)

theorem invq (mat : Mat) : Statement (.invq mat) := fun h => ofMat h

theorem mod (x m : Int) : Statement (.mod x m) := fun _ => by simp [Instr.operandWords, intItems, wordsOf]

theorem gcd (a b : Int) : Statement (.gcd a b) := fun _ => by simp [Instr.operandWords, intItems, wordsOf]

theorem egcd (a b : Int) : Statement (.egcd a b) := fun _ => by simp [Instr.operandWords, intItems, wordsOf]

theorem modinv (a m : Int) : Statement (.modinv a m) := fun _ => by simp [Instr.operandWords, intItems, wordsOf]

theorem invmod (mat : Mat) (modulus : Int) : Statement (.invmod mat modulus) := fun h => by
  simp only [Instr.wellFormed, Bool.and_eq_true] at h
  exact ofPair (matItems_length h.1) (by simp [intItems])

theorem genkey (n : Int) : Statement (.genkey n) := fun _ => by simp [Instr.operandWords, intItems, wordsOf]

theorem encode (text key : Str) : Statement (.encode text key) := fun h => by
  simp only [Instr.wellFormed, Bool.and_eq_true] at h
  have := strWords h.1
  exact ofPair (by omega) (strWords h.2)

theorem decode (text key : Str) : Statement (.decode text key) := fun h => by
  simp only [Instr.wellFormed, Bool.and_eq_true] at h
  have := strWords h.1
  exact ofPair (by omega) (strWords h.2)

end Sys2Proof.Laws.LayoutFits
end

