-- ==== Sys2Proof/Laws/State.lean ====
section
/-! SUPPORT. For each named update of State, what each field is afterwards: the fields it writes and those it leaves. -/

namespace Sys2Proof.Machine

@[simp] theorem complete_status (c : Completion) (s : State) : (complete c s).status = c.status := rfl
@[simp] theorem complete_resLen (c : Completion) (s : State) : (complete c s).resLen = c.result.length := rfl
@[simp] theorem complete_arg (c : Completion) (s : State) : (complete c s).arg = s.arg := rfl
@[simp] theorem complete_res (c : Completion) (s : State) : (complete c s).res = Memory.ofWords c.result := rfl
@[simp] theorem complete_inFlight (c : Completion) (s : State) : (complete c s).inFlight = none := rfl
@[simp] theorem complete_rngReq (c : Completion) (s : State) : (complete c s).rngReq = false := rfl
@[simp] theorem complete_candidate (c : Completion) (s : State) : (complete c s).candidate = [] := rfl
@[simp] theorem complete_script (c : Completion) (s : State) : (complete c s).script = s.script := rfl
@[simp] theorem complete_reads (c : Completion) (s : State) : (complete c s).reads = s.reads := rfl
@[simp] theorem complete_symbolsTaken (c : Completion) (s : State) : (complete c s).symbolsTaken = s.symbolsTaken := rfl
@[simp] theorem complete_refusalMark (c : Completion) (s : State) : (complete c s).refusalMark = (s.refusalMark || c.isRefused) := rfl
@[simp] theorem complete_recurring (c : Completion) (s : State) : (complete c s).recurring = s.recurring := rfl
@[simp] theorem complete_stream (c : Completion) (s : State) : (complete c s).stream = s.stream := rfl
@[simp] theorem complete_doneSeen (c : Completion) (s : State) : (complete c s).doneSeen = s.doneSeen := rfl

@[simp] theorem accept_status (cmd : Word) (operands : List Word) (s : State) : (accept cmd operands s).status = Status.issued := rfl
@[simp] theorem accept_resLen (cmd : Word) (operands : List Word) (s : State) : (accept cmd operands s).resLen = s.resLen := rfl
@[simp] theorem accept_arg (cmd : Word) (operands : List Word) (s : State) : (accept cmd operands s).arg = s.arg := rfl
@[simp] theorem accept_res (cmd : Word) (operands : List Word) (s : State) : (accept cmd operands s).res = [] := rfl
@[simp] theorem accept_inFlight (cmd : Word) (operands : List Word) (s : State) : (accept cmd operands s).inFlight = some { cmd := cmd, operands := operands } := rfl
@[simp] theorem accept_rngReq (cmd : Word) (operands : List Word) (s : State) : (accept cmd operands s).rngReq = false := rfl
@[simp] theorem accept_candidate (cmd : Word) (operands : List Word) (s : State) : (accept cmd operands s).candidate = [] := rfl
@[simp] theorem accept_script (cmd : Word) (operands : List Word) (s : State) : (accept cmd operands s).script = s.script := rfl
@[simp] theorem accept_reads (cmd : Word) (operands : List Word) (s : State) : (accept cmd operands s).reads = s.reads := rfl
@[simp] theorem accept_symbolsTaken (cmd : Word) (operands : List Word) (s : State) : (accept cmd operands s).symbolsTaken = s.symbolsTaken := rfl
@[simp] theorem accept_refusalMark (cmd : Word) (operands : List Word) (s : State) : (accept cmd operands s).refusalMark = s.refusalMark := rfl
@[simp] theorem accept_recurring (cmd : Word) (operands : List Word) (s : State) : (accept cmd operands s).recurring = s.recurring := rfl
@[simp] theorem accept_stream (cmd : Word) (operands : List Word) (s : State) : (accept cmd operands s).stream = s.stream := rfl
@[simp] theorem accept_doneSeen (cmd : Word) (operands : List Word) (s : State) : (accept cmd operands s).doneSeen = false := rfl

@[simp] theorem resetEngine_status (s : State) : (resetEngine s).status = Status.reset := rfl
@[simp] theorem resetEngine_resLen (s : State) : (resetEngine s).resLen = 0 := rfl
@[simp] theorem resetEngine_arg (s : State) : (resetEngine s).arg = [] := rfl
@[simp] theorem resetEngine_res (s : State) : (resetEngine s).res = [] := rfl
@[simp] theorem resetEngine_inFlight (s : State) : (resetEngine s).inFlight = none := rfl
@[simp] theorem resetEngine_rngReq (s : State) : (resetEngine s).rngReq = false := rfl
@[simp] theorem resetEngine_candidate (s : State) : (resetEngine s).candidate = [] := rfl
@[simp] theorem resetEngine_script (s : State) : (resetEngine s).script = s.script := rfl
@[simp] theorem resetEngine_reads (s : State) : (resetEngine s).reads = s.reads := rfl
@[simp] theorem resetEngine_symbolsTaken (s : State) : (resetEngine s).symbolsTaken = s.symbolsTaken := rfl
@[simp] theorem resetEngine_refusalMark (s : State) : (resetEngine s).refusalMark = s.refusalMark := rfl
@[simp] theorem resetEngine_recurring (s : State) : (resetEngine s).recurring = s.recurring := rfl
@[simp] theorem resetEngine_stream (s : State) : (resetEngine s).stream = s.stream := rfl
@[simp] theorem resetEngine_doneSeen (s : State) : (resetEngine s).doneSeen = false := rfl

@[simp] theorem logRead_status (off : Nat) (r : HostRead) (s : State) : (logRead off r s).status = s.status := rfl
@[simp] theorem logRead_resLen (off : Nat) (r : HostRead) (s : State) : (logRead off r s).resLen = s.resLen := rfl
@[simp] theorem logRead_arg (off : Nat) (r : HostRead) (s : State) : (logRead off r s).arg = s.arg := rfl
@[simp] theorem logRead_res (off : Nat) (r : HostRead) (s : State) : (logRead off r s).res = s.res := rfl
@[simp] theorem logRead_inFlight (off : Nat) (r : HostRead) (s : State) : (logRead off r s).inFlight = s.inFlight := rfl
@[simp] theorem logRead_rngReq (off : Nat) (r : HostRead) (s : State) : (logRead off r s).rngReq = s.rngReq := rfl
@[simp] theorem logRead_candidate (off : Nat) (r : HostRead) (s : State) : (logRead off r s).candidate = s.candidate := rfl
@[simp] theorem logRead_script (off : Nat) (r : HostRead) (s : State) : (logRead off r s).script = s.script := rfl
@[simp] theorem logRead_reads (off : Nat) (r : HostRead) (s : State) : (logRead off r s).reads = s.reads ++ [r] := rfl
@[simp] theorem logRead_symbolsTaken (off : Nat) (r : HostRead) (s : State) : (logRead off r s).symbolsTaken = s.symbolsTaken := rfl
@[simp] theorem logRead_refusalMark (off : Nat) (r : HostRead) (s : State) : (logRead off r s).refusalMark =
    (s.refusalMark || (decide (Config.resOffset ≤ off) && !s.doneSeen)) := rfl
@[simp] theorem logRead_recurring (off : Nat) (r : HostRead) (s : State) : (logRead off r s).recurring = s.recurring := rfl
@[simp] theorem logRead_stream (off : Nat) (r : HostRead) (s : State) : (logRead off r s).stream = s.stream := rfl
@[simp] theorem logRead_doneSeen (off : Nat) (r : HostRead) (s : State) : (logRead off r s).doneSeen =
    (s.doneSeen || (decide (off = Config.statusOffset) && decide (s.status.state = .done))) := rfl

@[simp] theorem writeArg_status (i : Nat) (w : Word) (s : State) : (writeArg i w s).status = s.status := rfl
@[simp] theorem writeArg_resLen (i : Nat) (w : Word) (s : State) : (writeArg i w s).resLen = s.resLen := rfl
@[simp] theorem writeArg_arg (i : Nat) (w : Word) (s : State) : (writeArg i w s).arg = s.arg.write i w := rfl
@[simp] theorem writeArg_res (i : Nat) (w : Word) (s : State) : (writeArg i w s).res = s.res := rfl
@[simp] theorem writeArg_inFlight (i : Nat) (w : Word) (s : State) : (writeArg i w s).inFlight = s.inFlight := rfl
@[simp] theorem writeArg_rngReq (i : Nat) (w : Word) (s : State) : (writeArg i w s).rngReq = s.rngReq := rfl
@[simp] theorem writeArg_candidate (i : Nat) (w : Word) (s : State) : (writeArg i w s).candidate = s.candidate := rfl
@[simp] theorem writeArg_script (i : Nat) (w : Word) (s : State) : (writeArg i w s).script = s.script := rfl
@[simp] theorem writeArg_reads (i : Nat) (w : Word) (s : State) : (writeArg i w s).reads = s.reads := rfl
@[simp] theorem writeArg_symbolsTaken (i : Nat) (w : Word) (s : State) : (writeArg i w s).symbolsTaken = s.symbolsTaken := rfl
@[simp] theorem writeArg_refusalMark (i : Nat) (w : Word) (s : State) : (writeArg i w s).refusalMark = s.refusalMark := rfl
@[simp] theorem writeArg_recurring (i : Nat) (w : Word) (s : State) : (writeArg i w s).recurring = s.recurring := rfl
@[simp] theorem writeArg_stream (i : Nat) (w : Word) (s : State) : (writeArg i w s).stream = s.stream := rfl
@[simp] theorem writeArg_doneSeen (i : Nat) (w : Word) (s : State) : (writeArg i w s).doneSeen = s.doneSeen := rfl

@[simp] theorem raiseRequest_status (s : State) : (raiseRequest s).status = s.status := rfl
@[simp] theorem raiseRequest_resLen (s : State) : (raiseRequest s).resLen = s.resLen := rfl
@[simp] theorem raiseRequest_arg (s : State) : (raiseRequest s).arg = s.arg := rfl
@[simp] theorem raiseRequest_res (s : State) : (raiseRequest s).res = s.res := rfl
@[simp] theorem raiseRequest_inFlight (s : State) : (raiseRequest s).inFlight = s.inFlight := rfl
@[simp] theorem raiseRequest_rngReq (s : State) : (raiseRequest s).rngReq = true := rfl
@[simp] theorem raiseRequest_candidate (s : State) : (raiseRequest s).candidate = s.candidate := rfl
@[simp] theorem raiseRequest_script (s : State) : (raiseRequest s).script = s.script := rfl
@[simp] theorem raiseRequest_reads (s : State) : (raiseRequest s).reads = s.reads := rfl
@[simp] theorem raiseRequest_symbolsTaken (s : State) : (raiseRequest s).symbolsTaken = s.symbolsTaken := rfl
@[simp] theorem raiseRequest_refusalMark (s : State) : (raiseRequest s).refusalMark = s.refusalMark := rfl
@[simp] theorem raiseRequest_recurring (s : State) : (raiseRequest s).recurring = s.recurring := rfl
@[simp] theorem raiseRequest_stream (s : State) : (raiseRequest s).stream = s.stream := rfl
@[simp] theorem raiseRequest_doneSeen (s : State) : (raiseRequest s).doneSeen = s.doneSeen := rfl

@[simp] theorem takeSymbol_status (x : Symbol) (s : State) : (takeSymbol x s).status = s.status := rfl
@[simp] theorem takeSymbol_resLen (x : Symbol) (s : State) : (takeSymbol x s).resLen = s.resLen := rfl
@[simp] theorem takeSymbol_arg (x : Symbol) (s : State) : (takeSymbol x s).arg = s.arg := rfl
@[simp] theorem takeSymbol_res (x : Symbol) (s : State) : (takeSymbol x s).res = s.res := rfl
@[simp] theorem takeSymbol_inFlight (x : Symbol) (s : State) : (takeSymbol x s).inFlight = s.inFlight := rfl
@[simp] theorem takeSymbol_rngReq (x : Symbol) (s : State) : (takeSymbol x s).rngReq = false := rfl
@[simp] theorem takeSymbol_candidate (x : Symbol) (s : State) : (takeSymbol x s).candidate = s.candidate ++ [x] := rfl
@[simp] theorem takeSymbol_script (x : Symbol) (s : State) : (takeSymbol x s).script = s.script := rfl
@[simp] theorem takeSymbol_reads (x : Symbol) (s : State) : (takeSymbol x s).reads = s.reads := rfl
@[simp] theorem takeSymbol_symbolsTaken (x : Symbol) (s : State) : (takeSymbol x s).symbolsTaken = s.symbolsTaken + 1 := rfl
@[simp] theorem takeSymbol_refusalMark (x : Symbol) (s : State) : (takeSymbol x s).refusalMark = s.refusalMark := rfl
@[simp] theorem takeSymbol_recurring (x : Symbol) (s : State) : (takeSymbol x s).recurring = s.recurring := rfl
@[simp] theorem takeSymbol_stream (x : Symbol) (s : State) : (takeSymbol x s).stream = s.stream := rfl
@[simp] theorem takeSymbol_doneSeen (x : Symbol) (s : State) : (takeSymbol x s).doneSeen = s.doneSeen := rfl

@[simp] theorem rejectCandidate_status (s : State) : (rejectCandidate s).status = s.status := rfl
@[simp] theorem rejectCandidate_resLen (s : State) : (rejectCandidate s).resLen = s.resLen := rfl
@[simp] theorem rejectCandidate_arg (s : State) : (rejectCandidate s).arg = s.arg := rfl
@[simp] theorem rejectCandidate_res (s : State) : (rejectCandidate s).res = s.res := rfl
@[simp] theorem rejectCandidate_inFlight (s : State) : (rejectCandidate s).inFlight = s.inFlight := rfl
@[simp] theorem rejectCandidate_rngReq (s : State) : (rejectCandidate s).rngReq = s.rngReq := rfl
@[simp] theorem rejectCandidate_candidate (s : State) : (rejectCandidate s).candidate = [] := rfl
@[simp] theorem rejectCandidate_script (s : State) : (rejectCandidate s).script = s.script := rfl
@[simp] theorem rejectCandidate_reads (s : State) : (rejectCandidate s).reads = s.reads := rfl
@[simp] theorem rejectCandidate_symbolsTaken (s : State) : (rejectCandidate s).symbolsTaken = s.symbolsTaken := rfl
@[simp] theorem rejectCandidate_refusalMark (s : State) : (rejectCandidate s).refusalMark = s.refusalMark := rfl
@[simp] theorem rejectCandidate_recurring (s : State) : (rejectCandidate s).recurring = s.recurring := rfl
@[simp] theorem rejectCandidate_stream (s : State) : (rejectCandidate s).stream = s.stream := rfl
@[simp] theorem rejectCandidate_doneSeen (s : State) : (rejectCandidate s).doneSeen = s.doneSeen := rfl

@[simp] theorem popScript_status (rest : List Event) (s : State) : (popScript rest s).status = s.status := rfl
@[simp] theorem popScript_resLen (rest : List Event) (s : State) : (popScript rest s).resLen = s.resLen := rfl
@[simp] theorem popScript_arg (rest : List Event) (s : State) : (popScript rest s).arg = s.arg := rfl
@[simp] theorem popScript_res (rest : List Event) (s : State) : (popScript rest s).res = s.res := rfl
@[simp] theorem popScript_inFlight (rest : List Event) (s : State) : (popScript rest s).inFlight = s.inFlight := rfl
@[simp] theorem popScript_rngReq (rest : List Event) (s : State) : (popScript rest s).rngReq = s.rngReq := rfl
@[simp] theorem popScript_candidate (rest : List Event) (s : State) : (popScript rest s).candidate = s.candidate := rfl
@[simp] theorem popScript_script (rest : List Event) (s : State) : (popScript rest s).script = rest := rfl
@[simp] theorem popScript_reads (rest : List Event) (s : State) : (popScript rest s).reads = s.reads := rfl
@[simp] theorem popScript_symbolsTaken (rest : List Event) (s : State) : (popScript rest s).symbolsTaken = s.symbolsTaken := rfl
@[simp] theorem popScript_refusalMark (rest : List Event) (s : State) : (popScript rest s).refusalMark = s.refusalMark := rfl
@[simp] theorem popScript_recurring (rest : List Event) (s : State) : (popScript rest s).recurring = s.recurring := rfl
@[simp] theorem popScript_stream (rest : List Event) (s : State) : (popScript rest s).stream = s.stream := rfl
@[simp] theorem popScript_doneSeen (rest : List Event) (s : State) : (popScript rest s).doneSeen = s.doneSeen := rfl

@[simp] theorem nextRound_status (s : State) : (nextRound s).status = s.status := rfl
@[simp] theorem nextRound_resLen (s : State) : (nextRound s).resLen = s.resLen := rfl
@[simp] theorem nextRound_arg (s : State) : (nextRound s).arg = s.arg := rfl
@[simp] theorem nextRound_res (s : State) : (nextRound s).res = s.res := rfl
@[simp] theorem nextRound_inFlight (s : State) : (nextRound s).inFlight = s.inFlight := rfl
@[simp] theorem nextRound_rngReq (s : State) : (nextRound s).rngReq = s.rngReq := rfl
@[simp] theorem nextRound_candidate (s : State) : (nextRound s).candidate = s.candidate := rfl
@[simp] theorem nextRound_script (s : State) : (nextRound s).script = s.recurring := rfl
@[simp] theorem nextRound_reads (s : State) : (nextRound s).reads = s.reads := rfl
@[simp] theorem nextRound_symbolsTaken (s : State) : (nextRound s).symbolsTaken = s.symbolsTaken := rfl
@[simp] theorem nextRound_refusalMark (s : State) : (nextRound s).refusalMark = s.refusalMark := rfl
@[simp] theorem nextRound_recurring (s : State) : (nextRound s).recurring = s.recurring := rfl
@[simp] theorem nextRound_stream (s : State) : (nextRound s).stream = s.stream := rfl
@[simp] theorem nextRound_doneSeen (s : State) : (nextRound s).doneSeen = s.doneSeen := rfl

end Sys2Proof.Machine
end

