-- ==== Sys2Proof/Laws/Step.lean ====
section
/-! SUPPORT. What each shared operation and a step can do, said once: where it answers a next state, that state is one of
these. -/

namespace Sys2Proof.Machine

theorem deliver_cases (items : List Int) (s : State) :
    (items.all inIntRange = true ∧ deliver items s = complete (.ok (wordsOf items)) s) ∨
      (items.all inIntRange = false ∧ deliver items s = complete (.refused .resultOverflow) s) := by
  cases h : items.all inIntRange
  · exact .inr ⟨rfl, by simp [deliver, h]⟩
  · exact .inl ⟨rfl, by simp [deliver, h]⟩

theorem deliver_complete (items : List Int) (s : State) : ∃ c, deliver items s = complete c s := by
  rcases deliver_cases items s with ⟨_, h⟩ | ⟨_, h⟩ <;> exact ⟨_, h⟩

theorem finish_next (r : Except ErrorKind (List Int)) (s : State) : ∃ c, finish r s = .next (complete c s) := by
  cases r with
  | ok items =>
    obtain ⟨c, h⟩ := deliver_complete items s
    exact ⟨c, by simp [finish, h]⟩
  | error k => exact ⟨.error k, rfl⟩

theorem finishOption_next (r : Except ErrorKind (Option (List Int))) (s : State) :
    ∃ c, finishOption r s = .next (complete c s) := by
  rcases r with k | _ | items
  · exact ⟨.error k, rfl⟩
  · exact ⟨.nothingFound, rfl⟩
  · obtain ⟨c, h⟩ := deliver_complete items s
    exact ⟨c, by simp [finishOption, h]⟩

theorem refuse_next (r : RefuseReason) (s : State) : refuse r s = .next (complete (.refused r) s) := rfl

/-- GENKEY completes, asks for a symbol, or rejects its candidate. -/
theorem execGenkey_next (n : Int) (s : State) :
    (∃ c, execGenkey n s = .next (complete c s)) ∨ execGenkey n s = .next (raiseRequest s) ∨
      execGenkey n s = .next (rejectCandidate s) := by
  unfold execGenkey testCandidate
  split
  · exact .inl ⟨_, rfl⟩
  · split
    · exact .inl ⟨_, rfl⟩
    · split
      · exact .inr (.inl rfl)
      · split
        · exact .inl ⟨_, rfl⟩
        · exact .inr (.inr rfl)
        · exact .inl (finish_next _ s)

/-- Every command but GENKEY completes in its one turn. -/
theorem exec_completes (i : Instr) (s : State) (hi : ∀ n, i ≠ .genkey n) : ∃ c, exec i s = .next (complete c s) := by
  have deliverNext : ∀ items, ∃ c, (.next (deliver items s) : StepResult) = .next (complete c s) := fun items => by
    obtain ⟨c, h⟩ := deliver_complete items s
    exact ⟨c, by rw [h]⟩
  cases i with
  | genkey n => exact absurd rfl (hi n)
  | c2s | s2c | str2vec | vec2str | str2mat => exact finish_next _ s
  | mat2str | det | matvec =>
    simp only [exec, execMat2str, execDet, execMatvec]
    split
    · exact ⟨_, rfl⟩
    · exact finish_next _ s
  | invq | modinv | invmod =>
    simp only [exec, execInvq, execModinv, execInvmod]
    split
    · exact ⟨_, rfl⟩
    · exact finishOption_next _ s
  | transp | minor =>
    simp only [exec, execTransp, execMinor]
    split
    · exact ⟨_, rfl⟩
    · split
      · exact deliverNext _
      · exact ⟨_, rfl⟩
  | mod | gcd | egcd =>
    simp only [exec, execMod, execGcd, execEgcd]
    split
    · exact ⟨_, rfl⟩
    · exact deliverNext _
  | encode | decode =>
    simp only [exec, execEncode, execDecode]
    split
    · exact ⟨_, rfl⟩
    · split
      · exact ⟨_, rfl⟩
      · exact finish_next _ s

/-- What a turn on a command can do. -/
theorem exec_cases (i : Instr) (s : State) :
    (∃ c, exec i s = .next (complete c s)) ∨
      (∃ n, i = .genkey n ∧ (exec i s = .next (raiseRequest s) ∨ exec i s = .next (rejectCandidate s))) := by
  by_cases h : ∃ n, i = .genkey n
  · obtain ⟨n, rfl⟩ := h
    rcases execGenkey_next n s with h | h | h
    · exact .inl h
    · exact .inr ⟨n, rfl, .inl h⟩
    · exact .inr ⟨n, rfl, .inr h⟩
  · exact .inl (exec_completes i s fun n hn => h ⟨n, hn⟩)

/-- No command stops the machine. -/
theorem exec_next (i : Instr) (s : State) : ∃ t, exec i s = .next t := by
  rcases exec_cases i s with ⟨c, h⟩ | ⟨n, _, h | h⟩ <;> exact ⟨_, h⟩

theorem busRead_next {off : Nat} {s t : State} (h : busRead off s = .next t) :
    ∃ w, readWord off s = .ok w ∧ t = logRead off (.word off w) s := by
  unfold busRead at h
  split at h
  · rename_i w hw
    exact ⟨w, hw, by simpa using h.symm⟩
  · cases h

theorem busReadBytes_next {addr width : Nat} {s t : State} (h : busReadBytes addr width s = .next t) :
    isOneWord addr width = true ∧ ∃ w, readWord (addr / 8) s = .ok w ∧ t = logRead (addr / 8) (.bytes addr (bytesOf w)) s := by
  unfold busReadBytes at h
  split at h
  · rename_i ho
    split at h
    · rename_i w hw
      exact ⟨ho, w, hw, by simpa using h.symm⟩
    · cases h
  · cases h

/-- The offset of a place of the window (the map of R50). -/
theorem placeOf_cases (off : Nat) :
    (off = Config.cmdOffset ∧ placeOf off = .cmd) ∨ (off = Config.statusOffset ∧ placeOf off = .status) ∨
      (off = Config.resLenOffset ∧ placeOf off = .resLen) ∨ (off = Config.ctrlOffset ∧ placeOf off = .ctrl) ∨
      (4 ≤ off ∧ off < 0x200 ∧ placeOf off = .reserved) ∨
      (∃ i, i < 0x200 ∧ off = 0x200 + i ∧ placeOf off = .arg i) ∨
      (∃ i, i < 0x200 ∧ off = 0x400 + i ∧ placeOf off = .res i) ∨ (0x600 ≤ off ∧ placeOf off = .outside) := by
  simp only [placeOf, Config.cmdOffset, Config.statusOffset, Config.resLenOffset, Config.ctrlOffset, Config.argOffset,
    Config.resOffset, Config.windowWords]
  by_cases h0 : off = 0; · simp [h0]
  by_cases h1 : off = 1; · simp [h1]
  by_cases h2 : off = 2; · simp [h2]
  by_cases h3 : off = 3; · simp [h3]
  by_cases h4 : off < 0x200
  · simp only [h0, h1, h2, h3, h4, if_true, if_false]
    exact .inr (.inr (.inr (.inr (.inl ⟨by omega, trivial, trivial⟩))))
  by_cases h5 : off < 0x400
  · simp only [h0, h1, h2, h3, h4, h5, if_true, if_false]
    exact .inr (.inr (.inr (.inr (.inr (.inl ⟨off - 0x200, by omega, by omega, rfl⟩)))))
  by_cases h6 : off < 0x600
  · simp only [h0, h1, h2, h3, h4, h5, h6, if_true, if_false]
    exact .inr (.inr (.inr (.inr (.inr (.inr (.inl ⟨off - 0x400, by omega, by omega, rfl⟩))))))
  · simp only [h0, h1, h2, h3, h4, h5, h6, if_false]
    exact .inr (.inr (.inr (.inr (.inr (.inr (.inr ⟨by omega, trivial⟩))))))

/-- The three writes that have an effect (R52): an issue, a write of CTRL, a write of a word of ARG. -/
theorem busWrite_next {off : Nat} {w : Word} {s t : State} (h : busWrite off w s = .next t) :
    (off = Config.cmdOffset ∧ s.isBusy = false ∧
        ∃ operands, sampledWords w s.arg.words = some operands ∧ t = accept w operands s) ∨
      (off = Config.ctrlOffset ∧ w.extractLsb' 1 63 = 0 ∧
        ((w.getLsbD 0 = true ∧ t = resetEngine s) ∨ (w.getLsbD 0 = false ∧ t = s))) ∨
      (∃ i, i < 0x200 ∧ off = 0x200 + i ∧ s.isBusy = false ∧ t = writeArg i w s) := by
  rcases placeOf_cases off with ⟨ho, hp⟩ | ⟨ho, hp⟩ | ⟨ho, hp⟩ | ⟨ho, hp⟩ | ⟨_, _, hp⟩ | ⟨i, hi, ho, hp⟩ |
    ⟨i, hi, ho, hp⟩ | ⟨ho, hp⟩
  · left
    simp only [busWrite, hp, violation] at h
    split at h
    · cases h
    · rename_i hb
      simp only [issue, violation] at h
      split at h
      · rename_i operands hs
        exact ⟨ho, by simpa using hb, operands, hs, by simpa using h.symm⟩
      · cases h
  · simp [busWrite, hp, violation] at h
  · simp [busWrite, hp, violation] at h
  · right; left
    simp only [busWrite, hp, writeCtrl, violation] at h
    split at h
    · cases h
    · rename_i hr
      refine ⟨ho, by simpa using hr, ?_⟩
      split at h
      · rename_i hb
        exact .inl ⟨hb, by simpa using h.symm⟩
      · rename_i hb
        exact .inr ⟨by simpa using hb, by simpa using h.symm⟩
  · simp [busWrite, hp, violation] at h
  · right; right
    simp only [busWrite, hp, violation] at h
    split at h
    · cases h
    · rename_i hb
      exact ⟨i, hi, ho, by simpa using hb, by simpa using h.symm⟩
  · simp [busWrite, hp, violation] at h
  · simp [busWrite, hp, violation] at h

theorem busWriteBytes_next {addr : Nat} {bs : List Byte} {s t : State} (h : busWriteBytes addr bs s = .next t) :
    isOneWord addr bs.length = true ∧ busWrite (addr / 8) (wordOfBytes bs) s = .next t := by
  unfold busWriteBytes at h
  split at h
  · rename_i ho
    exact ⟨ho, h⟩
  · cases h

theorem rngAnswer_next {sym : BitVec 5} {s t : State} (h : rngAnswer sym s = .next t) :
    s.rngReq = true ∧ ∃ x : Symbol, x.val = sym.toNat ∧ t = takeSymbol x s := by
  unfold rngAnswer at h
  split at h
  · rename_i hr
    split at h
    · rename_i hs
      exact ⟨hr, ⟨sym.toNat, hs⟩, rfl, by simpa using h.symm⟩
    · cases h
  · cases h

/-- A turn of the source answers a waiting draw, or does nothing. -/
theorem sourceTurn_cases (s : State) :
    (s.rngReq = true ∧ sourceTurn s = .next (takeSymbol (s.stream.symbolAt s.symbolsTaken) s)) ∨
      (s.rngReq = false ∧ sourceTurn s = .next s) := by
  cases h : s.rngReq
  · exact .inr ⟨rfl, by simp [sourceTurn, h]⟩
  · exact .inl ⟨rfl, by simp [sourceTurn, h]⟩

/-- The stream at each position: the first symbols, then the repeated ones, then the free ones. -/
theorem symbolAt_first {stream : SymbolStream} {p : Nat} (h : p < stream.first.length) :
    stream.symbolAt p = stream.first[p] := by simp [SymbolStream.symbolAt, h]

theorem symbolAt_again {stream : SymbolStream} {p : Nat} (h : stream.first.length ≤ p)
    (ha : (p - stream.first.length) % stream.again.length < stream.again.length) :
    stream.symbolAt p = stream.again[(p - stream.first.length) % stream.again.length] := by
  simp [SymbolStream.symbolAt, h, ha]

theorem symbolAt_free {stream : SymbolStream} {p : Nat} (h : stream.first.length ≤ p) (ha : stream.again = []) :
    stream.symbolAt p = Config.symbolStream p := by simp [SymbolStream.symbolAt, h, ha]

/-- What a turn of the engine can do. -/
theorem engineTurn_next {s t : State} (h : engineTurn s = .next t) :
    (s.inFlight = none ∧ t = s) ∨
      ∃ c, s.inFlight = some c ∧
        ((∃ i rest, fetch c = .command i rest ∧ exec i s = .next t) ∨
          (fetch c = .illegal ∧ t = complete (.refused .illegalCommand) s) ∨
          (∃ rest, fetch c = .overCapacity rest ∧ t = complete (.refused .capacity) s)) := by
  unfold engineTurn at h
  split at h
  · rename_i hf
    exact .inl ⟨hf, by simpa using h.symm⟩
  · rename_i c hc
    refine .inr ⟨c, hc, ?_⟩
    split at h
    · rename_i i rest hd
      exact .inl ⟨i, rest, hd, h⟩
    · rename_i hd
      exact .inr (.inl ⟨hd, by simpa [refuse] using h.symm⟩)
    · rename_i rest hd
      exact .inr (.inr ⟨rest, hd, by simpa [refuse] using h.symm⟩)
    · cases h

/-- What a step can do. -/
theorem step_next {s t : State} (h : step s = .next t) :
    (s.script = [] ∧ engineTurn (nextRound s) = .next t) ∨
      ∃ e rest, s.script = e :: rest ∧ eventStep e (popScript rest s) = .next t := by
  unfold step at h
  split at h
  · rename_i hs
    exact .inl ⟨hs, h⟩
  · rename_i e rest hs
    exact .inr ⟨e, rest, hs, h⟩

end Sys2Proof.Machine
end

