-- ==== Sys2Proof/Tests/Slice0.lean ====
section
/-! SUPPORT. The model's own tests. Expected results come from the spec: the encodings of spec/30_encoding.md, the vectors
V<n> of spec/95_test_vectors.md, the rules' own examples. Then a witness for every statement with hypotheses: concrete
states and operands that meet them, clause by clause, at the ends of their ranges. -/

namespace Sys2Proof.Tests

open Sys2Proof Sys2Proof.Machine Sys2Proof.Claims

/-! ## Helpers -/

/-- The state a step goes on with. -/
def reached (r : StepResult) : State :=
  match r with
  | .next t => t
  | _ => State.reset

/-- The step goes on. -/
def goesOn (r : StepResult) : Bool :=
  match r with
  | .next _ => true
  | _ => false

/-- The step is refused for the reason given. -/
def refusedFor (r : StepResult) (why : Refusal) : Bool :=
  match r with
  | .refused q => decide (q = why)
  | _ => false

theorem eq_of_goesOn {r : StepResult} (h : goesOn r = true) : r = .next (reached r) := by
  cases r <;> simp_all [goesOn, reached]

/-- A command in flight, its operand words in ARG. -/
def inFlightWith (cmd : Word) (args : List Word) : State :=
  accept cmd args { State.reset with arg := Memory.ofWords args }

/-- A well-formed instruction in flight. -/
def inFlightOf (i : Instr) : State := inFlightWith i.commandWord i.operandWords

/-- The turn ends the command with this STATUS word and these words of RES (RES_LEN is their number). -/
def endsWith (cmd : Word) (args : List Word) (status : Word) (result : List Word) : Bool :=
  let r := step (inFlightWith cmd args)
  goesOn r && decide ((reached r).status.word = status) && decide ((reached r).resLen = result.length) &&
    decide ((reached r).res = Memory.ofWords result)

/-- The state with C2S 'h' ended, DONE not yet read by the host: RES is [7]. -/
def unseenState : State := endedOk State.reset [7]

/-- The same with DONE read. -/
def doneState : State := { unseenState with doneSeen := true }

/-! ## Well-formedness: a term each check refuses, beside one it lets through -/

theorem test_charOk : charOk 0xFFFFFFFFFFFFFFFF = true ∧ charOk 0x10000000000000000 = false := by decide

theorem test_inIntRange : inIntRange (-9223372036854775808) = true ∧ inIntRange 9223372036854775807 = true ∧
    inIntRange (-9223372036854775809) = false ∧ inIntRange 9223372036854775808 = false := by decide

theorem test_strOk_length : strOk (List.replicate 225 0x41) = true ∧ strOk (List.replicate 226 0x41) = false := by decide +kernel

theorem test_strOk_character : strOk [0x41, 0x10000000000000000] = false := by decide

theorem test_vecOk_length : vecOk (List.replicate 225 0) = true ∧ vecOk (List.replicate 226 0) = false := by decide +kernel

theorem test_vecOk_element : vecOk [0, 9223372036854775808] = false := by decide

theorem test_rowOk : rowOk (List.replicate 15 0) = true ∧ rowOk (List.replicate 16 0) = false ∧
    rowOk [-9223372036854775809] = false := by decide

theorem test_matOk : matOk (List.replicate 15 (List.replicate 15 0)) = true ∧ matOk (List.replicate 16 []) = false ∧
    matOk [[1], List.replicate 16 0] = false ∧ matOk [[9223372036854775808]] = false := by decide

/-- Every constructor's own check refuses an ill-formed operand in each place. -/
theorem test_wellFormed_refuses_codec :
    (Instr.c2s 0x10000000000000000).wellFormed = false ∧ (Instr.s2c 9223372036854775808).wellFormed = false ∧
    (Instr.str2vec (List.replicate 226 0)).wellFormed = false ∧ (Instr.vec2str [9223372036854775808]).wellFormed = false ∧
    (Instr.str2mat (List.replicate 226 0)).wellFormed = false ∧
    (Instr.mat2str (List.replicate 16 [])).wellFormed = false := by decide +kernel

theorem test_wellFormed_refuses_matrix :
    (Instr.transp [List.replicate 16 0]).wellFormed = false ∧ (Instr.minor [List.replicate 16 0] 0 0).wellFormed = false ∧
    (Instr.minor [[1]] 9223372036854775808 0).wellFormed = false ∧
    (Instr.minor [[1]] 0 (-9223372036854775809)).wellFormed = false ∧
    (Instr.det (List.replicate 16 [])).wellFormed = false ∧ (Instr.matvec (List.replicate 16 []) []).wellFormed = false ∧
    (Instr.matvec [[1]] (List.replicate 226 0)).wellFormed = false ∧
    (Instr.invq [[-9223372036854775809]]).wellFormed = false := by decide +kernel

theorem test_wellFormed_refuses_modular :
    (Instr.mod 9223372036854775808 1).wellFormed = false ∧ (Instr.mod 1 9223372036854775808).wellFormed = false ∧
    (Instr.gcd 9223372036854775808 1).wellFormed = false ∧ (Instr.gcd 1 9223372036854775808).wellFormed = false ∧
    (Instr.egcd 9223372036854775808 1).wellFormed = false ∧ (Instr.egcd 1 9223372036854775808).wellFormed = false ∧
    (Instr.modinv 9223372036854775808 1).wellFormed = false ∧ (Instr.modinv 1 9223372036854775808).wellFormed = false ∧
    (Instr.invmod (List.replicate 16 []) 26).wellFormed = false ∧
    (Instr.invmod [[1]] 9223372036854775808).wellFormed = false := by decide

theorem test_wellFormed_refuses_key_and_cipher :
    (Instr.genkey 9223372036854775808).wellFormed = false ∧
    (Instr.encode (List.replicate 226 0) []).wellFormed = false ∧ (Instr.encode [] (List.replicate 226 0)).wellFormed = false ∧
    (Instr.decode (List.replicate 226 0) []).wellFormed = false ∧
    (Instr.decode [] (List.replicate 226 0)).wellFormed = false := by decide +kernel

/-! ## Decoding: words written out from R70, R72 to R80 and the ARG words of the vectors named -/

/-- V1: OP 0x10, one CHAR word. -/
theorem test_decode_c2s : decode 0x0000000000000010 [0x68] = .command (.c2s 0x68) [] := by decide
/-- V15: OP 0x11, one INT word, two's complement. -/
theorem test_decode_s2c : decode 0x0000000000000011 [0xFFFFFFFFFFFFFFFF] = .command (.s2c (-1)) [] := by decide
/-- V16: OP 0x12, STR: length, then characters. -/
theorem test_decode_str2vec : decode 0x0000000000000012 [5, 0x48, 0x65, 0x6C, 0x6C, 0x6F, 9] =
    .command (.str2vec [0x48, 0x65, 0x6C, 0x6C, 0x6F]) [9] := by decide
/-- V19: OP 0x13, VEC: length, then elements. -/
theorem test_decode_vec2str : decode 0x0000000000000013 [5, 9, 6, 0x14, 0, 0x14] =
    .command (.vec2str [9, 6, 20, 0, 20]) [] := by decide
/-- V23: OP 0x14. -/
theorem test_decode_str2mat : decode 0x0000000000000014 [4, 0x47, 0x59, 0x42, 0x4E] =
    .command (.str2mat [0x47, 0x59, 0x42, 0x4E]) [] := by decide
/-- V31: OP 0x15, MAT: row count, then each row's length and entries (a ragged one). -/
theorem test_decode_mat2str : decode 0x0000000000000015 [2, 2, 1, 2, 1, 3] = .command (.mat2str [[1, 2], [3]]) [] := by
  decide
/-- V42: OP 0x20, a rectangular MAT. -/
theorem test_decode_transp : decode 0x0000000000000020 [2, 3, 1, 2, 3, 3, 4, 5, 6] =
    .command (.transp [[1, 2, 3], [4, 5, 6]]) [] := by decide
/-- R87's example: OP 0x21, MAT, INT, INT. -/
theorem test_decode_minor : decode 0x0000000000000021 [2, 2, 1, 2, 2, 3, 4, 0, 1] =
    .command (.minor [[1, 2], [3, 4]] 0 1) [] := by decide
/-- V51: OP 0x22. -/
theorem test_decode_det : decode 0x0000000000000022 [1, 1, 0xFFFFFFFFFFFFFFF9] = .command (.det [[-7]]) [] := by decide
/-- V61: OP 0x23, MAT, then VEC. -/
theorem test_decode_matvec : decode 0x0000000000000023 [2, 2, 0, 1, 2, 2, 3, 2, 2, 2] =
    .command (.matvec [[0, 1], [2, 3]] [2, 2]) [] := by decide
/-- V70: OP 0x24. -/
theorem test_decode_invq : decode 0x0000000000000024 [2, 2, 1, 2, 2, 3, 4] = .command (.invq [[1, 2], [3, 4]]) [] := by
  decide
/-- V84: OP 0x30, x at ARG[0], m at ARG[1]. -/
theorem test_decode_mod : decode 0x0000000000000030 [0xFFFFFFFFFFFFFFFF, 0x1A] = .command (.mod (-1) 26) [] := by decide
/-- V91: OP 0x31. -/
theorem test_decode_gcd : decode 0x0000000000000031 [0xF, 0x1A] = .command (.gcd 15 26) [] := by decide
/-- V106: OP 0x32. -/
theorem test_decode_egcd : decode 0x0000000000000032 [0xF0, 0x2E] = .command (.egcd 240 46) [] := by decide
/-- V109: OP 0x33. -/
theorem test_decode_modinv : decode 0x0000000000000033 [3, 0x1A] = .command (.modinv 3 26) [] := by decide
/-- V120: OP 0x34, MAT, then INT modulus. -/
theorem test_decode_invmod : decode 0x0000000000000034 [2, 2, 3, 3, 2, 2, 5, 0x1A] =
    .command (.invmod [[3, 3], [2, 5]] 26) [] := by decide
/-- V140: OP 0x40. -/
theorem test_decode_genkey : decode 0x0000000000000040 [2] = .command (.genkey 2) [] := by decide
/-- V154: OP 0x50, text, then key. -/
theorem test_decode_encode : decode 0x0000000000000050 [2, 0x48, 0x49, 4, 0x44, 0x44, 0x43, 0x46] =
    .command (.encode [0x48, 0x49] [0x44, 0x44, 0x43, 0x46]) [] := by decide
/-- V155: OP 0x51. -/
theorem test_decode_decode : decode 0x0000000000000051 [2, 0x54, 0x43, 4, 0x44, 0x44, 0x43, 0x46] =
    .command (.decode [0x54, 0x43] [0x44, 0x44, 0x43, 0x46]) [] := by decide

/-- V180 to V184: illegal words, whatever ARG holds. -/
theorem test_decode_illegal : decode 0x00 [0x41] = .illegal ∧ decode 0xFF [0x41] = .illegal ∧
    decode 0x16 [0x41] = .illegal ∧ decode 0x110 [0x41] = .illegal ∧ decode 0x8000000000000050 [0x41] = .illegal := by
  decide

/-- V37, V185, V186, V187, V189: the first length word over its bound stops the parse. -/
theorem test_decode_over_capacity : decode 0x12 [0xE2] = .overCapacity [] ∧ decode 0x22 [0x10] = .overCapacity [] ∧
    decode 0x22 [2, 2, 1, 2, 0x10] = .overCapacity [] ∧ decode 0x23 [0, 0xE2] = .overCapacity [] ∧
    decode 0x12 [0x8000000000000000] = .overCapacity [] := by decide

/-- R33: a layout that includes an unwritten word. -/
theorem test_decode_unwritten : decode 0x30 [5] = .unwritten ∧ decode 0x12 [2, 0x41] = .unwritten ∧
    sampledWords 0x30 [5] = none := by decide

/-- The words of the table's rows, with operand words of zeros (R77: the word 0 is the matrix with no rows). -/
theorem test_decodeTableWord : decodeTableWord 64 0x10 = some (.c2s 0) ∧ decodeTableWord 64 0x23 = some (.matvec [] []) ∧
    decodeTableWord 64 0x51 = some (.decode [] []) ∧ decodeTableWord 64 0x16 = none ∧ decodeTableWord 64 0x110 = none := by
  decide

/-- The very next step after withFetchWord runs the instruction: C2S of code 0 is InvalidCharacter (R101). -/
theorem test_withFetchWord :
    (reached (step (State.reset.withFetchWord 64 0x10))).status.word = 0x12 ∧
    goesOn (step (State.reset.withFetchWord 64 0x10)) = true := by decide +kernel

/-! ## One step of each command, by the vectors named -/

/-- V3, V10. -/
theorem test_c2s : endsWith 0x10 [0x5A] 0x2 [0x19] = true ∧ endsWith 0x10 [0x8000000000000041] 0x12 [] = true := by decide
/-- V13, V14. -/
theorem test_s2c : endsWith 0x11 [0x19] 0x2 [0x5A] = true ∧ endsWith 0x11 [0x1A] 0x22 [] = true := by decide
/-- V16, V18. -/
theorem test_str2vec : endsWith 0x12 [5, 0x48, 0x65, 0x6C, 0x6C, 0x6F] 0x2 [5, 7, 4, 0xB, 0xB, 0xE] = true ∧
    endsWith 0x12 [4, 0x41, 0x42, 0x20, 0x43] 0x12 [] = true := by decide
/-- V19, V22. -/
theorem test_vec2str : endsWith 0x13 [5, 9, 6, 0x14, 0, 0x14] 0x2 [5, 0x4A, 0x47, 0x55, 0x41, 0x55] = true ∧
    endsWith 0x13 [1, 0xFFFFFFFFFFFFFFFF] 0x22 [] = true := by decide
/-- V23, V26: the length is tested before the characters. -/
theorem test_str2mat : endsWith 0x14 [4, 0x47, 0x59, 0x42, 0x4E] 0x2 [2, 2, 6, 0x18, 2, 1, 0xD] = true ∧
    endsWith 0x14 [3, 0x41, 0x31, 0x43] 0x42 [] = true := by decide
/-- V29, V34: the shape is tested before the entries. -/
theorem test_mat2str : endsWith 0x15 [2, 2, 6, 0x18, 2, 1, 0xD] 0x2 [4, 0x47, 0x59, 0x42, 0x4E] = true ∧
    endsWith 0x15 [2, 2, 0x63, 2, 1, 3] 0x32 [] = true := by decide
/-- V40, V42. -/
theorem test_transp : endsWith 0x20 [2, 2, 1, 2, 2, 3, 4] 0x2 [2, 2, 1, 3, 2, 2, 4] = true ∧
    endsWith 0x20 [2, 3, 1, 2, 3, 3, 4, 5, 6] 0x382 [] = true := by decide
/-- V44, V48. -/
theorem test_minor :
    endsWith 0x21 [3, 3, 1, 2, 3, 3, 4, 5, 6, 3, 7, 8, 9, 0, 1] 0x2 [2, 2, 4, 6, 2, 7, 9] = true ∧
    endsWith 0x21 [2, 2, 1, 2, 2, 3, 4, 0, 0xFFFFFFFFFFFFFFFF] 0x382 [] = true := by decide
/-- V54, V58. -/
theorem test_det : endsWith 0x22 [3, 3, 1, 2, 3, 3, 4, 5, 6, 3, 7, 8, 0xA] 0x2 [0xFFFFFFFFFFFFFFFD] = true ∧
    endsWith 0x22 [2, 2, 0x10000000000, 0, 2, 0, 0x10000000000] 0x482 [] = true := by decide
/-- V64 (a matrix that is not square), V65. -/
theorem test_matvec : endsWith 0x23 [2, 3, 1, 2, 3, 3, 4, 5, 6, 3, 1, 1, 1] 0x2 [2, 6, 0xF] = true ∧
    endsWith 0x23 [2, 2, 1, 2, 1, 3, 2, 1, 1] 0x52 [] = true := by decide
/-- V70, V74. -/
theorem test_invq : endsWith 0x24 [2, 2, 1, 2, 2, 3, 4] 0x2
      [2, 2, 4, 0xFFFFFFFFFFFFFFFE, 2, 0xFFFFFFFFFFFFFFFD, 1, 0xFFFFFFFFFFFFFFFE] = true ∧
    endsWith 0x24 [2, 2, 1, 2, 2, 2, 4] 0x72 [] = true := by decide
/-- V87, V90. -/
theorem test_mod : endsWith 0x30 [0x8000000000000000, 0x1A] 0x2 [0x12] = true ∧
    endsWith 0x30 [5, 0xFFFFFFFFFFFFFFE6] 0x382 [] = true := by decide
/-- V96, V98. -/
theorem test_gcd : endsWith 0x31 [0x30, 0x12] 0x2 [6] = true ∧
    endsWith 0x31 [4, 0xFFFFFFFFFFFFFFFA] 0x382 [] = true := by decide
/-- V106, V107. -/
theorem test_egcd : endsWith 0x32 [0xF0, 0x2E] 0x2 [2, 0xFFFFFFFFFFFFFFF7, 0x2F] = true ∧
    endsWith 0x32 [0xFFFFFFFFFFFFFFFF, 5] 0x382 [] = true := by decide
/-- V109, V112. -/
theorem test_modinv : endsWith 0x33 [3, 0x1A] 0x2 [9] = true ∧ endsWith 0x33 [0xD, 0x1A] 0x72 [] = true := by decide
/-- V126, V134: the modulus is tested before the shape. -/
theorem test_invmod : endsWith 0x34 [2, 2, 1, 2, 2, 3, 4, 5] 0x2 [2, 2, 3, 1, 2, 4, 2] = true ∧
    endsWith 0x34 [2, 2, 1, 2, 1, 3, 0] 0x382 [] = true := by decide
/-- V142, V144. -/
theorem test_genkey_tests : endsWith 0x40 [0] 0x42 [] = true ∧ endsWith 0x40 [0x10] 0x282 [] = true := by decide
/-- V140: the second candidate, 3, 3, 2, 5, is accepted; the first, four zeros, is rejected and the command goes on. -/
theorem test_genkey_candidates :
    (reached (step { inFlightWith 0x40 [2] with candidate := [3, 3, 2, 5] })).res =
      Memory.ofWords [4, 0x44, 0x44, 0x43, 0x46] ∧
    (reached (step { inFlightWith 0x40 [2] with candidate := [0, 0, 0, 0] })) = inFlightWith 0x40 [2] := by decide
/-- V154 with letters in lower case (R103: the same Symbols), V169: the length is tested before the characters. -/
theorem test_encode : endsWith 0x50 [2, 0x68, 0x49, 4, 0x44, 0x64, 0x43, 0x46] 0x2 [2, 0x54, 0x43] = true ∧
    endsWith 0x50 [2, 0x48, 0x31, 3, 0x44, 0x44, 0x43] 0x42 [] = true := by decide
/-- V153, V170: the key is found not invertible before the text is looked at. -/
theorem test_decode : endsWith 0x51 [3, 0x50, 0x4F, 0x48, 9, 0x47, 0x59, 0x42, 0x4E, 0x51, 0x4B, 0x55, 0x52, 0x50] 0x2
      [3, 0x41, 0x43, 0x54] = true ∧
    endsWith 0x51 [2, 0x48, 0x31, 4, 0x41, 0x41, 0x41, 0x41] 0x62 [] = true := by decide
/-- V183, V187: the two refusals of the decoder. -/
theorem test_refused_words : endsWith 0x110 [0x41] 0x182 [] = true ∧ endsWith 0x23 [0, 0xE2] 0x282 [] = true := by decide

/-! ## The window -/

/-- R22: the word of a Refused/Unspecified completion, as V35 has it. -/
theorem test_status_word :
    Status.word { state := .done, code := .refused, reason := .some .unspecified } = 0x382 ∧
    Status.word { state := .busy, code := .ok, reason := .none } = 0x1 := by decide

/-- R29, R30, R50: where ARG and RES begin and end. -/
theorem test_map : placeOf 0x1FF = .reserved ∧ placeOf 0x200 = .arg 0 ∧ placeOf 0x3FF = .arg 511 ∧
    placeOf 0x400 = .res 0 ∧ placeOf 0x5FF = .res 511 ∧ placeOf 0x600 = .outside := by decide

/-- R53: least significant byte first. -/
theorem test_bytes : bytesOf 0x0807060504030201 = [1, 2, 3, 4, 5, 6, 7, 8] ∧
    wordOfBytes [1, 2, 3, 4, 5, 6, 7, 8] = 0x0807060504030201 := by decide

/-- R33: issuing over an unwritten word has no meaning; an illegal word needs none (R82). -/
theorem test_issue_unwritten :
    refusedFor (after (.write 0x000 0x10) State.reset) (.protocolViolation .issueOverUnwritten) = true ∧
    goesOn (after (.write 0x000 0x00) State.reset) = true := by decide

/-- R52 and R248 (b): RES[0] reads in DONE; before DONE has been observed, on either bus form, the run is marked (R57). -/
theorem test_done_before_result :
    (reached (after (.read 0x400) unseenState)).reads = [.word 0x400 7] ∧
    (reached (after (.read 0x400) unseenState)).refusalMark = true ∧
    (reached (after (.readBytes 0x2000 8) unseenState)).refusalMark = true ∧
    (reached (after (.read 0x002) unseenState)).refusalMark = false ∧
    (reached (after (.read 0x001) unseenState)).doneSeen = true ∧
    (reached (after (.read 0x400) doneState)).reads = [.word 0x400 7] ∧
    (reached (after (.read 0x400) doneState)).refusalMark = false := by decide

/-- R36, P7: the source answers a waiting draw from its stream, here 0 for ever, and nothing else. -/
theorem test_source_turn :
    (reached (after .rngTurn { inFlightWith 0x40 [1] with
      rngReq := true, symbolsTaken := 5, stream := { first := [7], again := [0] } })).candidate = [0] ∧
    (reached (after .rngTurn State.reset)) = State.reset := by decide

/-- R254: no event left and no command in flight. -/
theorem test_runOver : runOver doneState = true ∧ runOver (inFlightWith 0x10 [0x68]) = false ∧
    runOver { doneState with recurring := [.read 0x001] } = false ∧
    observe doneState =
      { status := { state := .done, code := .ok, reason := .none }, resLen := 1, result := [7], arg := [], symbolsTaken := 0 } := by
  decide

/-- U2: 26 is never delivered. -/
theorem test_source_contract :
    refusedFor (after (.rngAck 26) { inFlightWith 0x40 [1] with rngReq := true }) (.sourceContract .notASymbol) = true := by
  decide

/-! ## Witnesses: for every statement with hypotheses, operands and states that meet them

`InFlight op i` is what `RunsAs op i` asks of a state, `FlightOf op words` what `EndsOverCapacity op words` asks. -/

/-- A state in which the instruction i is in flight under op, as RunsAs asks. -/
abbrev InFlight (op : Word) (i : Instr) : Prop :=
  i.wellFormed = true ∧ (inFlightOf i).script = [] ∧
    (inFlightOf i).inFlight = some { cmd := op, operands := i.operandWords }

/-- A state in which op is in flight over these words, as EndsOverCapacity asks. -/
abbrev FlightOf (op : Word) (words : List Word) : Prop :=
  (inFlightWith op words).script = [] ∧ (inFlightWith op words).inFlight = some { cmd := op, operands := words }

/-- LongFirst's hypotheses, at the least length over the bound and at the largest word. -/
abbrev LongWitness (op : Word) : Prop :=
  225 < (226 : Word).toNat ∧ FlightOf op [226, 0x41] ∧ 225 < (0xFFFFFFFFFFFFFFFF : Word).toNat ∧
    FlightOf op [0xFFFFFFFFFFFFFFFF]

/-- WideFirst's hypotheses: a row count of 16; a row length of 16 first, and as the fifteenth. -/
abbrev WideWitness (op : Word) : Prop :=
  15 < (16 : Word).toNat ∧ FlightOf op [16] ∧
    (([] : Mat).all rowOk = true ∧ ([] : Mat).length < 1 ∧ 1 ≤ 15 ∧
      FlightOf op (wordsOf ((1 : Nat) :: ([] : Mat).flatMap vecItems) ++ [16])) ∧
    ((List.replicate 14 [(7 : Int)]).all rowOk = true ∧ (List.replicate 14 [(7 : Int)]).length < 15 ∧ 15 ≤ 15 ∧
      FlightOf op (wordsOf ((15 : Nat) :: (List.replicate 14 [(7 : Int)]).flatMap vecItems) ++ [16]))

theorem witness_c2s : InFlight 0x10 (.c2s 0xFFFFFFFFFFFFFFFF) ∧ (IsUpper 0x41 ∧ IsUpper 0x5A) ∧
    (IsLower 0x61 ∧ IsLower 0x7A) ∧
    (¬IsLetter 0x40 ∧ ¬IsLetter 0x5B ∧ ¬IsLetter 0x60 ∧ ¬IsLetter 0x7B ∧ ¬IsLetter 0) := by decide

theorem witness_s2c : InFlight 0x11 (.s2c (-9223372036854775808)) ∧ ((0 : Int) ≤ 0 ∧ (0 : Int) ≤ 25) ∧
    ((0 : Int) ≤ 25 ∧ (25 : Int) ≤ 25) ∧ ((-1 : Int) < 0 ∨ 25 < (-1 : Int)) ∧ ((26 : Int) < 0 ∨ 25 < (26 : Int)) := by
  decide

theorem witness_str2vec : InFlight 0x12 (.str2vec [0x48, 0x65]) ∧ LongWitness 0x12 ∧
    (strOk [] = true ∧ ∀ c ∈ ([] : Str), IsLetter c) ∧ (strOk [0x41, 0x7A] = true ∧ ∀ c ∈ [0x41, 0x7A], IsLetter c) ∧
    ∃ c ∈ [0x41, 0x20], ¬IsLetter c := by decide

theorem witness_str2vec_longest : strOk (List.replicate 225 0x5A) = true ∧
    ∀ c ∈ List.replicate 225 0x5A, IsLetter c := by decide +kernel

theorem witness_vec2str : InFlight 0x13 (.vec2str [9, -1]) ∧ LongWitness 0x13 ∧
    (vecOk [] = true ∧ ∀ v ∈ ([] : Vec), 0 ≤ v ∧ v ≤ 25) ∧ (vecOk [0, 25] = true ∧ ∀ v ∈ [(0 : Int), 25], 0 ≤ v ∧ v ≤ 25) ∧
    (∃ v ∈ [(0 : Int), 26], v < 0 ∨ 25 < v) ∧ ∃ v ∈ [(-1 : Int)], v < 0 ∨ 25 < v := by decide

theorem witness_str2mat : InFlight 0x14 (.str2mat [0x47]) ∧ LongWitness 0x14 ∧
    (strOk [] = true ∧ ([] : Str).length = 0 * 0 ∧ ∀ c ∈ ([] : Str), IsLetter c) ∧
    (strOk [0x47, 0x59, 0x42, 0x4E] = true ∧ [0x47, 0x59, 0x42, 0x4E].length = 2 * 2 ∧
      ∀ c ∈ [0x47, 0x59, 0x42, 0x4E], IsLetter c) ∧
    ([0x41, 0x42, 0x31, 0x44].length = 2 * 2 ∧ ∃ c ∈ [0x41, 0x42, 0x31, 0x44], ¬IsLetter c) ∧
    (∀ side ≤ [0x41, 0x31].length, [0x41, 0x31].length ≠ side * side) := by decide

theorem witness_mat2str : InFlight 0x15 (.mat2str [[1, 2], [3]]) ∧ WideWitness 0x15 ∧
    ([[1, 2], [3]] ≠ ([] : Mat) ∧ ¬Square [[1, 2], [3]]) ∧ ([[]] ≠ ([] : Mat) ∧ ¬Square [[]]) ∧
    ([[1, 2], [3, 26]] ≠ ([] : Mat) ∧ Square [[1, 2], [3, 26]] ∧
      ∃ row ∈ [[(1 : Int), 2], [3, 26]], ∃ v ∈ row, v < 0 ∨ 25 < v) ∧
    ([[0, 25], [1, 13]] ≠ ([] : Mat) ∧ Square [[0, 25], [1, 13]] ∧ matOk [[0, 25], [1, 13]] = true ∧
      ∀ row ∈ [[(0 : Int), 25], [1, 13]], ∀ v ∈ row, 0 ≤ v ∧ v ≤ 25) := by decide

theorem witness_codecRoundTrips : (IsLetter 0x41 ∧ IsLetter 0x5A ∧ IsLetter 0x61 ∧ IsLetter 0x7A) ∧
    ((0 : Int) ≤ 0 ∧ (0 : Int) ≤ 25) ∧ ((0 : Int) ≤ 25 ∧ (25 : Int) ≤ 25) ∧
    (Square [] ∧ Square [[0, 25], [1, 13]] ∧ ∀ row ∈ [[(0 : Int), 25], [1, 13]], ∀ v ∈ row, 0 ≤ v ∧ v ≤ 25) ∧
    (stringToVector [0x48, 0x65]).toOption = some [7, 4] := by decide

theorem witness_transp : InFlight 0x20 (.transp [[1, 2, 3]]) ∧ WideWitness 0x20 ∧
    ([[1, 2], [3, 4]] ≠ ([] : Mat) ∧ Square [[1, 2], [3, 4]] ∧ matOk [[1, 2], [3, 4]] = true) ∧
    (([] : Mat) = [] ∨ ¬Square []) ∧ ([[1, 2, 3]] = ([] : Mat) ∨ ¬Square [[1, 2, 3]]) := by decide

/-- The completing clause at both ends of both indices and at size 1; the refusing clause by each of its six grounds. -/
theorem witness_minor : InFlight 0x21 (.minor [[1, 2], [3, 4]] 2 (-1)) ∧ WideWitness 0x21 ∧
    ([[1, 2], [3, 4]] ≠ ([] : Mat) ∧ Square [[1, 2], [3, 4]] ∧ matOk [[1, 2], [3, 4]] = true ∧ (0 : Int) ≤ 0 ∧
      (0 : Int) < [[(1 : Int), 2], [3, 4]].length ∧ (0 : Int) ≤ 1 ∧ (1 : Int) < [[(1 : Int), 2], [3, 4]].length) ∧
    ([[7]] ≠ ([] : Mat) ∧ Square [[7]] ∧ matOk [[7]] = true ∧ (0 : Int) < [[(7 : Int)]].length) ∧
    ¬Square [[1, 2], [3]] ∧ (-1 : Int) < 0 ∧ ([[(1 : Int), 2], [3, 4]].length : Int) ≤ 2 := by decide

theorem witness_determinantExpands : ¬Square [[1, 2], [3]] ∧
    (Square [[1, 2, 3], [4, 5, 6], [7, 8, 10]] ∧ 3 ≤ [[(1 : Int), 2, 3], [4, 5, 6], [7, 8, 10]].length) := by decide

theorem matrixOf_one (a : Int) : (matrixOf 1 [[a]]).det = a := by simp [matrixOf, entry]

theorem matrixOf_large : (matrixOf 2 [[1099511627776, 0], [0, 1099511627776]]).det = 1208925819614629174706176 := by
  simp [matrixOf, entry, Matrix.det_fin_two]

theorem witness_detDelivers : ([[1, 2], [3]] ≠ ([] : Mat) ∧ ¬Square [[1, 2], [3]]) ∧
    ([[9223372036854775807]] ≠ ([] : Mat) ∧ Square [[9223372036854775807]] ∧
      inIntRange (matrixOf 1 [[9223372036854775807]]).det = true) ∧
    ([[1099511627776, 0], [0, 1099511627776]] ≠ ([] : Mat) ∧ Square [[1099511627776, 0], [0, 1099511627776]] ∧
      inIntRange (matrixOf 2 [[1099511627776, 0], [0, 1099511627776]]).det = false) := by
  rw [matrixOf_one, matrixOf_large]
  decide

theorem witness_detRuns : InFlight 0x22 (.det [[1, 2], [3]]) ∧ WideWitness 0x22 ∧
    ([[1, 2], [3]] ≠ ([] : Mat) ∧ determinant [[1, 2], [3]] = .error .invalidMatrixSize) ∧
    (determinant [[-9223372036854775808]] = .ok (-9223372036854775808) ∧ inIntRange (-9223372036854775808) = true) ∧
    (determinant [[1099511627776, 0], [0, 1099511627776]] = .ok 1208925819614629174706176 ∧
      inIntRange 1208925819614629174706176 = false) :=
  ⟨by decide, by decide, ⟨by decide, rfl⟩, ⟨rfl, by decide⟩, rfl, by decide⟩

theorem witness_determinantBounded :
    (Square [[25, -25], [25, 25]] ∧ (∀ row ∈ [[(25 : Int), -25], [25, 25]], ∀ v ∈ row, |v| ≤ ((25 : Nat) : Int)) ∧
      determinant [[25, -25], [25, 25]] = .ok 1250) ∧
    (List.replicate 9 (List.replicate 9 25) ≠ ([] : Mat) ∧ Square (List.replicate 9 (List.replicate 9 25)) ∧
      (List.replicate 9 (List.replicate 9 (25 : Int))).length ≤ 9 ∧
      ∀ row ∈ List.replicate 9 (List.replicate 9 (25 : Int)), ∀ v ∈ row, 0 ≤ v ∧ v ≤ 25) :=
  ⟨⟨by decide, by decide, rfl⟩, by decide⟩

theorem witness_matvec : InFlight 0x23 (.matvec [[-1], []] [1, 2]) ∧ WideWitness 0x23 ∧
    (matOk [[1]] = true ∧ 225 < (226 : Word).toNat ∧ FlightOf 0x23 (wordsOf (matItems [[1]]) ++ [226])) ∧
    ([[1, 2], [3]] ≠ ([] : Mat) ∧ ∃ row ∈ [[(1 : Int), 2], [3]], row.length ≠ [(1 : Int), 1].length) ∧
    ([[1, 2, 3], [4, 5, 6]] ≠ ([] : Mat) ∧ matOk [[1, 2, 3], [4, 5, 6]] = true ∧
      ∀ row ∈ [[(1 : Int), 2, 3], [4, 5, 6]], row.length = [(1 : Int), 1, 1].length) ∧
    ([[], []] ≠ ([] : Mat) ∧ matOk [[], []] = true ∧ ∀ row ∈ [([] : List Int), []], row.length = ([] : Vec).length) := by
  decide

theorem witness_invq : InFlight 0x24 (.invq [[1, 2], [3, 4]]) ∧ WideWitness 0x24 ∧
    ([[1, 2], [3]] ≠ ([] : Mat) ∧ ¬Square [[1, 2], [3]]) ∧
    ([[0]] ≠ ([] : Mat) ∧ Square [[0]] ∧ (matrixOf 1 [[0]]).det = 0) :=
  ⟨by decide, by decide, by decide, by decide, by decide, matrixOf_one 0⟩

theorem witness_invq_found : [[5]] ≠ ([] : Mat) ∧ Square [[5]] ∧ (matrixOf 1 [[5]]).det ≠ 0 ∧
    (gridValues 1 (valueAt (matrixOf 1 [[5]]).adjugate) ++ [(matrixOf 1 [[5]]).det]).all inIntRange = true := by
  refine ⟨by decide, by decide, by rw [matrixOf_one]; decide, ?_⟩
  rw [matrixOf_one, Matrix.adjugate_subsingleton]
  decide

theorem witness_invq_overflow : [[1099511627776, 0], [0, 1099511627776]] ≠ ([] : Mat) ∧
    Square [[1099511627776, 0], [0, 1099511627776]] ∧
    (matrixOf 2 [[1099511627776, 0], [0, 1099511627776]]).det ≠ 0 ∧
    (gridValues 2 (valueAt (matrixOf 2 [[1099511627776, 0], [0, 1099511627776]]).adjugate) ++
      [(matrixOf 2 [[1099511627776, 0], [0, 1099511627776]]).det]).all inIntRange = false := by
  refine ⟨by decide, by decide, by rw [matrixOf_large]; decide, ?_⟩
  rw [matrixOf_large, List.all_append, Bool.and_eq_false_iff]
  exact .inr (by decide)

theorem witness_mod : InFlight 0x30 (.mod (-9223372036854775808) 26) ∧ ((1 : Int) ≤ 1 ∧ inIntRange 1 = true) ∧
    ((1 : Int) ≤ 9223372036854775807 ∧ inIntRange 9223372036854775807 = true) ∧ (0 : Int) < 1 := by decide

theorem witness_gcd : InFlight 0x31 (.gcd 15 26) ∧ ((0 : Int) ≤ 15 ∧ (0 : Int) < 1) ∧
    ((0 : Int) ≤ 0 ∧ (Instr.gcd 0 0).wellFormed = true) ∧
    ((0 : Int) ≤ 9223372036854775807 ∧ (Instr.gcd 9223372036854775807 9223372036854775807).wellFormed = true) ∧
    ((-1 : Int) < 0 ∨ (6 : Int) < 0) ∧ ((6 : Int) < 0 ∨ (-1 : Int) < 0) := by decide

theorem witness_egcd : InFlight 0x32 (.egcd 240 46) ∧
    ((0 : Int) ≤ 15 ∧ (0 : Int) < 26 ∧ extendedGCD 26 (15 % 26) = (1, -4, 7)) ∧
    ((0 : Int) ≤ 0 ∧ (Instr.egcd 0 0).wellFormed = true) ∧
    ((0 : Int) ≤ 9223372036854775807 ∧ (Instr.egcd 9223372036854775807 9223372036854775807).wellFormed = true) ∧
    ((-1 : Int) < 0 ∨ (5 : Int) < 0) ∧ ((5 : Int) < 0 ∨ (-1 : Int) < 0) := by decide

theorem witness_modinv : InFlight 0x33 (.modinv 3 26) ∧
    ((0 : Int) ≤ 3 ∧ (1 : Int) ≤ 26 ∧ inIntRange 26 = true ∧ Int.gcd 3 26 = 1) ∧
    ((0 : Int) ≤ 0 ∧ (1 : Int) ≤ 1 ∧ inIntRange 1 = true ∧ Int.gcd 0 1 = 1) ∧
    ((0 : Int) ≤ 13 ∧ (1 : Int) ≤ 26 ∧ Int.gcd 13 26 ≠ 1) ∧ ((-1 : Int) < 0 ∨ (26 : Int) < 1) ∧
    ((3 : Int) < 0 ∨ (0 : Int) < 1) := by decide

theorem witness_invmodSteps : InFlight 0x34 (.invmod [[3, 3], [2, 5]] 26) ∧ WideWitness 0x34 ∧
    ([[1]] = ([] : Mat) ∨ (0 : Int) < 1) ∧ (([] : Mat) = [] ∨ (26 : Int) < 1) ∧
    ([[1, 2], [3]] ≠ ([] : Mat) ∧ (1 : Int) ≤ 1 ∧ ¬Square [[1, 2], [3]]) ∧
    ([[13]] ≠ ([] : Mat) ∧ (1 : Int) ≤ 26 ∧ determinant [[13]] = .ok 13 ∧ Int.gcd (13 % 26) 26 ≠ 1) :=
  ⟨by decide, by decide, by decide, by decide, by decide, by decide, by decide, rfl, by decide⟩

theorem witness_invmodSteps_found : [[3, 3], [2, 5]] ≠ ([] : Mat) ∧ (1 : Int) ≤ 26 ∧
    (Instr.invmod [[3, 3], [2, 5]] 26).wellFormed = true ∧ determinant [[3, 3], [2, 5]] = .ok 9 ∧
    Int.gcd (9 % 26) 26 = 1 ∧
    ∀ i < [[(3 : Int), 3], [2, 5]].length, ∀ j < [[(3 : Int), 3], [2, 5]].length,
      determinant (minorOf [[3, 3], [2, 5]] i j) = .ok (entry [[5, 2], [3, 3]] i j) := by
  refine ⟨by decide, by decide, by decide, rfl, by decide, fun i hi j hj => ?_⟩
  have hi2 : i < 2 := hi
  have hj2 : j < 2 := hj
  interval_cases i <;> interval_cases j <;> rfl

theorem witness_invmodInverts :
    ([[13]] ≠ ([] : Mat) ∧ Square [[13]] ∧ (1 : Int) ≤ 26 ∧ (Instr.invmod [[13]] 26).wellFormed = true ∧
      Int.gcd (matrixOf 1 [[13]]).det 26 ≠ 1) ∧
    ([[-1]] ≠ ([] : Mat) ∧ Square [[-1]] ∧ (1 : Int) ≤ 26 ∧ (Instr.invmod [[-1]] 26).wellFormed = true ∧
      Int.gcd (matrixOf 1 [[-1]]).det 26 = 1) ∧
    ((1 : Int) ≤ 1 ∧ (Instr.invmod [[-1]] 1).wellFormed = true ∧ Int.gcd (matrixOf 1 [[-1]]).det 1 = 1) := by
  rw [matrixOf_one, matrixOf_one]
  decide

theorem witness_stepThree : ((1 : Int) ≤ 26 ∧ gcdZ (modZ (-276079) 26) 26 = 1) ∧
    ((1 : Int) ≤ 1 ∧ gcdZ (modZ 0 1) 1 = 1) := by decide

/-! Key generator: the blocks of V140. -/

theorem invertible_ddcf : Invertible26 (blockMatrix 2 [3, 3, 2, 5]) := ⟨[[15, 17], [20, 9]], rfl⟩

theorem not_invertible_of_none {mat : Mat} (h : inverseMatrixMod mat 26 = .ok none) : ¬Invertible26 mat := by
  rintro ⟨inverse, hi⟩
  rw [h] at hi
  cases hi

theorem not_invertible_zero : ¬Invertible26 (blockMatrix 2 [0, 0, 0, 0]) := not_invertible_of_none rfl

/-- GENKEY 2 issued, nothing drawn yet. -/
def genkeyState : State := inFlightOf (.genkey 2)

theorem genkeyState_issued : GenkeyIssued 2 genkeyState :=
  { atLeastOne := by decide, atMostFifteen := by decide, flight := by decide, busy := by decide, noSymbols := rfl,
    noRequest := rfl }

theorem witness_genkeyTests : InFlight 0x40 (.genkey 16) ∧ ((0 : Int) ≤ 0 ∧ (15 : Int) < 16) ∧
    ((1 : Int) ≤ 1 ∧ (1 : Int) ≤ 15 ∧ ([] : List Symbol).length < (1 : Int).toNat * (1 : Int).toNat) ∧
    ((1 : Int) ≤ 15 ∧ (15 : Int) ≤ 15 ∧ (List.replicate 224 (0 : Symbol)).length < (15 : Int).toNat * (15 : Int).toNat) := by
  decide +kernel

theorem witness_genkeyTests_full : (1 : Int) ≤ 2 ∧ (2 : Int) ≤ 15 ∧
    ({ genkeyState with candidate := [3, 3, 2, 5] } : State).candidate.length = (2 : Int).toNat * (2 : Int).toNat ∧
    Invertible26 (blockMatrix (2 : Int).toNat [3, 3, 2, 5]) ∧
    ({ genkeyState with candidate := [0, 0, 0, 0] } : State).candidate.length = (2 : Int).toNat * (2 : Int).toNat ∧
    ¬Invertible26 (blockMatrix (2 : Int).toNat [0, 0, 0, 0]) :=
  ⟨by decide, by decide, by decide, invertible_ddcf, by decide, not_invertible_zero⟩

theorem witness_genkeyCompletes : GenkeyIssued 2 genkeyState ∧
    (∀ block ∈ [[(0 : Symbol), 0, 0, 0]], block.length = 2 * 2 ∧ ¬Invertible26 (blockMatrix 2 block)) ∧
    [(3 : Symbol), 3, 2, 5].length = 2 * 2 ∧ Invertible26 (blockMatrix 2 [3, 3, 2, 5]) := by
  refine ⟨genkeyState_issued, fun block hb => ?_, by decide, invertible_ddcf⟩
  obtain rfl : block = [0, 0, 0, 0] := by simpa using hb
  exact ⟨by decide, not_invertible_zero⟩

theorem witness_genkeyReturns :
    exec (.genkey 2) { genkeyState with candidate := [3, 3, 2, 5] } =
      .next (reached (exec (.genkey 2) { genkeyState with candidate := [3, 3, 2, 5] })) ∧
    genkeyState.status.state ≠ .done ∧
    (reached (exec (.genkey 2) { genkeyState with candidate := [3, 3, 2, 5] })).status.state = .done ∧
    (reached (exec (.genkey 2) { genkeyState with candidate := [3, 3, 2, 5] })).status.code = .ok ∧
    [(3 : Symbol), 3, 2, 5].length ≤ (2 : Int).toNat * (2 : Int).toNat :=
  ⟨eq_of_goesOn (by decide), by decide, by decide, by decide, by decide⟩

theorem witness_genkeyNeedNotEnd : GenkeyIssued 2 genkeyState ∧ genkeyState.script = [] ∧ genkeyState.recurring = [] ∧
    (∀ block ∈ [[(0 : Symbol), 0, 0, 0], [0, 0, 0, 0]], block.length = 2 * 2 ∧ ¬Invertible26 (blockMatrix 2 block)) := by
  refine ⟨genkeyState_issued, rfl, rfl, fun block hb => ?_⟩
  obtain rfl : block = [0, 0, 0, 0] := by simpa using hb
  exact ⟨by decide, not_invertible_zero⟩

/-- GENKEY 2 over P7's stream, 0 for ever, every draw answered. -/
def zerosState : State := { genkeyState with recurring := [.rngTurn], stream := { first := [], again := [0] } }

theorem witness_genkeyNeedNotEnd_answered : GenkeyIssued 2 zerosState ∧ zerosState.script = [] ∧
    zerosState.recurring = [.rngTurn] ∧ ∀ r, ¬Invertible26 (blockMatrix 2 (streamBlock 2 zerosState r)) := by
  refine ⟨{ genkeyState_issued with }, rfl, rfl, fun r => ?_⟩
  have zero : ∀ p, zerosState.stream.symbolAt p = 0 := fun p => by
    simp [SymbolStream.symbolAt, zerosState, Nat.mod_one]
  rw [show streamBlock 2 zerosState r = [0, 0, 0, 0] by simp [streamBlock, zero, List.range_succ]]
  exact not_invertible_zero

/-- The stream of P4, 0,0,0,0, 3,3,2,5, and free symbols after that: its second block is invertible. -/
def answeredState : State :=
  { genkeyState with recurring := [.rngTurn], stream := { first := [0, 0, 0, 0, 3, 3, 2, 5], again := [] } }

theorem witness_genkeyNeedNotEnd_ends : GenkeyIssued 2 answeredState ∧ answeredState.script = [] ∧
    answeredState.recurring = [.rngTurn] ∧ ∃ r, Invertible26 (blockMatrix 2 (streamBlock 2 answeredState r)) :=
  ⟨{ genkeyState_issued with }, rfl, rfl, 1, invertible_ddcf⟩

theorem witness_port : ((0 : BitVec 5).toNat < 26 ∧ (25 : BitVec 5).toNat < 26) ∧
    (26 ≤ (26 : BitVec 5).toNat ∧ 26 ≤ (31 : BitVec 5).toNat) ∧
    ({ genkeyState with rngReq := true } : State).rngReq = true ∧ genkeyState.rngReq = false := by decide

/-! States that meet the invariant: GENKEY waiting for its second symbol, and a command that has ended. -/

/-- GENKEY 2 waiting for its second symbol, which comes next. -/
def drawingState : State :=
  { genkeyState with candidate := [3], rngReq := true, symbolsTaken := 1, script := [.rngAck 3] }

theorem drawingState_drawing : Drawing drawingState :=
  ⟨{ cmd := 0x40, operands := [2] }, 2, [], by decide, by decide, by decide, by decide, by decide, by decide⟩

theorem drawingState_inv : Inv drawingState where
  argWf := by decide
  resWf := by decide
  resLenBound := by decide
  flagsClear := by decide
  reasonIff := by decide
  noResultOnFailure := by decide
  idleLength := by decide
  resultWords := by intro h; exact absurd h (by decide)
  noResultOutsideDone := by decide
  flightIffBusy := by decide
  sampledFromArg := by intro c h; cases h; decide
  portUse := fun _ => drawingState_drawing
  markSet := by decide
  seenInDone := by decide

theorem doneState_inv : Inv doneState where
  argWf := by decide
  resWf := by decide
  resLenBound := by decide
  flagsClear := by decide
  reasonIff := by decide
  noResultOnFailure := by decide
  idleLength := by decide
  resultWords := fun _ => ⟨[7], by decide, by decide⟩
  noResultOutsideDone := by decide
  flightIffBusy := by decide
  sampledFromArg := by intro c h; cases h
  portUse := by intro h; exact absurd h (by decide)
  markSet := by decide
  seenInDone := by decide

/-- C2S 'h' in flight. -/
def busyState : State := inFlightOf (.c2s 0x68)

theorem busyState_inv : Inv busyState where
  argWf := by decide
  resWf := by decide
  resLenBound := by decide
  flagsClear := by decide
  reasonIff := by decide
  noResultOnFailure := by decide
  idleLength := by decide
  resultWords := by intro h; exact absurd h (by decide)
  noResultOutsideDone := by decide
  flightIffBusy := by decide
  sampledFromArg := by intro c h; cases h; decide
  portUse := by intro h; exact absurd h (by decide)
  markSet := by decide
  seenInDone := by decide

theorem witness_symbolsTaken : Inv drawingState ∧ step drawingState = .next (reached (step drawingState)) ∧
    (reached (step drawingState)).symbolsTaken = drawingState.symbolsTaken + 1 :=
  ⟨drawingState_inv, eq_of_goesOn (by decide), by decide⟩

/-! Cipher engine. -/

theorem witness_encode : InFlight 0x50 (.encode [0x48] [0x64]) ∧ LongWitness 0x50 ∧
    (strOk [0x48] = true ∧ 225 < (226 : Word).toNat ∧ FlightOf 0x50 (wordsOf (strItems [0x48]) ++ [226])) ∧
    ([0x48, 0x49].length * [0x48, 0x49].length ≠ [0x44, 0x44, 0x43].length) ∧
    (([] : Str).length * ([] : Str).length ≠ [0x41].length) ∧
    ([0x48, 0x31] ≠ [] ∧ [0x48, 0x31].length * [0x48, 0x31].length = [0x44, 0x44, 0x43, 0x46].length ∧
      ∃ c ∈ [0x44, 0x44, 0x43, 0x46] ++ [0x48, 0x31], ¬IsLetter c) ∧
    ([0x48, 0x49] ≠ [] ∧ [0x48, 0x49].length * [0x48, 0x49].length = [0x44, 0x44, 0x43, 0x46].length ∧
      strOk [0x48, 0x49] = true ∧ ∀ c ∈ [0x44, 0x44, 0x43, 0x46] ++ [0x48, 0x49], IsLetter c) := by decide

theorem invertible_key : inverseMatrixMod (keyMatrix 2 [0x44, 0x44, 0x43, 0x46]) 26 = .ok (some [[15, 17], [20, 9]]) := rfl

theorem not_invertible_key : ¬Invertible26 (keyMatrix 2 [0x41, 0x41, 0x41, 0x41]) := not_invertible_of_none rfl

theorem witness_decode : InFlight 0x51 (.decode [0x56] [0x44]) ∧ LongWitness 0x51 ∧
    (strOk [0x48] = true ∧ 225 < (226 : Word).toNat ∧ FlightOf 0x51 (wordsOf (strItems [0x48]) ++ [226])) ∧
    ([0x48, 0x49].length * [0x48, 0x49].length ≠ [0x44, 0x44, 0x43].length) ∧
    ([0x48, 0x49] ≠ [] ∧ [0x48, 0x49].length * [0x48, 0x49].length = [0x41, 0x41, 0x31, 0x41].length ∧
      ∃ c ∈ [0x41, 0x41, 0x31, 0x41], ¬IsLetter c) := by decide

theorem witness_decode_invalidKey : [0x48, 0x31] ≠ [] ∧
    [0x48, 0x31].length * [0x48, 0x31].length = [0x41, 0x41, 0x41, 0x41].length ∧
    (∀ c ∈ [0x41, 0x41, 0x41, 0x41], IsLetter c) ∧
    ¬Invertible26 (keyMatrix [0x48, 0x31].length [0x41, 0x41, 0x41, 0x41]) :=
  ⟨by decide, by decide, by decide, not_invertible_key⟩

theorem witness_decode_text : [0x48, 0x31] ≠ [] ∧
    [0x48, 0x31].length * [0x48, 0x31].length = [0x44, 0x44, 0x43, 0x46].length ∧
    (∀ c ∈ [0x44, 0x44, 0x43, 0x46], IsLetter c) ∧
    Invertible26 (keyMatrix [0x48, 0x31].length [0x44, 0x44, 0x43, 0x46]) ∧ ∃ c ∈ [0x48, 0x31], ¬IsLetter c :=
  ⟨by decide, by decide, by decide, ⟨_, invertible_key⟩, by decide⟩

theorem witness_decode_found : [0x54, 0x43] ≠ [] ∧
    [0x54, 0x43].length * [0x54, 0x43].length = [0x44, 0x44, 0x43, 0x46].length ∧ strOk [0x54, 0x43] = true ∧
    (∀ c ∈ [0x44, 0x44, 0x43, 0x46] ++ [0x54, 0x43], IsLetter c) ∧
    inverseMatrixMod (keyMatrix [0x54, 0x43].length [0x44, 0x44, 0x43, 0x46]) 26 = .ok (some [[15, 17], [20, 9]]) :=
  ⟨by decide, by decide, by decide, by decide, invertible_key⟩

theorem witness_decodeUndoesEncode : [0x68, 0x49] ≠ [] ∧
    [0x68, 0x49].length * [0x68, 0x49].length = [0x44, 0x44, 0x43, 0x46].length ∧ strOk [0x68, 0x49] = true ∧
    strOk [0x44, 0x44, 0x43, 0x46] = true ∧ (∀ c ∈ [0x44, 0x44, 0x43, 0x46] ++ [0x68, 0x49], IsLetter c) ∧
    Invertible26 (keyMatrix [0x68, 0x49].length [0x44, 0x44, 0x43, 0x46]) :=
  ⟨by decide, by decide, by decide, by decide, by decide, ⟨_, invertible_key⟩⟩

theorem witness_sourceScenario : [0x48, 0x45].length ^ 2 ≠ [0x47, 0x59, 0x42].length ∧
    ([] : Str).length ^ 2 ≠ [0x41].length := by decide

/-! Encoding. -/

theorem witness_decodeOfEncode : (Instr.minor [[1, 2], [3]] (-9223372036854775808) 9223372036854775807).wellFormed = true ∧
    (Instr.matvec (List.replicate 15 (List.replicate 15 (-1))) [5]).wellFormed = true ∧
    (Instr.encode [] [0xFFFFFFFFFFFFFFFF]).wellFormed = true := by decide +kernel

theorem witness_encodeOfDecode : decode 0x23 [1, 1, 0xFFFFFFFFFFFFFFFF, 1, 1, 9] = .command (.matvec [[-1]] [1]) [9] := by
  decide

theorem witness_illegal : (256 ≤ (0x110 : Word).toNat ∨ (0x110 : Word).toNat % 256 ∉ opcodes) ∧
    (256 ≤ (0xFF : Word).toNat ∨ (0xFF : Word).toNat % 256 ∉ opcodes) ∧ State.reset.status.state ≠ .busy ∧
    FlightOf 0x110 [0x41] := by decide

/-- The bound 15 in a MAT, 225 in a STR, and both in MATVEC. -/
theorem witness_overCapacity_bounds : decode 0x22 [2, 2, 1, 2, 16, 5] = .overCapacity [5] ∧ 15 < (16 : Word).toNat ∧
    (0x22 : Word).toNat ∈ [0x15, 0x20, 0x21, 0x22, 0x24, 0x34] ∧ decode 0x50 [1, 0x41, 226, 5] = .overCapacity [5] ∧
    225 < (226 : Word).toNat ∧ (0x50 : Word).toNat ∈ [0x12, 0x13, 0x14, 0x50, 0x51] ∧
    decode 0x23 [1, 16] = .overCapacity [] ∧ decode 0x23 [1, 1, 9, 226] = .overCapacity [] ∧
    [(1 : Word), 1, 9] = wordsOf (matItems [[9]]) ∧ (225 : Word).toNat ≤ 225 := by decide

theorem witness_overCapacity : decode 0x22 [2, 2, 1, 2, 16, 5] = .overCapacity [5] ∧ FlightOf 0x22 [2, 2, 1, 2, 16, 5] ∧
    (0 : Word).toNat ≤ 15 ∧ (15 : Word).toNat ≤ 15 ∧ ∀ w ∈ [(15 : Word), 0, 1], w.toNat ≤ 15 :=
  ⟨by decide, by decide, by decide, by decide, by simp [Config.xlen]⟩

theorem witness_sample : 467 ≤ (List.replicate 467 (0 : Word)).length ∧ sampledWords 0x30 [5, 26, 9] = some [5, 26] ∧
    decode 0x30 [5, 26, 9] = .command (.mod 5 26) [9] ∧ decode 0x22 [16, 9] = .overCapacity [9] := by decide +kernel

/-! The machine. -/

theorem witness_stepRuns : busyState.inFlight = some { cmd := 0x10, operands := [0x68] } ∧
    decode 0x10 [0x68] = .command (.c2s 0x68) [] ∧ busyState.script = [] ∧
    ({ busyState with script := [.engine, .read 0x001] } : State).script = .engine :: [.read 0x001] := by decide

theorem witness_runOver : Inv doneState ∧ runOver doneState = true ∧ step doneState = .next (reached (step doneState)) :=
  ⟨doneState_inv, by decide, eq_of_goesOn (by decide)⟩

/-- ARG holds 5, 26: in IDLE a write of MOD's word to CMD samples both; of GENKEY's one; of STR2VEC's none, as its layout runs
over an unwritten word. -/
def idleState : State := { State.reset with arg := Memory.ofWords [5, 26] }

theorem witness_cmdWrite : idleState.status.state ≠ .busy ∧ sampledWords 0x30 idleState.arg.words = some [5, 26] ∧
    sampledWords 0x40 idleState.arg.words = some [5] ∧ doneState.status.state ≠ .busy ∧
    sampledWords 0x12 idleState.arg.words = none ∧ busyState.status.state = .busy := by decide

theorem witness_accessTable : 0 < 512 ∧ 511 < 512 ∧ ((0 : Word).toNat ≤ 1 ∧ (1 : Word).toNat ≤ 1) ∧
    (idleState.status.state ≠ .busy ∧ sampledWords 0x30 idleState.arg.words ≠ none) ∧ busyState.status.state = .busy ∧
    (idleState.arg.read 1 = some 26 ∧ idleState.arg.read 511 = none) ∧ idleState.status.state = .idle ∧
    (doneState.status.state = .done ∧ 0 < doneState.resLen ∧ doneState.doneSeen = true ∧ doneState.res.read 0 = some 7 ∧
      doneState.resLen ≤ 511) ∧
    (unseenState.status.state = .done ∧ 0 < unseenState.resLen ∧ unseenState.res.read 0 = some 7) ∧
    (0x004 ≤ 0x004 ∧ 0x1FF < 0x200) ∧ 0x600 ≤ 0x600 := by decide

theorem idleState_inv : Inv idleState where
  argWf := by decide
  resWf := by decide
  resLenBound := by decide
  flagsClear := by decide
  reasonIff := by decide
  noResultOnFailure := by decide
  idleLength := by decide
  resultWords := by intro h; exact absurd h (by decide)
  noResultOutsideDone := by decide
  flightIffBusy := by decide
  sampledFromArg := by intro c h; cases h
  portUse := by intro h; exact absurd h (by decide)
  markSet := by decide
  seenInDone := by decide

theorem witness_accessTable_inv : idleState.status.state = .idle ∧ Inv idleState ∧ doneState.status.state = .done ∧
    Inv doneState ∧ 0 < doneState.resLen := ⟨by decide, idleState_inv, by decide, doneState_inv, by decide⟩

theorem witness_softReset : 2 ≤ (2 : Word).toNat ∧ 2 ≤ (0xFFFFFFFFFFFFFFFF : Word).toNat := by decide

theorem witness_statusWord : Inv busyState ∧ busyState.status.state ≠ .done ∧ Inv doneState :=
  ⟨busyState_inv, by decide, doneState_inv⟩

theorem witness_reads : after (.read 0x400) doneState = .next (reached (after (.read 0x400) doneState)) ∧
    (reached (after (.read 0x400) unseenState)).refusalMark ≠ unseenState.refusalMark ∧
    (reached (after (.readBytes 0x2000 8) unseenState)).refusalMark ≠ unseenState.refusalMark ∧
    (reached (after (.read 0x001) unseenState)).doneSeen ≠ unseenState.doneSeen ∧
    after (.readBytes 0x2000 8) doneState = .next (reached (after (.readBytes 0x2000 8) doneState)) :=
  ⟨eq_of_goesOn (by decide), by decide, by decide, by decide, eq_of_goesOn (by decide)⟩

theorem witness_argKeeps : 0 < 512 ∧ 511 < 512 ∧ idleState.status.state ≠ .busy ∧ doneState.status.state ≠ .busy ∧
    Memory.wf 512 idleState.arg = true := by decide

theorem witness_resultWords : (List.replicate 512 (0 : Int)).length ≤ 512 ∧ ([] : List Int).length ≤ 512 ∧
    [(4 : Int), 5][1]? = some 5 ∧ [(4 : Int), 5].length ≤ 2 ∧ 511 < 512 ∧
    (∃ k, endedError State.reset .invalidKey = endedError State.reset k) ∧
    ∃ r, endedRefused State.reset .capacity = endedRefused State.reset r :=
  ⟨by decide +kernel, by decide, by decide, by decide, by decide, ⟨_, rfl⟩, _, rfl⟩

/-- The three transitions: reset, issue, completion. -/
theorem witness_transitions :
    (Inv { doneState with script := [.hardReset] } ∧ goesOn (step { doneState with script := [.hardReset] }) = true ∧
      (reached (step { doneState with script := [.hardReset] })).status.state ≠ doneState.status.state) ∧
    (Inv { doneState with script := [.write 0x000 0x00] } ∧
      goesOn (step { doneState with script := [.write 0x000 0x00] }) = true ∧
      (reached (step { doneState with script := [.write 0x000 0x00] })).status.state ≠ doneState.status.state) ∧
    (Inv busyState ∧ goesOn (step busyState) = true ∧ (reached (step busyState)).status.state ≠ busyState.status.state) :=
  ⟨⟨{ doneState_inv with }, by decide, by decide⟩, ⟨{ doneState_inv with }, by decide, by decide⟩, busyState_inv, by decide,
    by decide⟩

theorem witness_engineNeverWritesArg : step busyState = .next (reached (step busyState)) ∧ busyState.script = [] ∧
    step { idleState with script := [.write 0x000 0x30] } =
      .next (reached (step { idleState with script := [.write 0x000 0x30] })) :=
  ⟨eq_of_goesOn (by decide), rfl, eq_of_goesOn (by decide)⟩

theorem witness_frame : exec (.c2s 0x68) busyState = .next (reached (exec (.c2s 0x68) busyState)) ∧
    exec (.genkey 2) genkeyState = .next (reached (exec (.genkey 2) genkeyState)) :=
  ⟨eq_of_goesOn (by decide), eq_of_goesOn (by decide)⟩

theorem witness_ends : (Instr.c2s 0x68).wellFormed = true ∧ busyState.candidate.length ≤ 225 ∧
    exec (.c2s 0x68) busyState = .next (reached (exec (.c2s 0x68) busyState)) ∧ (Instr.genkey 2).wellFormed = true ∧
    (List.replicate 225 (0 : Symbol)).length ≤ 225 ∧
    exec (.genkey 2) genkeyState = .next (reached (exec (.genkey 2) genkeyState)) :=
  ⟨by decide, by decide, eq_of_goesOn (by decide), by decide, by decide +kernel, eq_of_goesOn (by decide)⟩

theorem witness_stepKeeps : Inv drawingState ∧ step drawingState = .next (reached (step drawingState)) ∧ Inv busyState ∧
    step busyState = .next (reached (step busyState)) :=
  ⟨drawingState_inv, eq_of_goesOn (by decide), busyState_inv, eq_of_goesOn (by decide)⟩

theorem witness_outcomeRests : idleState.status.state ≠ .busy ∧ doneState.status.state ≠ .busy ∧
    sampledWords 0x30 idleState.arg.words = some [5, 26] ∧
    sampledWords 0x30 ({ doneState with arg := Memory.ofWords [5, 26, 9] } : State).arg.words = some [5, 26] ∧
    ∀ n rest, decode 0x30 [5, 26] ≠ .command (.genkey n) rest := by
  refine ⟨by decide, by decide, by decide, by decide, fun n rest h => ?_⟩
  rw [show decode 0x30 [5, 26] = .command (.mod 5 26) [] by decide] at h
  cases h

theorem witness_hostSequence : (Instr.mod 5 26).wellFormed = true ∧ (∀ n, Instr.mod 5 26 ≠ .genkey n) ∧
    doneState.status.state ≠ .busy ∧ Memory.wf 512 doneState.arg = true ∧ doneState.script = [] :=
  by
  refine ⟨by decide, fun n h => ?_, by decide, by decide, rfl⟩
  cases h

theorem witness_polling : Inv { busyState with script := List.replicate 3 (.read 0x001) } ∧
    busyState.inFlight = some { cmd := 0x10, operands := [0x68] } ∧
    (∀ n rest, fetch { cmd := 0x10, operands := [0x68] } ≠ .command (.genkey n) rest) ∧
    ({ busyState with script := List.replicate 3 (.read 0x001) } : State).script = List.replicate 3 (.read 0x001) ∧
    busyState.recurring.all (fun e => !isHostEvent e) = true := by
  refine ⟨{ busyState_inv with }, by decide, fun n rest h => ?_, rfl, rfl⟩
  rw [show fetch { cmd := 0x10, operands := [0x68] } = .command (.c2s 0x68) [] by decide] at h
  cases h

theorem witness_byteMapped : after (.read 0x001) busyState = .next (hasRead busyState 0x001 1) ∧
    (hasRead busyState 0x001 1).reads = busyState.reads ++ [.word 0x001 1] ∧
    (4 % 8 ≠ 0 ∨ ([] : List Byte).length ≠ 8) ∧ (8 % 8 ≠ 0 ∨ [(0 : Byte), 1, 2, 3].length ≠ 8) :=
  ⟨rfl, rfl, by decide, by decide⟩

theorem witness_refusalMark : step (inFlightWith 0x00 []) = .next (reached (step (inFlightWith 0x00 []))) ∧
    (inFlightWith 0x00 []).refusalMark = false ∧ (reached (step (inFlightWith 0x00 []))).refusalMark = true ∧
    (inFlightWith 0x00 []).status.state ≠ .done ∧ (reached (step (inFlightWith 0x00 []))).status.state = .done ∧
    (reached (step (inFlightWith 0x00 []))).status.code = .refused ∧
    step { busyState with refusalMark := true } = .next (reached (step { busyState with refusalMark := true })) :=
  ⟨eq_of_goesOn (by decide), by decide, by decide, by decide, by decide, by decide, eq_of_goesOn (by decide)⟩

/-- The mark by a read of RES that R248 (b) gives no meaning, on both bus forms. -/
theorem witness_refusalMark_read :
    step { unseenState with script := [.read 0x400] } = .next (reached (step { unseenState with script := [.read 0x400] })) ∧
    ReadsResultAt { unseenState with script := [.read 0x400] } 0x400 ∧ unseenState.refusalMark = false ∧
    unseenState.doneSeen = false ∧ (reached (step { unseenState with script := [.read 0x400] })).refusalMark = true ∧
    step { unseenState with script := [.readBytes 0x2000 8] } =
      .next (reached (step { unseenState with script := [.readBytes 0x2000 8] })) ∧
    ReadsResultAt { unseenState with script := [.readBytes 0x2000 8] } 0x400 :=
  ⟨eq_of_goesOn (by decide), ⟨by decide, [], .inl rfl⟩, by decide, by decide, by decide, eq_of_goesOn (by decide),
    ⟨by decide, [], .inr rfl⟩⟩

theorem witness_resultStays : Inv { doneState with script := [.write 0x200 5] } ∧
    step { doneState with script := [.write 0x200 5] } =
      .next (reached (step { doneState with script := [.write 0x200 5] })) ∧ doneState.status.state = .done ∧
    Inv { doneState with script := [.hardReset] } ∧
    step { doneState with script := [.hardReset] } = .next (reached (step { doneState with script := [.hardReset] })) :=
  ⟨{ doneState_inv with }, eq_of_goesOn (by decide), by decide, { doneState_inv with }, eq_of_goesOn (by decide)⟩

theorem witness_race : Inv busyState ∧ busyState.status.state = .busy ∧ Inv drawingState ∧
    drawingState.status.state = .busy := ⟨busyState_inv, by decide, drawingState_inv, by decide⟩

end Sys2Proof.Tests
end

section
/-! The rules of one host access (the table of R52) and of the register STATUS, with the statements about the state that
follow from them. -/

namespace Sys2Proof.Machine

open Sys2Proof.Claims

/-! ## The host's next access -/

/-- With e as the very next event, the step is e on the state as it stands. -/
theorem after_eq_eventStep (e : Event) (s : State) : after e s = eventStep e s := rfl

@[simp] theorem isBusy_eq_true {s : State} : s.isBusy = true ↔ s.status.state = .busy := by simp [State.isBusy]

theorem isBusy_eq_false {s : State} : s.isBusy = false ↔ s.status.state ≠ .busy := by simp [State.isBusy]

theorem placeOf_res {i : Nat} (hi : i < 512) : placeOf (0x400 + i) = .res i := by
  have hregister : ∀ k < 4, 0x400 + i ≠ k := by omega
  have hlow : ¬ 0x400 + i < 0x200 := by omega
  have hwindow : 0x400 + i < 0x600 := by omega
  simp [placeOf, Config.resLenOffset, hregister, hlow, hwindow]

theorem after_read_ok {off : Nat} {s : State} {w : Word} (h : readWord off s = .ok w) :
    after (.read off) s = .next (logRead off (.word off w) s) := by
  simp [after_eq_eventStep, eventStep, busRead, h]

theorem after_read_error {off : Nat} {s : State} {v : Violation} (h : readWord off s = .error v) :
    after (.read off) s = refusedAs v := by
  simp [after_eq_eventStep, eventStep, busRead, h, violation, refusedAs]

/-! ## What each read returns (R52) -/

theorem readWord_resLen {s : State} (hb : s.status.state ≠ .busy) :
    readWord 0x002 s = .ok (BitVec.ofNat 64 s.resLen) := by
  simp [readWord, placeOf, isBusy_eq_false.mpr hb]

theorem readWord_res_value {s : State} {i : Nat} {w : Word} (hi : i < 512) (hd : s.status.state = .done)
    (hl : i < s.resLen) (hw : s.res.read i = some w) : readWord (0x400 + i) s = .ok w := by
  simp [readWord, placeOf_res hi, State.isBusy, State.resReadable, hd, hl, hw]

theorem readWord_res_beyond {s : State} {i : Nat} (hi : i < 512) (hb : s.status.state ≠ .busy) (hl : s.resLen ≤ i) :
    readWord (0x400 + i) s = .error .readOfUnspecified := by
  simp [readWord, placeOf_res hi, State.isBusy, State.resReadable, hb, Nat.not_lt.mpr hl]

/-! ## What a read leaves in the host's log -/

theorem logRead_status_eq (s : State) : logRead 0x001 (.word 0x001 s.status.word) s = hasReadStatus s := by
  simp [logRead, hasReadStatus, hasRead]

/-- A read below RES and not of STATUS: only the word read is added. -/
theorem logRead_below_res {off : Nat} (w : Word) (s : State) (h1 : off ≠ 0x001) (h4 : off < 0x400) :
    logRead off (.word off w) s = hasRead s off w := by
  simp [logRead, hasRead, h1, Nat.not_le.mpr h4]

/-- Once DONE has been observed a read of RES sets no mark (log 26). -/
theorem logRead_res_of_doneSeen {s : State} (i : Nat) (w : Word) (h : s.doneSeen = true) :
    logRead (0x400 + i) (.word (0x400 + i) w) s = hasRead s (0x400 + i) w := by
  simp [logRead, hasRead, h]

theorem after_read_status (s : State) : after (.read 0x001) s = .next (hasReadStatus s) := by
  rw [← logRead_status_eq]
  exact after_read_ok rfl

theorem after_read_resLen {s : State} (hb : s.status.state ≠ .busy) :
    after (.read 0x002) s = .next (hasRead s 0x002 (BitVec.ofNat 64 s.resLen)) := by
  rw [← logRead_below_res _ s (by decide) (by decide)]
  exact after_read_ok (readWord_resLen hb)

/-! ## After a completion (R32) -/

/-- With `RES_LEN` 0 the host may read that, and no word of RES. -/
theorem after_read_noResult {s : State} (hb : s.status.state ≠ .busy) (hl : s.resLen = 0) :
    after (.read 0x002) s = .next (hasRead s 0x002 0) ∧
      ∀ i < 512, after (.read (0x400 + i)) s = refusedAs .readOfUnspecified := by
  refine ⟨?_, fun i hi => after_read_error (readWord_res_beyond hi hb (hl ▸ Nat.zero_le i))⟩
  rw [after_read_resLen hb, hl]
  rfl

/-- Settles O47: RES_LEN and RES are read by the rules of R52 from what each completion leaves in them. -/
theorem resultWordsAreReadable : Obligations.ResultWordsAreReadable := by
  intro s values hlen
  refine ⟨?_, ?_⟩
  · rintro t rfl
    have hdone : (hasReadStatus (endedOk s values)).status.state = .done := rfl
    have hbusy : (hasReadStatus (endedOk s values)).status.state ≠ .busy := by simp [hdone]
    have hseen : (hasReadStatus (endedOk s values)).doneSeen = true := by simp [hasReadStatus, endedOk]
    refine ⟨after_read_status _, after_read_resLen hbusy, fun i v hv => ?_, fun i hi hi' => ?_⟩
    · obtain ⟨hi, -⟩ := List.getElem?_eq_some_iff.mp hv
      have hword : (Memory.ofWords (values.map Word.ofValue)).read i = some (Word.ofValue v) := by
        simp [Memory.read_ofWords, hv]
      rw [← logRead_res_of_doneSeen i _ hseen]
      exact after_read_ok (readWord_res_value (by omega) hdone hi hword)
    · exact after_read_error (readWord_res_beyond hi' hbusy hi)
  · rintro t (rfl | ⟨k, rfl⟩ | ⟨r, rfl⟩)
    · exact after_read_noResult (by simp [endedNothingFound]) rfl
    · exact after_read_noResult (by simp [endedError]) rfl
    · exact after_read_noResult (by simp [endedRefused]) rfl

/-! ## ARG (R31) -/

theorem exec_arg {i : Instr} {s t : State} (h : exec i s = .next t) : t.arg = s.arg := by
  rcases exec_cases i s with ⟨c, he⟩ | ⟨n, -, he | he⟩ <;> (rw [he] at h; cases h; rfl)

theorem engineTurn_arg {s t : State} (h : engineTurn s = .next t) : t.arg = s.arg := by
  rcases engineTurn_next h with ⟨-, rfl⟩ | ⟨c, -, ⟨i, rest, -, he⟩ | ⟨-, rfl⟩ | ⟨rest, -, rfl⟩⟩
  · rfl
  · exact exec_arg he
  · rfl
  · rfl

theorem sourceTurn_arg {s t : State} (h : sourceTurn s = .next t) : t.arg = s.arg := by
  rcases sourceTurn_cases s with ⟨-, he⟩ | ⟨-, he⟩ <;> (rw [he] at h; cases h; rfl)

/-- Of a write that has an effect, an issue leaves ARG alone. -/
theorem busWrite_cmd_arg {w : Word} {s t : State} (h : busWrite 0x000 w s = .next t) : t.arg = s.arg := by
  rcases busWrite_next h with ⟨-, -, operands, -, rfl⟩ | ⟨h0, -⟩ | ⟨i, -, h0, -⟩
  · rfl
  · exact absurd h0 (by decide)
  · omega

/-- Settles O49: each of these events, taken alone, leaves ARG as it was. -/
theorem engineNeverWritesArg : Obligations.EngineNeverWritesArg := by
  intro s t hstep hevent
  suffices harg : t.arg = s.arg from ⟨harg, fun i => by rw [harg]⟩
  rcases step_next hstep with ⟨-, hturn⟩ | ⟨e, rest, hscript, he⟩
  · exact (engineTurn_arg hturn).trans (nextRound_arg s)
  · have hallowed : e = .engine ∨ (∃ off, e = .read off) ∨ (∃ addr width, e = .readBytes addr width) ∨
        (∃ sym, e = .rngAck sym) ∨ e = .rngTurn ∨ ∃ w, e = .write 0x000 w := by
      simpa [hscript] using hevent
    rcases hallowed with rfl | ⟨off, rfl⟩ | ⟨addr, width, rfl⟩ | ⟨sym, rfl⟩ | rfl | ⟨w, rfl⟩
    · exact (engineTurn_arg he).trans (popScript_arg rest s)
    · obtain ⟨w, -, rfl⟩ := busRead_next he
      rfl
    · obtain ⟨-, w, -, rfl⟩ := busReadBytes_next he
      rfl
    · obtain ⟨-, x, -, rfl⟩ := rngAnswer_next he
      rfl
    · exact (sourceTurn_arg he).trans (popScript_arg rest s)
    · exact (busWrite_cmd_arg he).trans (popScript_arg rest s)

/-! ## CMD (R21) -/

theorem after_write_cmd_notBusy (w : Word) {s : State} (hb : s.status.state ≠ .busy) :
    after (.write 0x000 w) s = issue w s := by
  simp [after_eq_eventStep, eventStep, busWrite, placeOf, isBusy_eq_false.mpr hb]

theorem after_write_cmd_busy (w : Word) {s : State} (hb : s.status.state = .busy) :
    after (.write 0x000 w) s = refusedAs .accessWhileBusy := by
  simp [after_eq_eventStep, eventStep, busWrite, placeOf, isBusy_eq_true.mpr hb, violation, refusedAs]

theorem issue_of_sampled {w : Word} {operands : List Word} {s : State}
    (h : sampledWords w s.arg.words = some operands) : issue w s = .next (accept w operands s) := by
  simp [issue, h]

theorem issue_over_unwritten {w : Word} {s : State} (h : sampledWords w s.arg.words = none) :
    issue w s = refusedAs .issueOverUnwritten := by
  simp [issue, h, violation, refusedAs]

/-- Settles O40, by what the sampling of the layout answers. -/
theorem cmdWriteSamplesAndGoesBusy : Obligations.CmdWriteSamplesAndGoesBusy := by
  intro w s
  refine ⟨fun operands hb hs => ?_, fun hb hs => ?_, after_write_cmd_busy w, after_read_error rfl⟩
  · rw [after_write_cmd_notBusy w hb, issue_of_sampled hs]
    rfl
  · rw [after_write_cmd_notBusy w hb, issue_over_unwritten hs]

/-! ## Reset (R41, R240) -/

theorem after_hardReset (s : State) : after .hardReset s = .next (resetEngine s) := rfl

/-- A write of `CTRL.SRST` = 1 resets the engine, in every state (R24). -/
theorem after_softReset (s : State) : after (.write 0x003 1) s = .next (resetEngine s) := rfl

/-- Settles O43: both resets lead to `resetEngine`, whose fields are those of the reset state. -/
theorem resetStateIsTheSpecs : Obligations.ResetStateIsTheSpecs := by
  refine ⟨rfl, rfl, rfl, fun _ => rfl, fun _ => rfl, rfl, rfl, fun s => ⟨?_, resetEngine s, after_hardReset s, ?_⟩⟩
  · rw [after_hardReset, after_softReset]
  · exact ⟨rfl, rfl, rfl, rfl, rfl, rfl, rfl⟩

/-! ## STATUS (R22) -/

theorem EngineState.number_lt (x : EngineState) : x.number < 4 := by cases x <;> decide

theorem Code.number_lt (c : Code) : c.number < 16 := by
  rcases c with _ | (_ | _) | _ | _ <;> decide

theorem Reason.number_lt (r : Reason) : r.number < 256 := by
  rcases r with _ | (_ | _) <;> decide

/-- A field of `STATUS` is a quotient of the sum its word is made of. -/
theorem Status.word_field (st : Status) (start len : Nat) :
    (st.word.extractLsb' start len).toNat =
      (st.state.number + 16 * st.code.number + 256 * st.reason.number) / 2 ^ start % 2 ^ len := by
  have := st.state.number_lt
  have := st.code.number_lt
  have := st.reason.number_lt
  have hfits : st.state.number + 16 * st.code.number + 256 * st.reason.number < 2 ^ 64 := by omega
  rw [BitVec.extractLsb'_toNat, Nat.shiftRight_eq_div_pow, Status.word, BitVec.toNat_ofNat, Nat.mod_eq_of_lt hfits]

theorem Status.word_state (st : Status) : (st.word.extractLsb' 0 2).toNat = st.state.number := by
  have := st.state.number_lt
  rw [st.word_field]; omega

theorem Status.word_code (st : Status) : (st.word.extractLsb' 4 4).toNat = st.code.number := by
  have := st.state.number_lt
  have := st.code.number_lt
  rw [st.word_field]; omega

theorem Status.word_reason (st : Status) : (st.word.extractLsb' 8 8).toNat = st.reason.number := by
  have := st.state.number_lt
  have := st.code.number_lt
  have := st.reason.number_lt
  rw [st.word_field]; omega

theorem Status.word_gap (st : Status) : st.word.extractLsb' 2 2 = 0 := by
  have := st.state.number_lt
  apply BitVec.eq_of_toNat_eq
  rw [st.word_field]
  change _ = 0
  omega

theorem Status.word_high (st : Status) : st.word.extractLsb' 16 48 = 0 := by
  have := st.state.number_lt
  have := st.code.number_lt
  have := st.reason.number_lt
  apply BitVec.eq_of_toNat_eq
  rw [st.word_field]
  change _ = 0
  omega

/-- Settles O44: each field is one summand of the word, and the flags are those of the invariant. -/
theorem statusWordHasItsFields : Obligations.StatusWordHasItsFields := by
  refine ⟨rfl, fun s w => ⟨after_read_status s, rfl, fun hinv => hinv.flagsClear, fun hinv => hinv.reasonIff.symm⟩,
    fun st => ⟨?_, st.word_gap, ?_, ?_, st.word_high⟩⟩
  · rw [st.word_state]
    cases st.state <;> rfl
  · rw [st.word_code]
    rcases st.code with _ | (_ | _) | _ | _ <;> rfl
  · rw [st.word_reason]
    rcases st.reason with _ | (_ | _) <;> rfl

end Sys2Proof.Machine
end

section
/-! The window on a byte-addressed bus (R53, R54): an access of one whole word is the access of the word-addressed bus. -/

namespace Sys2Proof.Machine

open Sys2Proof.Claims

/-! ## A word and its bytes (R53) -/

/-- Bit i of the word that bytes make is bit i % 8 of byte i / 8. -/
theorem getLsbD_wordOfBytes {i : Nat} (hi : i < 64) (bs : List Byte) :
    (wordOfBytes bs).getLsbD i = (bs.getD (i / 8) 0).getLsbD (i % 8) := by
  induction bs generalizing i with
  | nil => simp [wordOfBytes]
  | cons b rest ih =>
    rw [wordOfBytes, BitVec.getLsbD_or, BitVec.getLsbD_shiftLeft, BitVec.getLsbD_setWidth]
    by_cases hlow : i < 8
    · have hbyte : i / 8 = 0 := by omega
      have hbit : i % 8 = i := by omega
      simp [hlow, hi, hbyte, hbit]
    · have hbyte : i / 8 = (i - 8) / 8 + 1 := by omega
      have hbit : (i - 8) % 8 = i % 8 := by omega
      have habove : b.getLsbD i = false := BitVec.getLsbD_of_ge b i (by omega)
      simp [hlow, hi, hbyte, habove, ih (i := i - 8) (by omega), hbit]

theorem wordOfBytes_bytesOf (w : Word) : wordOfBytes (bytesOf w) = w := by
  apply BitVec.eq_of_getLsbD_eq
  intro i (hi : i < 64)
  have hbyte : i / 8 < 8 := by omega
  have hbit : i % 8 < 8 := by omega
  rw [getLsbD_wordOfBytes hi]
  simp [bytesOf, hbyte, hbit, Nat.div_add_mod]

@[simp] theorem length_bytesOf (w : Word) : (bytesOf w).length = 8 := rfl

/-! ## Which byte accesses have a meaning (R54) -/

@[simp] theorem isOneWord_aligned (k : Nat) : isOneWord (8 * k) 8 = true := by simp [isOneWord]

theorem isOneWord_eq_false {addr width : Nat} (h : addr % 8 ≠ 0 ∨ width ≠ 8) : isOneWord addr width = false := by
  rcases h with h | h <;> simp [isOneWord, h]

theorem busWriteBytes_bytesOf (k : Nat) (w : Word) (s : State) :
    busWriteBytes (8 * k) (bytesOf w) s = busWrite k w s := by
  simp [busWriteBytes, wordOfBytes_bytesOf]

theorem busReadBytes_of_readWord {k : Nat} {w : Word} {s : State} (h : readWord k s = .ok w) :
    busReadBytes (8 * k) 8 s = .next (logRead k (.bytes (8 * k) (bytesOf w)) s) := by
  simp [busReadBytes, h]

theorem busWriteBytes_notOneWord {addr : Nat} {bs : List Byte} (h : addr % 8 ≠ 0 ∨ bs.length ≠ 8) (s : State) :
    busWriteBytes addr bs s = refusedAs .notOneWord := by
  simp [busWriteBytes, isOneWord_eq_false h, violation, refusedAs]

theorem busReadBytes_notOneWord {addr width : Nat} (h : addr % 8 ≠ 0 ∨ width ≠ 8) (s : State) :
    busReadBytes addr width s = refusedAs .notOneWord := by
  simp [busReadBytes, isOneWord_eq_false h, violation, refusedAs]

/-! ## The two bus forms agree -/

/-- Where a word offset reads w, its eight bytes read as w's, and everything else is as after the read of the word. -/
theorem after_readBytes_of_read {k : Nat} {w : Word} {s t : State} (h : after (.read k) s = .next t)
    (hw : t.reads = s.reads ++ [.word k w]) :
    after (.readBytes (8 * k) 8) s = .next { t with reads := s.reads ++ [.bytes (8 * k) (bytesOf w)] } := by
  obtain ⟨v, hv, rfl⟩ := busRead_next h
  obtain rfl : v = w := by simpa [logRead] using hw
  exact busReadBytes_of_readWord hv

/-- Settles O57: the bytes of a word make that word again, and any access that is not one whole word is refused. -/
theorem byteMappedWindowIsLittleEndian : Obligations.ByteMappedWindowIsLittleEndian := by
  refine ⟨fun s k w => ⟨busWriteBytes_bytesOf k w s, fun t => after_readBytes_of_read⟩, fun s addr bs h => ⟨?_, ?_⟩⟩
  · exact busWriteBytes_notOneWord h s
  · exact busReadBytes_notOneWord h s

end Sys2Proof.Machine
end

section
/-! Which command words are illegal (R82), and what becomes of one: its issue samples nothing, the engine's turn refuses it. -/

namespace Sys2Proof

open Sys2Proof.Machine Sys2Proof.Claims

/-! ## The fields of a command word (R70) -/

theorem opField_eq_mod (w : Word) : opField w = w.toNat % 256 := by
  rw [opField, BitVec.extractLsb'_toNat, Nat.shiftRight_zero]

theorem rsvField_eq_div (w : Word) : rsvField w = w.toNat / 256 := by
  have hword : w.toNat < 2 ^ 64 := w.isLt
  rw [rsvField, BitVec.extractLsb'_toNat, Nat.shiftRight_eq_div_pow]
  omega

theorem rsvField_ne_zero_iff (w : Word) : rsvField w ≠ 0 ↔ 256 ≤ w.toNat := by
  rw [rsvField_eq_div]; omega

/-! ## The opcode map (R80) -/

/-- The parse of a command's operands never ends in the verdict on an unknown opcode. -/
theorem Decoded.ofParsed_ne_illegal {α : Type} (f : α → Instr) (p : Parsed α) : Decoded.ofParsed f p ≠ .illegal := by
  cases p <;> simp [Decoded.ofParsed]

theorem decodeOp_ne_illegal {op : Nat} (h : op ∈ opcodes) (args : List Word) : decodeOp op args ≠ .illegal := by
  fin_cases h <;> exact Decoded.ofParsed_ne_illegal _ _

theorem decodeOp_eq_illegal {op : Nat} (h : op ∉ opcodes) (args : List Word) : decodeOp op args = .illegal := by
  simp only [opcodes, List.mem_cons, List.not_mem_nil, or_false, not_or] at h
  simp [decodeOp, h]

theorem decodeOp_eq_illegal_iff (op : Nat) (args : List Word) : decodeOp op args = .illegal ↔ op ∉ opcodes :=
  ⟨fun h hmem => decodeOp_ne_illegal hmem args h, fun h => decodeOp_eq_illegal h args⟩

theorem decode_eq_illegal_iff (cmd : Word) (args : List Word) :
    decode cmd args = .illegal ↔ 256 ≤ cmd.toNat ∨ cmd.toNat % 256 ∉ opcodes := by
  rw [← rsvField_ne_zero_iff, ← opField_eq_mod, ← decodeOp_eq_illegal_iff _ args]
  by_cases hrsv : rsvField cmd = 0 <;> simp [decode, hrsv]

theorem sampledWords_of_illegal {cmd : Word} {args : List Word} (h : decode cmd args = .illegal) :
    sampledWords cmd args = some [] := by
  simp [sampledWords, h]

end Sys2Proof

namespace Sys2Proof.Machine

open Sys2Proof.Claims

/-! ## The turn that refuses an illegal word (R82, R219) -/

theorem complete_refused (r : RefuseReason) (s : State) : complete (.refused r) s = endedRefused s r := by
  simp [complete, endedRefused, Completion.status, Completion.code, Completion.reason, Completion.result,
    Completion.isRefused, Memory.ofWords, Memory.ofWordsFrom]

theorem step_of_script_nil {s : State} (h : s.script = []) : step s = engineTurn (newRound s) := by
  simp only [step, h]
  rfl

theorem engineTurn_of_illegal {c : InFlight} {s : State} (hc : s.inFlight = some c) (h : fetch c = .illegal) :
    engineTurn s = .next (endedRefused s .illegalCommand) := by
  simp [engineTurn, hc, h, refuse, complete_refused]

/-- Settles O35, by the two fields of the word: only R80's opcodes with a zero RSV field reach a parse, which never answers
illegal. -/
theorem everyOtherWordIsIllegal : Obligations.EveryOtherWordIsIllegal := by
  intro cmd args
  refine ⟨decode_eq_illegal_iff cmd args, fun hword => ⟨fun s hb => ?_, fun s hscript hflight => ?_⟩⟩
  · have hsampled : sampledWords cmd s.arg.words = some [] :=
      sampledWords_of_illegal ((decode_eq_illegal_iff cmd _).mpr hword)
    rw [after_write_cmd_notBusy cmd hb, issue_of_sampled hsampled]
    rfl
  · rw [step_of_script_nil hscript]
    exact engineTurn_of_illegal hflight ((decode_eq_illegal_iff cmd args).mpr hword)

end Sys2Proof.Machine
end

section
/-! How the engine's turn reads the command in flight, and the state each outcome of it ends in: the layer between the decoder
and the rules of the single commands. -/

namespace Sys2Proof.Machine

open Sys2Proof.Claims

/-! ## The turn on a command in flight (R84, R219) -/

theorem engineTurn_of_command {c : InFlight} {i : Instr} {rest : List Word} {s : State} (hc : s.inFlight = some c)
    (h : fetch c = .command i rest) : engineTurn s = exec i s := by
  simp [engineTurn, hc, h]

theorem engineTurn_of_overCapacity {c : InFlight} {rest : List Word} {s : State} (hc : s.inFlight = some c)
    (h : fetch c = .overCapacity rest) : engineTurn s = .next (endedRefused s .capacity) := by
  simp [engineTurn, hc, h, refuse, complete_refused]

theorem runsAs_of_decode {op : Word} {i : Instr}
    (h : i.wellFormed = true → decode op i.operandWords = .command i []) : RunsAs op i := by
  intro hwf s hscript hflight
  rw [step_of_script_nil hscript]
  exact engineTurn_of_command hflight (h hwf)

theorem endsOverCapacity_of_decode {op : Word} {operands rest : List Word}
    (h : decode op operands = .overCapacity rest) : EndsOverCapacity op operands := by
  intro s hscript hflight
  rw [step_of_script_nil hscript]
  exact engineTurn_of_overCapacity hflight h

/-! ## A length word over its bound (R74 to R77) -/

theorem Parser.andThen_overCapacity {α β : Type} {p : Parser α} {ws rest : List Word} (f : α → Parser β)
    (h : p ws = .overCapacity rest) : p.andThen f ws = .overCapacity rest := by simp [Parser.andThen, h]

theorem parseStr_overCapacity {w : Word} (h : 225 < w.toNat) (rest : List Word) :
    parseStr (w :: rest) = .overCapacity rest :=
  Parser.andThen_overCapacity _ (parseLength_over h rest)

theorem parseVec_overCapacity {w : Word} (h : 225 < w.toNat) (rest : List Word) :
    parseVec (w :: rest) = .overCapacity rest :=
  Parser.andThen_overCapacity _ (parseLength_over h rest)

theorem parseRow_overCapacity {w : Word} (h : 15 < w.toNat) (rest : List Word) :
    parseRow (w :: rest) = .overCapacity rest :=
  Parser.andThen_overCapacity _ (parseLength_over h rest)

theorem parseMat_overCapacity_count {w : Word} (h : 15 < w.toNat) (rest : List Word) :
    parseMat (w :: rest) = .overCapacity rest :=
  Parser.andThen_overCapacity _ (parseLength_over h rest)

/-- After items that are in order, and before the last, an item that is over capacity stops the parse. -/
theorem parseMany_overCapacity {α : Type} {p : Parser α} {layout : α → List Word} {items : List α} {k : Nat}
    {ws rest : List Word} (hitems : ∀ a ∈ items, ∀ rest, p (layout a ++ rest) = .ok a rest) (hk : items.length < k)
    (h : p ws = .overCapacity rest) : parseMany p k (items.flatMap layout ++ ws) = .overCapacity rest := by
  induction items generalizing k with
  | nil =>
    obtain ⟨k, rfl⟩ := Nat.exists_eq_add_one_of_ne_zero (Nat.ne_zero_of_lt hk)
    exact Parser.andThen_overCapacity _ h
  | cons a as ih =>
    obtain ⟨k, rfl⟩ := Nat.exists_eq_add_one_of_ne_zero (Nat.ne_zero_of_lt hk)
    have hrest : parseMany p k (as.flatMap layout ++ ws) = .overCapacity rest :=
      ih (fun b hb => hitems b (by simp [hb])) (by simpa using hk)
    rw [List.flatMap_cons, List.append_assoc, parseMany, Parser.andThen_ok (hitems a (by simp) _)]
    exact Parser.andThen_overCapacity _ hrest

/-- After rows that are in order, a row length over 15 stops the parse. -/
theorem parseMat_overCapacity_row {rows : Mat} {count : Nat} {w : Word} (hrows : rows.all rowOk = true)
    (hlt : rows.length < count) (hle : count ≤ 15) (hw : 15 < w.toNat) (rest : List Word) :
    parseMat (wordsOf ((count : Int) :: rows.flatMap vecItems) ++ w :: rest) = .overCapacity rest := by
  have hlayout : wordsOf (rows.flatMap vecItems) = rows.flatMap fun row => wordsOf (vecItems row) := by
    simp [wordsOf, List.map_flatMap]
  have hmany : parseMany parseRow count (wordsOf (rows.flatMap vecItems) ++ w :: rest) = .overCapacity rest := by
    rw [hlayout]
    exact parseMany_overCapacity (fun row hrow => parseRow_items (List.all_eq_true.mp hrows row hrow)) hlt
      (parseRow_overCapacity hw rest)
  exact (Parser.andThen_ok (parseLength_within hle (by decide) _)).trans hmany

theorem longFirst_of_decode {op : Word}
    (h : ∀ (w : Word) (rest : List Word), 225 < w.toNat → decode op (w :: rest) = .overCapacity rest) : LongFirst op :=
  fun w rest hw => endsOverCapacity_of_decode (h w rest hw)

theorem wideFirst_of_decode {op : Word}
    (h : ∀ ws rest : List Word, parseMat ws = .overCapacity rest → decode op ws = .overCapacity rest) : WideFirst op :=
  ⟨fun _ rest hw => endsOverCapacity_of_decode (h _ rest (parseMat_overCapacity_count hw rest)),
    fun _ _ _ rest hrows hlt hle hw =>
      endsOverCapacity_of_decode (h _ rest (parseMat_overCapacity_row hrows hlt hle hw rest))⟩

/-! ## Decoding one operand that stands alone: what `decode` answers under a command word that is given -/

/-- The verdict on a command of one operand whose words are all there. -/
theorem ofParsed_ok {α : Type} {p : Parser α} {ws : List Word} {a : α} (f : α → Instr)
    (h : ∀ rest, p (ws ++ rest) = .ok a rest) : Decoded.ofParsed f (p ws) = .command (f a) [] := by
  have hws : p ws = .ok a [] := by simpa using h []
  rw [hws, Decoded.ofParsed]

theorem ofParsed_overCapacity {α : Type} {p : Parsed α} {rest : List Word} (f : α → Instr)
    (h : p = .overCapacity rest) : Decoded.ofParsed f p = .overCapacity rest := by
  rw [h, Decoded.ofParsed]

/-! ## The end of a command (R222) -/

theorem complete_ok (values : List Int) (s : State) : complete (.ok (wordsOf values)) s = endedOk s values := by
  simp [complete, endedOk, Completion.status, Completion.code, Completion.reason, Completion.result,
    Completion.isRefused, wordsOf]

theorem complete_error (k : ErrorKind) (s : State) : complete (.error k) s = endedError s k := by
  simp [complete, endedError, Completion.status, Completion.code, Completion.reason, Completion.result,
    Completion.isRefused, Memory.ofWords, Memory.ofWordsFrom]

theorem deliver_of_inRange {values : List Int} (h : ∀ v ∈ values, inIntRange v = true) (s : State) :
    deliver values s = endedOk s values := by
  rw [deliver, if_pos (List.all_eq_true.mpr h), complete_ok]

theorem finish_ok {values : List Int} (h : ∀ v ∈ values, inIntRange v = true) (s : State) :
    finish (.ok values) s = .next (endedOk s values) := by
  rw [finish, deliver_of_inRange h]

theorem finish_error (k : ErrorKind) (s : State) : finish (.error k) s = .next (endedError s k) := by
  rw [finish, complete_error]

theorem refuse_eq_endedRefused (r : RefuseReason) (s : State) : refuse r s = .next (endedRefused s r) := by
  rw [refuse, complete_refused]

/-- The values the codec delivers (lengths, Symbols, character codes) are all small. -/
theorem inIntRange_of_small {v : Int} (h0 : 0 ≤ v) (h : v ≤ 255) : inIntRange v = true := by
  simp only [inIntRange, decide_eq_true_eq]
  omega

end Sys2Proof.Machine
end

section
/-! Square matrices given by their entries: the matrix of n rows that a function fills, and its MAT layout. -/

namespace Sys2Proof.Machine

open Sys2Proof.Claims

theorem gridRows_congr {n : Nat} {f g : Nat → Nat → Int} (h : ∀ i < n, ∀ j < n, f i j = g i j) :
    gridRows n f = gridRows n g := by
  refine List.map_congr_left fun i hi => List.map_congr_left fun j hj => ?_
  exact h i (List.mem_range.mp hi) j (List.mem_range.mp hj)

theorem matItems_gridRows (n : Nat) (f : Nat → Nat → Int) : matItems (gridRows n f) = gridValues n f := by
  simp [matItems, vecItems, gridRows, gridValues, List.flatMap_map]

theorem flatten_gridRows (n : Nat) (f : Nat → Nat → Int) :
    (gridRows n f).flatten = (List.range n).flatMap fun i => (List.range n).map (f i) := by
  rw [gridRows, List.flatMap_def]

theorem mem_gridValues {n : Nat} {f : Nat → Nat → Int} {v : Int} (h : v ∈ gridValues n f) :
    v = n ∨ ∃ i < n, ∃ j < n, v = f i j := by
  simp only [gridValues, List.mem_cons, List.mem_flatMap, List.mem_map, List.mem_range] at h
  obtain rfl | ⟨i, hi, rfl | ⟨j, hj, rfl⟩⟩ := h
  · exact .inl rfl
  · exact .inl rfl
  · exact .inr ⟨i, hi, j, hj, rfl⟩

/-- A square matrix is the matrix of its entries. -/
theorem gridRows_entry {mat : Mat} (h : Square mat) : gridRows mat.length (entry mat) = mat := by
  refine List.ext_getElem (by simp [gridRows]) fun i _ hi => ?_
  have hrow : mat[i].length = mat.length := h mat[i] (List.getElem_mem hi)
  refine List.ext_getElem (by simp [gridRows, hrow]) fun j _ hj => ?_
  simp [gridRows, entry, hi, hj]

theorem length_flatten_of_square {mat : Mat} (h : Square mat) : mat.flatten.length = mat.length * mat.length := by
  rw [List.length_flatten, List.map_congr_left h]
  simp

theorem square_eq_true_iff (mat : Mat) : square mat = true ↔ Square mat := by simp [square]

end Sys2Proof.Machine
end

section
/-! The Alphabet Codec (R100 to R106): its two character functions on each side of their ranges, what the functions over strings
and matrices make of them, and the six commands. -/

namespace Sys2Proof.Machine

open Sys2Proof.Claims

/-! ## Characters to Symbols (R100, R101) -/

theorem letterValue_upper {c : Nat} (h : IsUpper c) : letterValue c = (c : Int) - 0x41 := if_pos h.2

theorem letterValue_lower {c : Nat} (h : IsLower c) : letterValue c = (c : Int) - 0x61 := if_neg (by omega)

theorem letterValue_range {c : Nat} (h : IsLetter c) : 0 ≤ letterValue c ∧ letterValue c ≤ 25 := by
  rcases h with h | h
  · rw [letterValue_upper h]; omega
  · rw [letterValue_lower h]; omega

theorem inIntRange_letterValue {c : Nat} (h : IsLetter c) : inIntRange (letterValue c) = true := by
  obtain ⟨h0, h25⟩ := letterValue_range h
  exact inIntRange_of_small h0 (by omega)

theorem charToSymbol_letter {c : Nat} (h : IsLetter c) : charToSymbol c = .ok (letterValue c) := by
  rcases h with h | h
  · rw [letterValue_upper h, charToSymbol, if_pos h]
  · rw [letterValue_lower h, charToSymbol, if_neg (by omega), if_pos h]

theorem charToSymbol_nonLetter {c : Nat} (h : ¬IsLetter c) : charToSymbol c = .error .invalidCharacter := by
  rw [charToSymbol, if_neg fun hu => h (.inl hu), if_neg fun hl => h (.inr hl)]

theorem mapRaising_charToSymbol_letters {str : Str} (h : ∀ c ∈ str, IsLetter c) :
    mapRaising charToSymbol str = .ok (str.map letterValue) :=
  mapRaising_ok fun c hc => charToSymbol_letter (h c hc)

theorem mapRaising_charToSymbol_nonLetter {str : Str} (h : ∃ c ∈ str, ¬IsLetter c) :
    mapRaising charToSymbol str = .error .invalidCharacter := by
  obtain ⟨c, hc, hletter⟩ := h
  exact mapRaising_error (fun _ _ _ => charToSymbol_error) ⟨c, hc, _, charToSymbol_nonLetter hletter⟩

/-! ## Symbols to characters (R102) -/

theorem symbolToChar_symbol {v : Int} (h : 0 ≤ v ∧ v ≤ 25) : symbolToChar v = .ok (0x41 + v.toNat) := if_pos h

theorem symbolToChar_outside {v : Int} (h : v < 0 ∨ 25 < v) : symbolToChar v = .error .outOfRange := if_neg (by omega)

theorem mapRaising_symbolToChar_symbols {vec : Vec} (h : ∀ v ∈ vec, 0 ≤ v ∧ v ≤ 25) :
    mapRaising symbolToChar vec = .ok (vec.map fun v => 0x41 + v.toNat) :=
  mapRaising_ok fun v hv => symbolToChar_symbol (h v hv)

theorem mapRaising_symbolToChar_outside {vec : Vec} (h : ∃ v ∈ vec, v < 0 ∨ 25 < v) :
    mapRaising symbolToChar vec = .error .outOfRange := by
  obtain ⟨v, hv, hout⟩ := h
  exact mapRaising_error (fun _ _ _ => symbolToChar_error) ⟨v, hv, _, symbolToChar_outside hout⟩

theorem strItems_eq_map_cast (str : Str) : strItems str = (str.length : Int) :: str.map Nat.cast := by
  simp [strItems, List.map_eq_flatMap]

/-- The STR layout of the letters of a list of Symbols. -/
theorem strItems_letters {vec : Vec} (h : ∀ v ∈ vec, 0 ≤ v ∧ v ≤ 25) :
    strItems (vec.map fun v => 0x41 + v.toNat) = (vec.length : Int) :: vec.map fun v => 0x41 + v := by
  have hcast : ∀ v ∈ vec, ((0x41 + v.toNat : Nat) : Int) = 0x41 + v := fun v hv => by
    have := h v hv
    omega
  rw [strItems_eq_map_cast, List.length_map, List.map_map, ← List.map_congr_left hcast]
  rfl

/-- A command that ends in at most 225 letters, one for each Symbol, ends OK. -/
theorem finish_letters {vec : Vec} (hlen : vec.length ≤ 225) (h : ∀ v ∈ vec, 0 ≤ v ∧ v ≤ 25) (s : State) :
    finish (thenItems strItems (mapRaising symbolToChar vec)) s =
      .next (endedOk s ((vec.length : Int) :: vec.map fun v => 0x41 + v)) := by
  rw [mapRaising_symbolToChar_symbols h, thenItems, strItems_letters h]
  refine finish_ok (fun x hx => ?_) s
  obtain rfl | hx := List.mem_cons.mp hx
  · exact inIntRange_of_small (by omega) (by omega)
  · obtain ⟨v, hv, rfl⟩ := List.mem_map.mp hx
    have := h v hv
    exact inIntRange_of_small (by omega) (by omega)

/-! ## C2S and S2C -/

theorem exec_c2s_letter {c : Nat} (h : IsLetter c) (s : State) :
    exec (.c2s c) s = .next (endedOk s [letterValue c]) := by
  rw [exec, execC2s, charToSymbol_letter h]
  exact finish_ok (by simpa [intItems] using inIntRange_letterValue h) s

/-- Settles O1, by the two runs of letters in `charToSymbol`. -/
theorem c2sMapsLettersToSymbols : Obligations.C2sMapsLettersToSymbols := by
  intro c s
  refine ⟨runsAs_of_decode fun hwf => ofParsed_ok Instr.c2s (parseChar_items hwf), fun h => ?_, fun h => ?_,
    fun h => ?_⟩
  · rw [← letterValue_upper h]
    exact exec_c2s_letter (.inl h) s
  · rw [← letterValue_lower h]
    exact exec_c2s_letter (.inr h) s
  · rw [exec, execC2s, charToSymbol_nonLetter h]
    exact finish_error _ s

/-- Settles O2, by the range test of `symbolToChar`. -/
theorem s2cMapsSymbolsToLetters : Obligations.S2cMapsSymbolsToLetters := by
  intro v s
  refine ⟨runsAs_of_decode fun hwf => ofParsed_ok Instr.s2c (parseInt_items hwf), fun h0 h25 => ?_, fun h => ?_⟩
  · have hcode : charItems (0x41 + v.toNat) = [0x41 + v] := by simp [charItems, h0]
    rw [exec, execS2c, symbolToChar_symbol ⟨h0, h25⟩, thenItems, hcode]
    refine finish_ok (fun x hx => ?_) s
    rw [List.mem_singleton.mp hx]
    exact inIntRange_of_small (by omega) (by omega)
  · rw [exec, execS2c, symbolToChar_outside h]
    exact finish_error _ s

/-! ## STR2VEC and VEC2STR -/

theorem length_le_of_strOk {str : Str} (h : strOk str = true) : str.length ≤ 225 := by
  simp only [strOk, Bool.and_eq_true, decide_eq_true_eq] at h
  exact h.1

theorem length_le_of_vecOk {vec : Vec} (h : vecOk vec = true) : vec.length ≤ 225 := by
  simp only [vecOk, Bool.and_eq_true, decide_eq_true_eq] at h
  exact h.1

/-- Settles O3: the conversion is element-wise, and its values are in range for any string a STR can hold. -/
theorem str2vecConvertsEachCharacter : Obligations.Str2vecConvertsEachCharacter := by
  intro str s
  refine ⟨runsAs_of_decode fun hwf => ofParsed_ok Instr.str2vec (parseStr_items hwf),
    longFirst_of_decode fun w rest hw => ofParsed_overCapacity Instr.str2vec (parseStr_overCapacity hw rest),
    fun hok hletters => ?_, fun h => ?_⟩
  · have hlen := length_le_of_strOk hok
    rw [exec, execStr2vec, stringToVector, mapRaising_charToSymbol_letters hletters, thenItems, vecItems, List.length_map]
    refine finish_ok (fun x hx => ?_) s
    obtain rfl | hx := List.mem_cons.mp hx
    · exact inIntRange_of_small (by omega) (by omega)
    · obtain ⟨c, hc, rfl⟩ := List.mem_map.mp hx
      exact inIntRange_letterValue (hletters c hc)
  · rw [exec, execStr2vec, stringToVector, mapRaising_charToSymbol_nonLetter h]
    exact finish_error _ s

/-- Settles O4: the conversion is element-wise, and every letter's code is small. -/
theorem vec2strConvertsEachSymbol : Obligations.Vec2strConvertsEachSymbol := by
  intro vec s
  refine ⟨runsAs_of_decode fun hwf => ofParsed_ok Instr.vec2str (parseVec_items hwf),
    longFirst_of_decode fun w rest hw => ofParsed_overCapacity Instr.vec2str (parseVec_overCapacity hw rest),
    fun hok hsymbols => finish_letters (length_le_of_vecOk hok) hsymbols s, fun h => ?_⟩
  rw [exec, execVec2str, vectorToString, mapRaising_symbolToChar_outside h]
  exact finish_error _ s

/-! ## STR2MAT (R105) -/

theorem stringToMatrix_notSquare {str : Str} (h : ∀ side ≤ str.length, str.length ≠ side * side) :
    stringToMatrix str = .error .invalidKeyLength := by
  have hle : isqrt str.length ≤ str.length := (Nat.le_mul_self _).trans (isqrt_spec str.length).1
  simp [stringToMatrix, (h _ hle).symm]

theorem stringToMatrix_nonLetter {str : Str} {side : Nat} (hlen : str.length = side * side)
    (h : ∃ c ∈ str, ¬IsLetter c) : stringToMatrix str = .error .invalidCharacter := by
  simp [stringToMatrix, hlen, isqrt_square, mapRaising_charToSymbol_nonLetter h]

/-- An index of the row-major order lies within the list. -/
theorem rowMajor_index_lt {n i j : Nat} (hi : i < n) (hj : j < n) : i * n + j < n * n := by nlinarith

/-- Converting every character and then filling the matrix is filling it with converted characters: no index read is out
of range (log 16). -/
theorem rowMajor_letterValues {str : Str} {side : Nat} (hlen : str.length = side * side) :
    rowMajor side (str.map letterValue) = gridRows side fun i j => letterValue (str.getD (i * side + j) 0) := by
  refine gridRows_congr fun i hi j hj => ?_
  have hindex : i * side + j < str.length := hlen ▸ rowMajor_index_lt hi hj
  simp [List.getD_eq_getElem?_getD, hindex]

theorem stringToMatrix_letters {str : Str} {side : Nat} (hlen : str.length = side * side)
    (h : ∀ c ∈ str, IsLetter c) :
    stringToMatrix str = .ok (gridRows side fun i j => letterValue (str.getD (i * side + j) 0)) := by
  rw [← rowMajor_letterValues hlen]
  simp [stringToMatrix, hlen, isqrt_square, mapRaising_charToSymbol_letters h]

/-- Settles O5, by the three ends of `stringToMatrix`. -/
theorem str2matFillsRowMajor : Obligations.Str2matFillsRowMajor := by
  intro str s
  refine ⟨runsAs_of_decode fun hwf => ofParsed_ok Instr.str2mat (parseStr_items hwf),
    longFirst_of_decode fun w rest hw => ofParsed_overCapacity Instr.str2mat (parseStr_overCapacity hw rest),
    fun side hok hlen hletters => ?_, fun side hlen h => ?_, fun h => ?_⟩
  · have hbound := length_le_of_strOk hok
    rw [exec, execStr2mat, stringToMatrix_letters hlen hletters, thenItems, matItems_gridRows]
    refine finish_ok (fun x hx => ?_) s
    obtain rfl | ⟨i, hi, j, hj, rfl⟩ := mem_gridValues hx
    · have hside : side ≤ side * side := Nat.le_mul_self side
      exact inIntRange_of_small (by omega) (by omega)
    · have hindex : i * side + j < str.length := hlen ▸ rowMajor_index_lt hi hj
      rw [List.getD_eq_getElem _ _ hindex]
      exact inIntRange_letterValue (hletters _ (List.getElem_mem hindex))
  · rw [exec, execStr2mat, stringToMatrix_nonLetter hlen h]
    exact finish_error _ s
  · rw [exec, execStr2mat, stringToMatrix_notSquare h]
    exact finish_error _ s

/-! ## MAT2STR (R106, R121) -/

theorem exec_mat2str_of_ne_nil {mat : Mat} (h : mat ≠ []) (s : State) :
    exec (.mat2str mat) s = finish (thenItems strItems (matrixToString mat)) s :=
  if_neg (by simpa using h)

theorem matrixToString_square {mat : Mat} (h : Square mat) :
    matrixToString mat = mapRaising symbolToChar mat.flatten :=
  if_pos ((square_eq_true_iff mat).mpr h)

theorem matrixToString_notSquare {mat : Mat} (h : ¬Square mat) : matrixToString mat = .error .invalidMatrixSize :=
  if_neg (mt (square_eq_true_iff mat).mp h)

theorem length_le_of_matOk {mat : Mat} (h : matOk mat = true) : mat.length ≤ 15 := by
  simp only [matOk, Bool.and_eq_true, decide_eq_true_eq] at h
  exact h.1

/-- The letters of a square matrix in row-major order, each by its indices. -/
theorem map_flatten_of_square {mat : Mat} (h : Square mat) (g : Int → Int) :
    mat.flatten.map g =
      (List.range mat.length).flatMap fun i => (List.range mat.length).map fun j => g (entry mat i j) := by
  conv_lhs => rw [← gridRows_entry h, flatten_gridRows]
  simp [List.map_flatMap, Function.comp_def]

/-- Settles O6: a square matrix is the list of its entries in row-major order, which the conversion takes one by one. -/
theorem mat2strSerializesRowMajor : Obligations.Mat2strSerializesRowMajor := by
  intro mat s
  refine ⟨runsAs_of_decode fun hwf => ofParsed_ok Instr.mat2str (parseMat_items hwf),
    wideFirst_of_decode fun _ _ hws => ofParsed_overCapacity Instr.mat2str hws, ?_, fun hne hsq => ?_,
    fun hne hsq hout => ?_, fun hne hsq hok hsymbols => ?_⟩
  · rintro rfl
    exact refuse_eq_endedRefused .unspecified s
  · rw [exec_mat2str_of_ne_nil hne, matrixToString_notSquare hsq]
    exact finish_error _ s
  · have hflat : ∃ v ∈ mat.flatten, v < 0 ∨ 25 < v := by
      obtain ⟨row, hrow, v, hv, h⟩ := hout
      exact ⟨v, List.mem_flatten_of_mem hrow hv, h⟩
    rw [exec_mat2str_of_ne_nil hne, matrixToString_square hsq, mapRaising_symbolToChar_outside hflat]
    exact finish_error _ s
  · have hflat : ∀ v ∈ mat.flatten, 0 ≤ v ∧ v ≤ 25 := by
      intro v hv
      obtain ⟨row, hrow, hv⟩ := List.mem_flatten.mp hv
      exact hsymbols row hrow v hv
    have hlen : mat.flatten.length = mat.length * mat.length := length_flatten_of_square hsq
    have hbound : mat.length * mat.length ≤ 15 * 15 := Nat.mul_self_le_mul_self (length_le_of_matOk hok)
    rw [exec_mat2str_of_ne_nil hne, matrixToString_square hsq, finish_letters (hlen ▸ hbound) hflat, hlen,
      map_flatten_of_square hsq]

end Sys2Proof.Machine
end

section
/-! Matrix Algebra (R122, R123, R125, R127): the operands of a command of several operands, the entries of the matrices its
functions build, and the commands TRANSP, MINOR, DET and MATVEC. -/

namespace Sys2Proof.Machine

open Sys2Proof.Claims

/-! ## Decoding a first operand with others after it (R79) -/

/-- Two operands whose words are all there, one after the other. -/
theorem Parser.pair_items {α β : Type} {p : Parser α} {q : Parser β} {as bs : List Int} {a : α} {b : β}
    (hp : ∀ rest, p (wordsOf as ++ rest) = .ok a rest) (hq : ∀ rest, q (wordsOf bs ++ rest) = .ok b rest)
    (rest : List Word) : p.pair q (wordsOf (as ++ bs) ++ rest) = .ok (a, b) rest := by
  rw [wordsOf_append, List.append_assoc]
  exact Parser.pair_ok (hp _) (hq rest)

theorem Parser.pair_overCapacity_second {α β : Type} {p : Parser α} {q : Parser β} {ws mid rest : List Word} {a : α}
    (hp : p ws = .ok a mid) (hq : q mid = .overCapacity rest) : p.pair q ws = .overCapacity rest :=
  (Parser.andThen_ok hp).trans (Parser.andThen_overCapacity _ hq)

/-! ## Entries and shapes -/

theorem inIntRange_of_mem_row {mat : Mat} (h : matOk mat = true) {row : List Int} (hrow : row ∈ mat) {v : Int}
    (hv : v ∈ row) : inIntRange v = true := by
  simp only [matOk, rowOk, Bool.and_eq_true, List.all_eq_true] at h
  exact (h.2 row hrow).2 v hv

/-- Every entry of a MAT is an INT, and so is the default that `entry` has outside it. -/
theorem inIntRange_entry {mat : Mat} (h : matOk mat = true) (i j : Nat) : inIntRange (entry mat i j) = true := by
  rw [entry, List.getD_eq_getElem?_getD, List.getD_eq_getElem?_getD]
  cases hrow : mat[i]? with
  | none => rfl
  | some row =>
    rw [Option.getD_some]
    cases hv : row[j]? with
    | none => rfl
    | some v => exact inIntRange_of_mem_row h (List.mem_of_getElem? hrow) (List.mem_of_getElem? hv)

/-- A square result of at most 15 rows whose entries are INTs is delivered as it is. -/
theorem deliver_gridValues {n : Nat} {f : Nat → Nat → Int} (hn : n ≤ 15)
    (hf : ∀ i j, inIntRange (f i j) = true) (s : State) : deliver (gridValues n f) s = endedOk s (gridValues n f) := by
  refine deliver_of_inRange (fun v hv => ?_) s
  obtain rfl | ⟨i, _, j, _, rfl⟩ := mem_gridValues hv
  · exact inIntRange_of_small (by omega) (by omega)
  · exact hf i j

theorem deliver_of_outOfRange {values : List Int} (h : values.all inIntRange = false) (s : State) :
    deliver values s = endedRefused s .resultOverflow := by
  rw [deliver, if_neg (by simp [h]), complete_refused]

/-! ## TRANSP (R122) -/

theorem exec_transp_square {mat : Mat} (hne : mat ≠ []) (h : Square mat) (s : State) :
    exec (.transp mat) s = .next (deliver (matItems (transposeOf mat)) s) := by
  rw [exec, execTransp, if_neg (by simpa using hne), if_pos ((square_eq_true_iff mat).mpr h)]

theorem exec_transp_notSquare {mat : Mat} (h : ¬Square mat) (s : State) :
    exec (.transp mat) s = .next (endedRefused s .unspecified) := by
  rw [exec, execTransp, if_neg (mt (square_eq_true_iff mat).mp h), ite_self, refuse_eq_endedRefused]

/-- Settles O8: the transpose is a matrix given by its entries, each an entry of the operand and so an INT. -/
theorem transpSwapsIndices : Obligations.TranspSwapsIndices := by
  intro mat s
  refine ⟨runsAs_of_decode fun hwf => ofParsed_ok Instr.transp (parseMat_items hwf),
    wideFirst_of_decode fun _ _ hws => ofParsed_overCapacity Instr.transp hws, fun hne hsq hok => ?_, ?_⟩
  · have hitems : matItems (transposeOf mat) = gridValues mat.length fun i j => entry mat j i := matItems_gridRows _ _
    rw [exec_transp_square hne hsq, hitems,
      deliver_gridValues (length_le_of_matOk hok) fun i j => inIntRange_entry hok j i]
  · rintro (rfl | hsq)
    · exact refuse_eq_endedRefused .unspecified s
    · exact exec_transp_notSquare hsq s

/-! ## MINOR (R123) -/

theorem getElem?_eraseIdx_eq_skipping {α : Type} (l : List α) (deleted k : Nat) :
    (l.eraseIdx deleted)[k]? = l[skipping deleted k]? := by
  rw [List.getElem?_eraseIdx, skipping]
  split <;> rfl

/-- An entry of the minor is the entry of the whole matrix at the indices that skip what is deleted. -/
theorem entry_minorOf (mat : Mat) (row col i j : Nat) :
    entry (minorOf mat row col) i j = entry mat (skipping row i) (skipping col j) := by
  simp only [entry, minorOf, List.getD_eq_getElem?_getD, List.getElem?_map, getElem?_eraseIdx_eq_skipping]
  cases mat[skipping row i]? with
  | none => simp
  | some r => simp [getElem?_eraseIdx_eq_skipping]

theorem length_minorOf {mat : Mat} {row : Nat} (hrow : row < mat.length) (col : Nat) :
    (minorOf mat row col).length = mat.length - 1 := by
  rw [minorOf, List.length_map, List.length_eraseIdx_of_lt hrow]

theorem square_minorOf {mat : Mat} (h : Square mat) {row col : Nat} (hrow : row < mat.length)
    (hcol : col < mat.length) : Square (minorOf mat row col) := by
  intro r hr
  obtain ⟨whole, hwhole, rfl⟩ := List.mem_map.mp hr
  have hlen : whole.length = mat.length := h whole (List.mem_of_mem_eraseIdx hwhole)
  rw [length_minorOf hrow, List.length_eraseIdx_of_lt (hlen ▸ hcol), hlen]

theorem minorOf_eq_gridRows {mat : Mat} (h : Square mat) {row col : Nat} (hrow : row < mat.length)
    (hcol : col < mat.length) :
    minorOf mat row col = gridRows (mat.length - 1) fun i j => entry mat (skipping row i) (skipping col j) := by
  rw [← gridRows_entry (square_minorOf h hrow hcol), length_minorOf hrow]
  exact gridRows_congr fun i _ j _ => entry_minorOf mat row col i j

theorem indexOk_eq_true_iff (mat : Mat) (i : Int) : indexOk mat i = true ↔ 0 ≤ i ∧ i < mat.length := by simp [indexOk]

/-- MINOR's test: the matrix is square and both indices lie in it. -/
theorem minorTest_eq_true_iff (mat : Mat) (row col : Int) :
    (square mat && indexOk mat row && indexOk mat col) = true ↔
      Square mat ∧ (0 ≤ row ∧ row < mat.length) ∧ (0 ≤ col ∧ col < mat.length) := by
  rw [Bool.and_eq_true, Bool.and_eq_true, square_eq_true_iff, indexOk_eq_true_iff, indexOk_eq_true_iff, and_assoc]

theorem exec_minor_inside {mat : Mat} {row col : Int} (hne : mat ≠ [])
    (h : Square mat ∧ (0 ≤ row ∧ row < mat.length) ∧ (0 ≤ col ∧ col < mat.length)) (s : State) :
    exec (.minor mat row col) s = .next (deliver (matItems (minorOf mat row.toNat col.toNat)) s) := by
  rw [exec, execMinor, if_neg (by simpa using hne), if_pos ((minorTest_eq_true_iff mat row col).mpr h)]

theorem exec_minor_outside {mat : Mat} {row col : Int}
    (h : ¬(Square mat ∧ (0 ≤ row ∧ row < mat.length) ∧ (0 ≤ col ∧ col < mat.length))) (s : State) :
    exec (.minor mat row col) s = .next (endedRefused s .unspecified) := by
  rw [exec, execMinor, if_neg (mt (minorTest_eq_true_iff mat row col).mp h), ite_self, refuse_eq_endedRefused]

/-- Settles O9: the minor of a square matrix is square, and deleting an index is skipping it. -/
theorem minorDeletesRowAndColumn : Obligations.MinorDeletesRowAndColumn := by
  intro mat row col s
  refine ⟨runsAs_of_decode fun hwf => ?_,
    wideFirst_of_decode fun _ _ hws => ofParsed_overCapacity _ (Parser.andThen_overCapacity _ hws),
    fun hne hsq hok hrow0 hrow hcol0 hcol => ?_, fun h => ?_⟩
  · simp only [Instr.wellFormed, Bool.and_eq_true] at hwf
    obtain ⟨⟨hmat, hrow⟩, hcol⟩ := hwf
    exact ofParsed_ok (fun p => Instr.minor p.1 p.2.1 p.2.2)
      (Parser.pair_items (parseMat_items hmat) (Parser.pair_items (parseInt_items hrow) (parseInt_items hcol)))
  · have hbound : mat.length ≤ 15 := length_le_of_matOk hok
    rw [exec_minor_inside hne ⟨hsq, ⟨hrow0, hrow⟩, hcol0, hcol⟩, minorOf_eq_gridRows hsq (by omega) (by omega),
      matItems_gridRows, deliver_gridValues (by omega) fun i j => inIntRange_entry hok _ _]
  · rcases h with rfl | h
    · exact refuse_eq_endedRefused .unspecified s
    · refine exec_minor_outside (fun ⟨hsq, hrow, hcol⟩ => ?_) s
      rcases h with hnsq | h
      · exact hnsq hsq
      · omega

/-! ## DET (R125) -/

theorem determinant_error {mat : Mat} {kind : ErrorKind} (h : determinant mat = .error kind) :
    kind = .invalidMatrixSize := by
  unfold determinant at h
  split at h <;> cases h
  rfl

theorem exec_det_of_ne_nil {mat : Mat} (h : mat ≠ []) (s : State) :
    exec (.det mat) s = finish (thenItems intItems (determinant mat)) s :=
  if_neg (by simpa using h)

theorem exec_det_of_value {mat : Mat} {d : Int} (hne : mat ≠ []) (h : determinant mat = .ok d) (s : State) :
    exec (.det mat) s = .next (deliver [d] s) := by
  rw [exec_det_of_ne_nil hne, h, thenItems, intItems, finish]

/-- Settles O12: DET hands on what `determinant` answers, and only the range test of the delivery comes between. -/
theorem detRunsTheDeterminantFunction : Obligations.DetRunsTheDeterminantFunction := by
  intro mat s
  refine ⟨runsAs_of_decode fun hwf => ofParsed_ok Instr.det (parseMat_items hwf),
    wideFirst_of_decode fun _ _ hws => ofParsed_overCapacity Instr.det hws, ?_, fun kind hne h => ?_,
    fun d hne h hd => ?_, fun d hne h hd => ?_⟩
  · rintro rfl
    exact refuse_eq_endedRefused .unspecified s
  · obtain rfl := determinant_error h
    rw [exec_det_of_ne_nil hne, h]
    exact ⟨rfl, finish_error _ s⟩
  · rw [exec_det_of_value hne h, deliver_of_inRange (by simpa using hd)]
  · rw [exec_det_of_value hne h, deliver_of_outOfRange (by simpa using hd)]

/-! ## MATVEC (R127) -/

/-- The product sum of a row and a vector of one length, index by index. -/
theorem dot_eq_sum {row : List Int} {vec : Vec} (h : row.length = vec.length) :
    dot row vec = ∑ j ∈ Finset.range vec.length, row.getD j 0 * vec.getD j 0 := by
  induction row generalizing vec with
  | nil => simp [dot, ← h]
  | cons a row ih =>
    obtain ⟨b, vec, rfl⟩ := List.exists_cons_of_length_eq_add_one h.symm
    have hrest : dot row vec = ∑ j ∈ Finset.range vec.length, row.getD j 0 * vec.getD j 0 := ih (by simpa using h)
    calc dot (a :: row) (b :: vec) = dot row vec + a * b := by simp [dot, add_comm]
      _ = ∑ j ∈ Finset.range (vec.length + 1), (a :: row).getD j 0 * (b :: vec).getD j 0 := by
        rw [hrest, Finset.sum_range_succ']; simp

/-- A function of the rows, taken index by index. -/
theorem map_rows_eq_map_range {α : Type} (mat : Mat) (f : List Int → α) :
    mat.map f = (List.range mat.length).map fun i => f (mat.getD i []) := by
  refine List.ext_getElem (by simp) fun i hi _ => ?_
  rw [List.length_map] at hi
  simp [hi]

theorem multiplyMatrixVector_rowSums {mat : Mat} {vec : Vec} (h : ∀ row ∈ mat, row.length = vec.length) :
    multiplyMatrixVector mat vec = .ok ((List.range mat.length).map fun i =>
      (∑ j ∈ Finset.range vec.length, entry mat i j * vec.getD j 0) % 26) := by
  have hrow : ∀ i ∈ List.range mat.length, modZ (dot (mat.getD i []) vec) Config.alphabetSize =
      (∑ j ∈ Finset.range vec.length, entry mat i j * vec.getD j 0) % 26 := by
    intro i hi
    have hi : i < mat.length := List.mem_range.mp hi
    have hlen : (mat.getD i []).length = vec.length := by
      rw [List.getD_eq_getElem _ _ hi]
      exact h _ (List.getElem_mem hi)
    rw [modZ_eq_emod _ (by decide), dot_eq_sum hlen]
    rfl
  rw [multiplyMatrixVector, if_pos (by simpa using h), map_rows_eq_map_range, List.map_congr_left hrow]

theorem multiplyMatrixVector_unequalLengths {mat : Mat} {vec : Vec} (h : ∃ row ∈ mat, row.length ≠ vec.length) :
    multiplyMatrixVector mat vec = .error .invalidDimensions :=
  if_neg (by simpa using h)

theorem exec_matvec_of_ne_nil {mat : Mat} (h : mat ≠ []) (vec : Vec) (s : State) :
    exec (.matvec mat vec) s = finish (thenItems vecItems (multiplyMatrixVector mat vec)) s :=
  if_neg (by simpa using h)

/-- Settles O14: `dot` is the sum over the indices, and what is delivered are residues mod 26 and their number. -/
theorem matvecReducesEachRowSum : Obligations.MatvecReducesEachRowSum := by
  intro mat vec s
  refine ⟨runsAs_of_decode fun hwf => ?_,
    wideFirst_of_decode fun _ _ hws => ofParsed_overCapacity _ (Parser.andThen_overCapacity _ hws),
    fun w rest hok hw => ?_, ?_, fun hne h => ?_, fun hne hok h => ?_⟩
  · simp only [Instr.wellFormed, Bool.and_eq_true] at hwf
    obtain ⟨hmat, hvec⟩ := hwf
    exact ofParsed_ok (fun p => Instr.matvec p.1 p.2) (Parser.pair_items (parseMat_items hmat) (parseVec_items hvec))
  · have hparse := Parser.pair_overCapacity_second (parseMat_items hok (w :: rest)) (parseVec_overCapacity hw rest)
    exact endsOverCapacity_of_decode (ofParsed_overCapacity (fun p : Mat × Vec => Instr.matvec p.1 p.2) hparse)
  · rintro rfl
    exact refuse_eq_endedRefused .unspecified s
  · rw [exec_matvec_of_ne_nil hne, multiplyMatrixVector_unequalLengths h]
    exact finish_error _ s
  · have hbound : mat.length ≤ 15 := length_le_of_matOk hok
    rw [exec_matvec_of_ne_nil hne, multiplyMatrixVector_rowSums h, thenItems, vecItems, List.length_map,
      List.length_range]
    refine finish_ok (fun x hx => ?_) s
    obtain rfl | hx := List.mem_cons.mp hx
    · exact inIntRange_of_small (by omega) (by omega)
    · obtain ⟨i, _, rfl⟩ := List.mem_map.mp hx
      exact inIntRange_of_small (by omega) (by omega)

end Sys2Proof.Machine
end

section
/-! Modular Arithmetic (R150 to R159): Euclid's recursion and the modular inverse as functions of the library's gcd, the six
steps of the modular matrix inverse, and the commands MOD, GCD and INVMOD. -/

namespace Sys2Proof.Machine

open Sys2Proof.Claims

/-! ## MOD (R150, R151) -/

/-- A canonical residue lies between two INTs: 0 and the modulus. -/
theorem inIntRange_emod {m : Int} (hm : 1 ≤ m) (hr : inIntRange m = true) (x : Int) : inIntRange (x % m) = true := by
  have h0 : 0 ≤ x % m := Int.emod_nonneg x (by omega)
  have hlt : x % m < m := Int.emod_lt_of_pos x (by omega)
  simp only [inIntRange, decide_eq_true_eq] at hr ⊢
  omega

theorem emod_eq_sub_mul_floor {m : Int} (hm : 1 ≤ m) (x : Int) : x % m = x - m * ⌊(x : ℚ) / (m : ℚ)⌋ := by
  rw [Int.floor_div_cast_of_nonneg (by omega), Int.floor_intCast, Int.emod_def]

theorem exec_mod {m : Int} (hm : 1 ≤ m) (x : Int) (s : State) : exec (.mod x m) s = .next (deliver [x % m] s) := by
  rw [exec, execMod, if_neg (by omega), modZ_eq_emod x hm, intItems]

/-- Two INT operands that are all the layout are read back as they are (R79). -/
theorem parseIntPair_items {a b : Int} (ha : inIntRange a = true) (hb : inIntRange b = true) (rest : List Word) :
    parseInt.pair parseInt (wordsOf (intItems a ++ intItems b) ++ rest) = .ok (a, b) rest :=
  Parser.pair_items (parseInt_items ha) (parseInt_items hb) rest

/-- Settles O16: `modZ` is the library's remainder, which is the floor formula over the rationals. -/
theorem modDeliversCanonicalResidue : Obligations.ModDeliversCanonicalResidue := by
  intro x m s
  refine ⟨runsAs_of_decode fun hwf => ?_, fun hm hr => ⟨x % m, ?_, emod_eq_sub_mul_floor hm x, ?_, ?_, ?_⟩,
    fun hm => ?_⟩
  · obtain ⟨hx, hm⟩ := Bool.and_eq_true_iff.mp hwf
    exact ofParsed_ok (fun p => Instr.mod p.1 p.2) (parseIntPair_items hx hm)
  · rw [exec_mod hm, deliver_of_inRange (by simpa using inIntRange_emod hm hr x)]
  · exact Int.emod_nonneg x (by omega)
  · exact Int.le_sub_one_of_lt (Int.emod_lt_of_pos x (by omega))
  · exact Int.dvd_self_sub_emod
  · rw [exec, execMod, if_pos hm, refuse_eq_endedRefused]

/-! ## GCD (R152, R153) -/

/-- With more fuel than the second argument, Euclid's recursion ends at the greatest common divisor (log 15). -/
theorem gcdAux_eq_gcd {fuel : Nat} {a b : Int} (ha : 0 ≤ a) (hb : 0 ≤ b) (hfuel : b.toNat < fuel) :
    gcdAux fuel a b = Int.gcd a b := by
  induction fuel generalizing a b with
  | zero => omega
  | succ fuel ih =>
    by_cases h0 : b = 0
    · simp [gcdAux, h0, abs_of_nonneg ha]
    · have hb1 : 1 ≤ b := by omega
      have hlt : modZ a b < b := modZ_lt a hb1
      rw [gcdAux, if_neg h0, ih hb (modZ_nonneg a hb1) (by omega), modZ_eq_emod a hb1, Int.gcd_comm, Int.gcd_emod]

theorem gcdZ_eq_gcd {a b : Int} (ha : 0 ≤ a) (hb : 0 ≤ b) : gcdZ a b = Int.gcd a b :=
  gcdAux_eq_gcd ha hb (by omega)

theorem gcdZ_zero_right (a : Int) : gcdZ a 0 = a := by simp [gcdZ, gcdAux]

/-- Euclid's recursion without its fuel (R152). -/
theorem gcdZ_recursion {a b : Int} (ha : 0 ≤ a) (hb : 0 < b) : gcdZ a b = gcdZ b (modZ a b) := by
  rw [gcdZ_eq_gcd ha hb.le, gcdZ_eq_gcd hb.le (modZ_nonneg a hb), modZ_eq_emod a hb, Int.gcd_comm b, Int.gcd_emod]

/-- The greatest common divisor of two INTs of which neither is negative is an INT. -/
theorem inIntRange_gcd {a b : Int} (ha : 0 ≤ a) (hb : 0 ≤ b) (hra : inIntRange a = true) (hrb : inIntRange b = true) :
    inIntRange (Int.gcd a b) = true := by
  rcases hb.eq_or_lt with rfl | hpos
  · simpa [abs_of_nonneg ha] using hra
  · have hle : (Int.gcd a b : Int) ≤ b := Int.gcd_le_right a hpos
    simp only [inIntRange, decide_eq_true_eq] at hrb ⊢
    omega

theorem exec_gcd {a b : Int} (ha : 0 ≤ a) (hb : 0 ≤ b) (s : State) :
    exec (.gcd a b) s = .next (deliver [(Int.gcd a b : Int)] s) := by
  rw [exec, execGcd, if_neg (by omega), gcdZ_eq_gcd ha hb, intItems]

/-- Settles O17: by induction on the fuel, which outlasts the second argument, `gcdZ` is the library's gcd. -/
theorem gcdDeliversGreatestCommonDivisor : Obligations.GcdDeliversGreatestCommonDivisor := by
  refine ⟨fun a _ => gcdZ_zero_right a, fun a b => gcdZ_recursion, fun a b s =>
    ⟨runsAs_of_decode fun hwf => ?_, fun ha hb hwf => ?_, fun h => ?_⟩⟩
  · obtain ⟨hra, hrb⟩ := Bool.and_eq_true_iff.mp hwf
    exact ofParsed_ok (fun p => Instr.gcd p.1 p.2) (parseIntPair_items hra hrb)
  · obtain ⟨hra, hrb⟩ := Bool.and_eq_true_iff.mp hwf
    rw [exec_gcd ha hb, deliver_of_inRange (by simpa using inIntRange_gcd ha hb hra hrb)]
  · rw [exec, execGcd, if_pos h, refuse_eq_endedRefused]

/-! ## The modular inverse of a number (R156) -/

/-- The extended recursion finds the same divisor as the plain one. -/
theorem extendedGCDAux_fst (fuel : Nat) (a b : Int) : (extendedGCDAux fuel a b).1 = gcdAux fuel a b := by
  induction fuel generalizing a b with
  | zero => rfl
  | succ fuel ih =>
    rw [extendedGCDAux, gcdAux]
    split
    · rfl
    · exact ih b (modZ a b)

theorem extendedGCD_fst {a b : Int} (ha : 0 ≤ a) (hb : 0 ≤ b) : (extendedGCD a b).1 = Int.gcd a b :=
  (extendedGCDAux_fst _ a b).trans (gcdZ_eq_gcd ha hb)

theorem modInverse_of_coprime {a m : Int} (ha : 0 ≤ a) (hm : 1 ≤ m) (h : Int.gcd a m = 1) :
    modInverse a m = some ((extendedGCD a m).2.1 % m) := by
  have hfst : (extendedGCD a m).1 = 1 := by rw [extendedGCD_fst ha (by omega), h, Nat.cast_one]
  rw [modInverse, if_neg (not_not.mpr hfst), modZ_eq_emod _ hm]

/-! ## Cofactors and the scaled adjugate (R158 steps 4 to 6) -/

theorem altSign_eq_pow (k : Nat) : altSign k = (-1) ^ k := by
  rw [altSign, neg_one_pow_eq_pow_mod_two]
  rcases Nat.mod_two_eq_zero_or_one k with h | h <;> simp [h]

theorem detValue_of_determinant {mat : Mat} {d : Int} (h : determinant mat = .ok d) : detValue mat = d := by
  unfold determinant at h
  split at h <;> cases h
  rfl

theorem cofactor_of_determinant {mat : Mat} {i j : Nat} {d : Int} (h : determinant (minorOf mat i j) = .ok d) :
    cofactor mat i j = (-1) ^ (i + j) * d := by
  rw [cofactor, altSign_eq_pow, detValue_of_determinant h]

theorem tabulate_eq_gridRows (n : Nat) (f : Nat → Nat → Int) : tabulate n f = gridRows n f := rfl

@[simp] theorem length_gridRows (n : Nat) (f : Nat → Nat → Int) : (gridRows n f).length = n := by simp [gridRows]

theorem entry_gridRows {n i j : Nat} (f : Nat → Nat → Int) (hi : i < n) (hj : j < n) :
    entry (gridRows n f) i j = f i j := by
  simp [entry, gridRows, hi, hj]

theorem transposeOf_gridRows (n : Nat) (f : Nat → Nat → Int) :
    transposeOf (gridRows n f) = gridRows n fun i j => f j i := by
  rw [transposeOf, length_gridRows]
  exact gridRows_congr fun i hi j hj => entry_gridRows f hj hi

/-- Steps 4 to 6 of R158, entry by entry: the cofactor of the transposed place, reduced, scaled and reduced again. -/
theorem scaledAdjugate_eq_gridRows {modulus : Int} (hm : 1 ≤ modulus) (mat : Mat) (invDet : Int) :
    scaledAdjugate mat modulus invDet =
      gridRows mat.length fun i j => (cofactor mat j i % modulus * invDet) % modulus := by
  rw [scaledAdjugate, cofactorsMod, tabulate_eq_gridRows, tabulate_eq_gridRows, transposeOf_gridRows]
  refine gridRows_congr fun i hi j hj => ?_
  rw [entry_gridRows _ hi hj, modZ_eq_emod _ hm, modZ_eq_emod _ hm]

/-- The same with the determinants of the minors given. -/
theorem scaledAdjugate_of_determinants {mat : Mat} {modulus : Int} {sub : Nat → Nat → Int} (hm : 1 ≤ modulus)
    (invDet : Int) (h : ∀ i < mat.length, ∀ j < mat.length, determinant (minorOf mat i j) = .ok (sub i j)) :
    scaledAdjugate mat modulus invDet =
      gridRows mat.length fun i j => (((-1) ^ (i + j) * sub j i) % modulus * invDet) % modulus := by
  rw [scaledAdjugate_eq_gridRows hm]
  refine gridRows_congr fun i hi j hj => ?_
  rw [cofactor_of_determinant (h j hj i hi), add_comm j i]

/-! ## INVMOD (R158, R159) -/

theorem determinant_notSquare {mat : Mat} (h : ¬Square mat) : determinant mat = .error .invalidMatrixSize :=
  if_neg (mt (square_eq_true_iff mat).mp h)

theorem inverseMatrixMod_notSquare {mat : Mat} (h : ¬Square mat) (modulus : Int) :
    inverseMatrixMod mat modulus = .error .invalidMatrixSize := by
  rw [inverseMatrixMod, determinant_notSquare h]

/-- The divisor that step 2 of R158 tests. -/
theorem gcdZ_modZ {modulus : Int} (hm : 1 ≤ modulus) (det : Int) :
    gcdZ (modZ det modulus) modulus = Int.gcd (det % modulus) modulus := by
  rw [gcdZ_eq_gcd (modZ_nonneg det hm) (by omega), modZ_eq_emod det hm]

theorem inverseMatrixMod_of_not_coprime {mat : Mat} {modulus det : Int} (hm : 1 ≤ modulus)
    (hdet : determinant mat = .ok det) (h : Int.gcd (det % modulus) modulus ≠ 1) :
    inverseMatrixMod mat modulus = .ok none := by
  have htest : gcdZ (modZ det modulus) modulus ≠ 1 := by
    rw [gcdZ_modZ hm]
    exact_mod_cast h
  simp [inverseMatrixMod, hdet, htest]

theorem inverseMatrixMod_of_coprime {mat : Mat} {modulus det invDet : Int} (hm : 1 ≤ modulus)
    (hdet : determinant mat = .ok det) (h : Int.gcd (det % modulus) modulus = 1)
    (hinv : modInverse (det % modulus) modulus = some invDet) :
    inverseMatrixMod mat modulus = .ok (some (scaledAdjugate mat modulus invDet)) := by
  have htest : gcdZ (det % modulus) modulus = 1 := by
    rw [← modZ_eq_emod det hm, gcdZ_modZ hm, h, Nat.cast_one]
  simp [inverseMatrixMod, hdet, modZ_eq_emod det hm, htest, hinv]

theorem complete_nothingFound (s : State) : complete .nothingFound s = endedNothingFound s := by
  simp [complete, endedNothingFound, Completion.status, Completion.code, Completion.reason, Completion.result,
    Completion.isRefused, Memory.ofWords, Memory.ofWordsFrom]

theorem finishOption_none (s : State) : finishOption (.ok none) s = .next (endedNothingFound s) := by
  rw [finishOption, complete_nothingFound]

theorem finishOption_error (k : ErrorKind) (s : State) : finishOption (.error k) s = .next (endedError s k) := by
  rw [finishOption, complete_error]

theorem exec_invmod_refused {mat : Mat} {modulus : Int} (h : mat = [] ∨ modulus < 1) (s : State) :
    exec (.invmod mat modulus) s = .next (endedRefused s .unspecified) := by
  rw [exec, execInvmod, if_pos (by simpa using h), refuse_eq_endedRefused]

theorem exec_invmod {mat : Mat} {modulus : Int} (hne : mat ≠ []) (hm : 1 ≤ modulus) (s : State) :
    exec (.invmod mat modulus) s = finishOption (thenOptionItems matItems (inverseMatrixMod mat modulus)) s :=
  if_neg (by simpa [hne] using hm)

/-- Settles O20: past the refusals, each of the ways through the six steps of `inverseMatrixMod` in turn. -/
theorem invmodFollowsTheSixSteps : Obligations.InvmodFollowsTheSixSteps := by
  intro mat modulus s
  refine ⟨runsAs_of_decode fun hwf => ?_,
    wideFirst_of_decode fun _ _ hws => ofParsed_overCapacity _ (Parser.andThen_overCapacity _ hws),
    fun h => exec_invmod_refused h s, fun hne hm hnsq => ?_, fun det hne hm hdet hgcd => ?_,
    fun det sub hne hm hwf hdet hgcd hsub => ?_⟩
  · obtain ⟨hmat, hmod⟩ := Bool.and_eq_true_iff.mp hwf
    exact ofParsed_ok (fun p => Instr.invmod p.1 p.2) (Parser.pair_items (parseMat_items hmat) (parseInt_items hmod))
  · rw [exec_invmod hne hm, inverseMatrixMod_notSquare hnsq]
    exact finishOption_error _ s
  · rw [exec_invmod hne hm, inverseMatrixMod_of_not_coprime hm hdet hgcd]
    exact finishOption_none s
  · obtain ⟨hmat, hmod⟩ := Bool.and_eq_true_iff.mp hwf
    obtain ⟨invDet, hinv⟩ : ∃ r, modInverse (det % modulus) modulus = some r :=
      ⟨_, modInverse_of_coprime (Int.emod_nonneg det (by omega)) hm hgcd⟩
    refine ⟨invDet, hinv, ?_⟩
    rw [exec_invmod hne hm, inverseMatrixMod_of_coprime hm hdet hgcd hinv, scaledAdjugate_of_determinants hm invDet hsub,
      thenOptionItems, matItems_gridRows, finishOption,
      deliver_gridValues (length_le_of_matOk hmat) fun i j => inIntRange_emod hm hmod _]

end Sys2Proof.Machine
end

section
/-! The inverse modulo an integer (R124, R128, R156, R158): the determinant and the cofactors are the library's, so the scaled
adjugate that the six steps build is an inverse mod the modulus. -/

namespace Sys2Proof.Machine

open Sys2Proof.Claims

/-! ## The determinant and the cofactors (R124, R128) -/

theorem matrixOf_apply {n : Nat} (mat : Mat) (i j : Fin n) : matrixOf n mat i j = entry mat i j := rfl

/-- The index that skips `deleted` is the library's `succAbove`. -/
theorem skipping_eq_succAbove {n : Nat} (deleted : Fin (n + 1)) (k : Fin n) :
    skipping deleted k = (deleted.succAbove k : Nat) := by
  by_cases h : (k : Nat) < deleted <;> simp [skipping, Fin.succAbove, Fin.lt_def, h]

/-- Deleting a row and a column is the library's submatrix. -/
theorem matrixOf_minorOf {n : Nat} (mat : Mat) (row col : Fin (n + 1)) :
    matrixOf n (minorOf mat row col) = (matrixOf (n + 1) mat).submatrix row.succAbove col.succAbove := by
  ext i j
  simp [matrixOf_apply, entry_minorOf, skipping_eq_succAbove]

/-- One step of the expansion along row 0, which from size 3 on is the model's recursion (R124). -/
theorem det_matrixOf_succ (n : Nat) (mat : Mat) :
    (matrixOf (n + 1) mat).det =
      ∑ col ∈ Finset.range (n + 1), (-1) ^ col * entry mat 0 col * (matrixOf n (minorOf mat 0 col)).det := by
  rw [Matrix.det_succ_row_zero, Finset.sum_range]
  refine Finset.sum_congr rfl fun col _ => ?_
  rw [← Fin.succAbove_zero, ← matrixOf_minorOf]
  rfl

theorem detOfSize_eq_det (n : Nat) (mat : Mat) : detOfSize n mat = (matrixOf n mat).det := by
  induction n, mat using detOfSize.induct with
  | case1 mat => simp [detOfSize]
  | case2 mat => simp [detOfSize, matrixOf]
  | case3 mat => simp [detOfSize, matrixOf, Matrix.det_fin_two]
  | case4 n mat ih =>
    rw [detOfSize, det_matrixOf_succ]
    simp only [ih, altSign_eq_pow]
    rfl  -- the sum of the list over `List.range` is the sum over `Finset.range`

theorem detValue_eq_det (mat : Mat) : detValue mat = (matrixOf mat.length mat).det := detOfSize_eq_det mat.length mat

/-- The cofactor at the transposed place is the library's adjugate (R128, R129). -/
theorem adjugate_matrixOf {n : Nat} {mat : Mat} (hlen : mat.length = n) (i j : Fin n) :
    (matrixOf n mat).adjugate i j = cofactor mat j i := by
  cases n with
  | zero => exact i.elim0
  | succ n =>
    have hminor : (minorOf mat j i).length = n := by
      rw [length_minorOf (by omega), hlen, Nat.add_sub_cancel]
    rw [Matrix.adjugate_fin_succ_eq_det_submatrix, cofactor, altSign_eq_pow, detValue_eq_det, hminor, matrixOf_minorOf]

/-- Expansion along a column: the cofactors of column i against column k. -/
theorem sum_cofactor_mul_entry {mat : Mat} {i k : Nat} (hi : i < mat.length) (hk : k < mat.length) :
    ∑ j ∈ Finset.range mat.length, cofactor mat j i * entry mat j k = if i = k then detValue mat else 0 := by
  have h := congrFun (congrFun (matrixOf mat.length mat).adjugate_mul ⟨i, hi⟩) ⟨k, hk⟩
  rw [Matrix.mul_apply, ← detValue_eq_det] at h
  simp only [adjugate_matrixOf rfl, matrixOf_apply, Matrix.smul_apply, Matrix.one_apply, Fin.mk.injEq,
    smul_eq_mul, mul_ite, mul_one, mul_zero] at h
  rw [Finset.sum_range, h]

/-! ## The modular inverse of a number and of a matrix (R154, R156, R158) -/

/-- Every step of the extended recursion keeps a·x + b·y = g, whatever fuel is left. -/
theorem extendedGCDAux_bezout (fuel : Nat) (a b : Int) :
    a * (extendedGCDAux fuel a b).2.1 + b * (extendedGCDAux fuel a b).2.2 = (extendedGCDAux fuel a b).1 := by
  induction fuel generalizing a b with
  | zero => simp [extendedGCDAux]
  | succ fuel ih =>
    rw [extendedGCDAux]
    split
    next => simp
    next =>
      have hrest := ih b (modZ a b)
      simp only [modZ] at hrest ⊢
      linear_combination hrest

theorem mul_modInverse_modEq {a m r : Int} (hm : 1 ≤ m) (h : modInverse a m = some r) : a * r ≡ 1 [ZMOD m] := by
  have hbezout : a * (extendedGCD a m).2.1 + m * (extendedGCD a m).2.2 = (extendedGCD a m).1 :=
    extendedGCDAux_bezout _ a m
  rw [modInverse] at h
  split at h
  next => cases h
  next hfst =>
    rw [not_not.mp hfst] at hbezout
    obtain rfl := Option.some.inj h
    rw [modZ_eq_emod _ hm, ← hbezout]
    calc a * ((extendedGCD a m).2.1 % m) ≡ a * (extendedGCD a m).2.1 [ZMOD m] := (Int.mod_modEq _ m).mul_left a
      _ ≡ a * (extendedGCD a m).2.1 + m * (extendedGCD a m).2.2 [ZMOD m] := Int.modEq_add_fac_self.symm

/-- What it takes to come through the six steps of R158. -/
theorem inverseMatrixMod_eq_some {mat inverse : Mat} {modulus : Int} (hm : 1 ≤ modulus)
    (h : inverseMatrixMod mat modulus = .ok (some inverse)) :
    ∃ invDet, detValue mat * invDet ≡ 1 [ZMOD modulus] ∧ inverse = scaledAdjugate mat modulus invDet := by
  unfold inverseMatrixMod at h
  split at h
  next => cases h
  next det hdet =>
    obtain rfl := detValue_of_determinant hdet
    dsimp only at h
    split at h
    next => cases h
    next =>
      split at h
      next => cases h
      next invDet hinv =>
        refine ⟨invDet, ?_, by simpa using h.symm⟩
        have hmod : modZ (detValue mat) modulus ≡ detValue mat [ZMOD modulus] := by
          rw [modZ_eq_emod _ hm]
          exact Int.mod_modEq _ _
        exact (hmod.mul_right invDet).symm.trans (mul_modInverse_modEq hm hinv)

/-- The answer of the six steps is a matrix of residues of the operand's size (R158). -/
theorem inverseMatrixMod_eq_gridRows {mat inverse : Mat} {modulus : Int} (hm : 1 ≤ modulus)
    (h : inverseMatrixMod mat modulus = .ok (some inverse)) :
    ∃ f : Nat → Nat → Int, inverse = gridRows mat.length f ∧ ∀ i j, 0 ≤ f i j ∧ f i j < modulus := by
  obtain ⟨invDet, -, rfl⟩ := inverseMatrixMod_eq_some hm h
  exact ⟨_, scaledAdjugate_eq_gridRows hm mat invDet,
    fun _ _ => ⟨Int.emod_nonneg _ (by omega), Int.emod_lt_of_pos _ (by omega)⟩⟩

/-- The answer of the six steps, times the matrix, is the unit matrix mod the modulus (R161). -/
theorem inverseMatrixMod_mul_modEq {mat inverse : Mat} {modulus : Int} (hm : 1 ≤ modulus)
    (h : inverseMatrixMod mat modulus = .ok (some inverse)) {i k : Nat} (hi : i < mat.length) (hk : k < mat.length) :
    ∑ j ∈ Finset.range mat.length, entry inverse i j * entry mat j k ≡ if i = k then 1 else 0 [ZMOD modulus] := by
  obtain ⟨invDet, hdet, rfl⟩ := inverseMatrixMod_eq_some hm h
  have hentry : ∀ j ∈ Finset.range mat.length, entry (scaledAdjugate mat modulus invDet) i j * entry mat j k ≡
      invDet * (cofactor mat j i * entry mat j k) [ZMOD modulus] := by
    intro j hj
    rw [scaledAdjugate_eq_gridRows hm, entry_gridRows _ hi (Finset.mem_range.mp hj)]
    have hscaled : (cofactor mat j i % modulus * invDet) % modulus ≡ cofactor mat j i * invDet [ZMOD modulus] :=
      (Int.mod_modEq _ _).trans ((Int.mod_modEq _ _).mul_right _)
    calc _ ≡ cofactor mat j i * invDet * entry mat j k [ZMOD modulus] := hscaled.mul_right _
      _ = invDet * (cofactor mat j i * entry mat j k) := by ring
  calc _ ≡ ∑ j ∈ Finset.range mat.length, invDet * (cofactor mat j i * entry mat j k) [ZMOD modulus] :=
        Int.ModEq.sum hentry
    _ = invDet * if i = k then detValue mat else 0 := by rw [← Finset.mul_sum, sum_cofactor_mul_entry hi hk]
    _ ≡ if i = k then 1 else 0 [ZMOD modulus] := by
      split
      · rwa [mul_comm]
      · rw [mul_zero]

end Sys2Proof.Machine
end

section
/-! The Cipher Engine (R190 to R196): the product of a key matrix and a text mod 26, `encode` and `decode` as that product with
the key matrix and with its inverse, and the command ENCODE with DECODE as its undoing. -/

namespace Sys2Proof.Machine

open Sys2Proof.Claims

/-! ## The product mod 26 (R127) -/

/-- The sums of a matrix's rows with a vector, each reduced mod 26. -/
def residueProduct (mat : Mat) (vec : Vec) : Vec :=
  (List.range mat.length).map fun i => (∑ j ∈ Finset.range vec.length, entry mat i j * vec.getD j 0) % 26

theorem multiplyMatrixVector_residueProduct {mat : Mat} {vec : Vec} (h : ∀ row ∈ mat, row.length = vec.length) :
    multiplyMatrixVector mat vec = .ok (residueProduct mat vec) :=
  multiplyMatrixVector_rowSums h

@[simp] theorem length_residueProduct (mat : Mat) (vec : Vec) : (residueProduct mat vec).length = mat.length := by
  simp [residueProduct]

theorem getD_residueProduct {mat : Mat} {i : Nat} (hi : i < mat.length) (vec : Vec) :
    (residueProduct mat vec).getD i 0 = (∑ j ∈ Finset.range vec.length, entry mat i j * vec.getD j 0) % 26 := by
  simp [residueProduct, hi]

theorem residueProduct_range {mat : Mat} {vec : Vec} : ∀ v ∈ residueProduct mat vec, 0 ≤ v ∧ v ≤ 25 := by
  intro v hv
  obtain ⟨i, _, rfl⟩ := List.mem_map.mp hv
  omega

/-- With a matrix that is a left inverse mod 26, the second product gives back what the first was applied to: the two sums
change places, and the inner one is an entry of the unit matrix. -/
theorem residueProduct_residueProduct {mat inverse : Mat} {vec : Vec} (hmat : mat.length = vec.length)
    (hinverse : inverse.length = vec.length)
    (h : ∀ i < mat.length, ∀ k < mat.length,
      ∑ j ∈ Finset.range mat.length, entry inverse i j * entry mat j k ≡ if i = k then 1 else 0 [ZMOD 26])
    (hvec : ∀ v ∈ vec, 0 ≤ v ∧ v ≤ 25) : residueProduct inverse (residueProduct mat vec) = vec := by
  refine List.ext_getElem (by simp [hinverse]) fun i hproduct hi => ?_
  rw [hmat] at h
  have hsum : ∑ j ∈ Finset.range vec.length, entry inverse i j * (residueProduct mat vec).getD j 0 ≡
      vec.getD i 0 [ZMOD 26] := by
    calc _ ≡ ∑ j ∈ Finset.range vec.length, entry inverse i j *
          ∑ k ∈ Finset.range vec.length, entry mat j k * vec.getD k 0 [ZMOD 26] := by
          refine Int.ModEq.sum fun j hj => ?_
          rw [getD_residueProduct (hmat ▸ Finset.mem_range.mp hj)]
          exact (Int.mod_modEq _ _).mul_left _
      _ = ∑ k ∈ Finset.range vec.length,
          (∑ j ∈ Finset.range vec.length, entry inverse i j * entry mat j k) * vec.getD k 0 := by
          simp only [Finset.mul_sum, Finset.sum_mul, mul_assoc]
          exact Finset.sum_comm
      _ ≡ ∑ k ∈ Finset.range vec.length, (if i = k then 1 else 0) * vec.getD k 0 [ZMOD 26] :=
          Int.ModEq.sum fun k hk => (h i hi k (Finset.mem_range.mp hk)).mul_right _
      _ = vec.getD i 0 := by simp [hi]
  have hentry : (residueProduct inverse (residueProduct mat vec)).getD i 0 = vec.getD i 0 % 26 := by
    rw [getD_residueProduct (hinverse ▸ hi), length_residueProduct, hmat]
    exact hsum
  have hrange := hvec _ (List.getElem_mem hi)
  rw [List.getD_eq_getElem _ _ hi, List.getD_eq_getElem _ _ hproduct] at hentry
  rw [hentry]
  omega

/-! ## Letters of Symbols and Symbols of letters (R100, R102) -/

/-- The upper-case letters of a list of Symbols. -/
def lettersOf (vec : Vec) : Str := vec.map fun v => 0x41 + v.toNat

@[simp] theorem length_lettersOf (vec : Vec) : (lettersOf vec).length = vec.length := by simp [lettersOf]

theorem isUpper_lettersOf {vec : Vec} (h : ∀ v ∈ vec, 0 ≤ v ∧ v ≤ 25) : ∀ c ∈ lettersOf vec, IsUpper c := by
  intro c hc
  obtain ⟨v, hv, rfl⟩ := List.mem_map.mp hc
  have := h v hv
  exact ⟨by omega, by omega⟩

theorem map_letterValue_lettersOf {vec : Vec} (h : ∀ v ∈ vec, 0 ≤ v ∧ v ≤ 25) :
    (lettersOf vec).map letterValue = vec := by
  have hletter : ∀ v ∈ vec, letterValue (0x41 + v.toNat) = v := by
    intro v hv
    have := h v hv
    rw [letterValue_upper ⟨by omega, by omega⟩]
    omega
  rw [lettersOf, List.map_map]
  exact (List.map_congr_left hletter).trans (List.map_id' vec)

theorem upperOf_eq {c : Nat} (h : IsLetter c) : upperOf c = 0x41 + (letterValue c).toNat := by
  rcases h with h | h
  · rw [letterValue_upper h, upperOf, if_neg (by omega)]; omega
  · rw [letterValue_lower h, upperOf, if_pos h]; omega

theorem lettersOf_map_letterValue {str : Str} (h : ∀ c ∈ str, IsLetter c) :
    lettersOf (str.map letterValue) = str.map upperOf := by
  rw [lettersOf, List.map_map]
  exact List.map_congr_left fun c hc => (upperOf_eq (h c hc)).symm

theorem map_letterValue_range {str : Str} (h : ∀ c ∈ str, IsLetter c) :
    ∀ v ∈ str.map letterValue, 0 ≤ v ∧ v ≤ 25 := by
  intro v hv
  obtain ⟨c, hc, rfl⟩ := List.mem_map.mp hv
  exact letterValue_range (h c hc)

theorem stringToVector_letters {str : Str} (h : ∀ c ∈ str, IsLetter c) :
    stringToVector str = .ok (str.map letterValue) :=
  mapRaising_charToSymbol_letters h

theorem stringToVector_nonLetter {str : Str} (h : ∃ c ∈ str, ¬IsLetter c) :
    stringToVector str = .error .invalidCharacter :=
  mapRaising_charToSymbol_nonLetter h

theorem mapRaising_symbolToChar_lettersOf {vec : Vec} (h : ∀ v ∈ vec, 0 ≤ v ∧ v ≤ 25) :
    mapRaising symbolToChar vec = .ok (lettersOf vec) :=
  mapRaising_symbolToChar_symbols h

/-! ## The key matrix and its string (R105, R106) -/

theorem length_of_mem_gridRows {n : Nat} {f : Nat → Nat → Int} {row : List Int} (h : row ∈ gridRows n f) :
    row.length = n := by
  obtain ⟨i, _, rfl⟩ := List.mem_map.mp h
  simp

theorem square_gridRows (n : Nat) (f : Nat → Nat → Int) : Square (gridRows n f) := by
  intro row hrow
  rw [length_of_mem_gridRows hrow, length_gridRows]

@[simp] theorem length_keyMatrix (n : Nat) (key : Str) : (keyMatrix n key).length = n := length_gridRows n _

theorem stringToMatrix_keyMatrix {key : Str} {n : Nat} (hlen : key.length = n * n) (h : ∀ c ∈ key, IsLetter c) :
    stringToMatrix key = .ok (keyMatrix n key) :=
  stringToMatrix_letters hlen h

/-- Row after row of one length, the entry (i, j) stands at index i·n + j. -/
theorem getD_flatMap_rows (rows n : Nat) (f : Nat → Nat → Int) {i j : Nat} (hi : i < rows) (hj : j < n) :
    ((List.range rows).flatMap fun i => (List.range n).map (f i)).getD (i * n + j) 0 = f i j := by
  induction rows with
  | zero => omega
  | succ rows ih =>
    have hlen : ((List.range rows).flatMap fun i => (List.range n).map (f i)).length = rows * n := by simp
    rw [List.range_succ, List.flatMap_append]
    rcases Nat.lt_succ_iff_lt_or_eq.mp hi with hlt | rfl
    · have hindex : i * n + j < rows * n := by nlinarith
      rw [List.getD_append _ _ _ _ (hlen ▸ hindex), ih hlt]
    · rw [List.getD_append_right _ _ _ _ (by omega), hlen]
      simp [hj]

section

variable {n : Nat} {f : Nat → Nat → Int}

theorem length_lettersOf_flatten : (lettersOf (gridRows n f).flatten).length = n * n := by
  rw [length_lettersOf, length_flatten_of_square (square_gridRows n f), length_gridRows]

variable (h : ∀ i j, 0 ≤ f i j ∧ f i j ≤ 25)
include h

theorem flatten_gridRows_range : ∀ v ∈ (gridRows n f).flatten, 0 ≤ v ∧ v ≤ 25 := by
  intro v hv
  rw [flatten_gridRows] at hv
  simp only [List.mem_flatMap, List.mem_map] at hv
  obtain ⟨i, _, j, _, rfl⟩ := hv
  exact h i j

theorem matrixToString_gridRows : matrixToString (gridRows n f) = .ok (lettersOf (gridRows n f).flatten) := by
  rw [matrixToString_square (square_gridRows n f), mapRaising_symbolToChar_lettersOf (flatten_gridRows_range h)]

/-- A square matrix of Symbols is what its string fills. -/
theorem stringToMatrix_lettersOf_flatten :
    stringToMatrix (lettersOf (gridRows n f).flatten) = .ok (gridRows n f) := by
  have hsymbols := flatten_gridRows_range (n := n) h
  have hletters : ∀ c ∈ lettersOf (gridRows n f).flatten, IsLetter c :=
    fun c hc => .inl (isUpper_lettersOf hsymbols c hc)
  rw [stringToMatrix_letters length_lettersOf_flatten hletters, ← rowMajor_letterValues length_lettersOf_flatten,
    map_letterValue_lettersOf hsymbols, flatten_gridRows]
  exact congrArg Except.ok (gridRows_congr fun i hi j hj => getD_flatMap_rows n n f hi hj)

end

/-! ## `encode` (R190) -/

/-- With a key that fills a matrix and a text of letters, `encode` answers the letters of the product. -/
theorem encodeText_letters {text key : Str} {mat : Mat} (hlen : text.length * text.length = key.length)
    (hkey : stringToMatrix key = .ok mat) (hrows : ∀ row ∈ mat, row.length = text.length)
    (htext : ∀ c ∈ text, IsLetter c) :
    encodeText text key = .ok (lettersOf (residueProduct mat (text.map letterValue))) := by
  have hproduct : multiplyMatrixVector mat (text.map letterValue) = .ok (residueProduct mat (text.map letterValue)) :=
    multiplyMatrixVector_residueProduct (by simpa using hrows)
  simp [encodeText, hlen, hkey, stringToVector_letters htext, hproduct, vectorToString,
    mapRaising_symbolToChar_lettersOf residueProduct_range]

theorem encodeText_nonLetter {text key : Str} (hlen : text.length * text.length = key.length)
    (h : ∃ c ∈ key ++ text, ¬IsLetter c) : encodeText text key = .error .invalidCharacter := by
  by_cases hkey : ∀ c ∈ key, IsLetter c
  · have htext : ∃ c ∈ text, ¬IsLetter c := by
      obtain ⟨c, hc, hletter⟩ := h
      exact ⟨c, (List.mem_append.mp hc).resolve_left fun hc => hletter (hkey c hc), hletter⟩
    simp [encodeText, hlen, stringToMatrix_keyMatrix hlen.symm hkey, stringToVector_nonLetter htext]
  · simp [encodeText, hlen, stringToMatrix_nonLetter hlen.symm (by simpa using hkey)]

/-! ## `decode` (R193) -/

/-- With a key of letters whose matrix has an inverse, `decode` answers the letters of the inverse's product. -/
theorem decodeText_letters {text key : Str} {inverse : Mat} (hlen : text.length * text.length = key.length)
    (hkey : ∀ c ∈ key, IsLetter c)
    (hinverse : inverseMatrixMod (keyMatrix text.length key) 26 = .ok (some inverse))
    (htext : ∀ c ∈ text, IsLetter c) :
    decodeText text key = .ok (lettersOf (residueProduct inverse (text.map letterValue))) := by
  obtain ⟨f, rfl, hrange⟩ := inverseMatrixMod_eq_gridRows (by decide) hinverse
  rw [length_keyMatrix] at hinverse ⊢
  have hsymbols : ∀ i j, 0 ≤ f i j ∧ f i j ≤ 25 := fun i j => ⟨(hrange i j).1, Int.le_of_lt_add_one (hrange i j).2⟩
  have hencode := encodeText_letters length_lettersOf_flatten.symm (stringToMatrix_lettersOf_flatten hsymbols)
    (fun row hrow => length_of_mem_gridRows hrow) htext
  simp [decodeText, hlen, stringToMatrix_keyMatrix hlen.symm hkey, hinverse, matrixToString_gridRows hsymbols, hencode]

/-! ## What ENCODE delivers, as Symbols (R190, R196) -/

/-- The Symbols that a text becomes under a key. -/
def cipherSymbols (text key : Str) : Vec := residueProduct (keyMatrix text.length key) (text.map letterValue)

theorem cipherSymbols_range {text key : Str} : ∀ v ∈ cipherSymbols text key, 0 ≤ v ∧ v ≤ 25 := residueProduct_range

@[simp] theorem length_cipherSymbols (text key : Str) : (cipherSymbols text key).length = text.length := by
  rw [cipherSymbols, length_residueProduct, length_keyMatrix]

/-- The sums of R190, letter by letter. -/
theorem cipherSymbols_eq_sums (text key : Str) :
    cipherSymbols text key = (List.range text.length).map fun i => (∑ j ∈ Finset.range text.length,
      letterValue (key.getD (i * text.length + j) 0) * letterValue (text.getD j 0)) % 26 := by
  rw [cipherSymbols, residueProduct, List.length_map, length_keyMatrix]
  refine List.map_congr_left fun i hi => congrArg (· % 26) (Finset.sum_congr rfl fun j hj => ?_)
  have hj : j < text.length := Finset.mem_range.mp hj
  rw [keyMatrix, entry_gridRows _ (List.mem_range.mp hi) hj]
  simp [hj]

/-- The inverse of the key matrix takes them back to the Symbols of the text. -/
theorem residueProduct_cipherSymbols {text key : Str} {inverse : Mat} (htext : ∀ c ∈ text, IsLetter c)
    (hinverse : inverseMatrixMod (keyMatrix text.length key) 26 = .ok (some inverse)) :
    residueProduct inverse (cipherSymbols text key) = text.map letterValue := by
  have hsize : inverse.length = text.length := by
    obtain ⟨f, rfl, -⟩ := inverseMatrixMod_eq_gridRows (by decide) hinverse
    rw [length_gridRows, length_keyMatrix]
  exact residueProduct_residueProduct (by simp) (by simpa using hsize)
    (fun i hi k hk => inverseMatrixMod_mul_modEq (by decide) hinverse hi hk) (map_letterValue_range htext)

/-! ## ENCODE and DECODE -/

theorem exec_encode_length {text key : Str} (h : text.length * text.length ≠ key.length) (s : State) :
    exec (.encode text key) s = .next (endedError s .invalidKeyLength) := by
  rw [exec, execEncode, if_pos h, complete_error]

theorem exec_encode {text key : Str} (hne : text ≠ []) (hlen : text.length * text.length = key.length) (s : State) :
    exec (.encode text key) s = finish (thenItems strItems (encodeText text key)) s := by
  rw [exec, execEncode, if_neg (not_not.mpr hlen), if_neg (by simpa using hne)]

theorem exec_decode {text key : Str} (hne : text ≠ []) (hlen : text.length * text.length = key.length) (s : State) :
    exec (.decode text key) s = finish (thenItems strItems (decodeText text key)) s := by
  rw [exec, execDecode, if_neg (not_not.mpr hlen), if_neg (by simpa using hne)]

/-- A cipher command that answers the letters of at most 225 Symbols ends OK with them. -/
theorem finish_lettersOf {vec : Vec} (hlen : vec.length ≤ 225) (h : ∀ v ∈ vec, 0 ≤ v ∧ v ≤ 25) (s : State) :
    finish (thenItems strItems (.ok (lettersOf vec))) s = .next (endedOk s (strItems (lettersOf vec))) := by
  rw [← mapRaising_symbolToChar_lettersOf h, finish_letters hlen h, lettersOf, strItems_letters h]

theorem exec_encode_letters {text key : Str} (hne : text ≠ []) (hlen : text.length * text.length = key.length)
    (hok : strOk text = true) (h : ∀ c ∈ key ++ text, IsLetter c) (s : State) :
    exec (.encode text key) s = .next (endedOk s (strItems (lettersOf (cipherSymbols text key)))) := by
  obtain ⟨hkey, htext⟩ := List.forall_mem_append.mp h
  have hbound : (cipherSymbols text key).length ≤ 225 := by simpa using length_le_of_strOk hok
  rw [exec_encode hne hlen, encodeText_letters hlen (stringToMatrix_keyMatrix hlen.symm hkey)
    (fun row hrow => length_of_mem_gridRows hrow) htext]
  exact finish_lettersOf hbound cipherSymbols_range s

/-- Settles O29, by the tests of ENCODE in order and the product mod 26 as the sum over the indices. -/
theorem encodeMultipliesByTheKey : Obligations.EncodeMultipliesByTheKey := by
  intro text key s
  refine ⟨runsAs_of_decode fun hwf => ?_,
    longFirst_of_decode fun w rest hw =>
      ofParsed_overCapacity _ (Parser.andThen_overCapacity _ (parseStr_overCapacity hw rest)),
    fun w rest hok hw => ?_, fun h => exec_encode_length h s, ?_, fun hne hlen h => ?_, fun hne hlen hok h => ?_⟩
  · obtain ⟨htext, hkey⟩ := Bool.and_eq_true_iff.mp hwf
    exact ofParsed_ok (fun p => Instr.encode p.1 p.2) (Parser.pair_items (parseStr_items htext) (parseStr_items hkey))
  · have hparse := Parser.pair_overCapacity_second (parseStr_items hok (w :: rest)) (parseStr_overCapacity hw rest)
    exact endsOverCapacity_of_decode (ofParsed_overCapacity (fun p : Str × Str => Instr.encode p.1 p.2) hparse)
  · rintro rfl rfl
    exact refuse_eq_endedRefused .unspecified s
  · rw [exec_encode hne hlen, encodeText_nonLetter hlen h]
    exact finish_error _ s
  · rw [exec_encode_letters hne hlen hok h, lettersOf, strItems_letters cipherSymbols_range, length_cipherSymbols,
      cipherSymbols_eq_sums, List.map_map]
    rfl

/-- Settles O31: DECODE multiplies by a left inverse mod 26 of the matrix ENCODE multiplied by, and the Symbols of the text
are their own residues. -/
theorem decodeUndoesEncode : Obligations.DecodeUndoesEncode := by
  intro text key hne hlen hok _ h ⟨inverse, hinverse⟩
  obtain ⟨hkey, htext⟩ := List.forall_mem_append.mp h
  have hlength : (lettersOf (cipherSymbols text key)).length = text.length := by simp
  have hupper : ∀ c ∈ lettersOf (cipherSymbols text key), IsUpper c := isUpper_lettersOf cipherSymbols_range
  refine ⟨lettersOf (cipherSymbols text key), hlength, hupper, exec_encode_letters hne hlen hok h, fun s => ?_⟩
  have hdecode : decodeText (lettersOf (cipherSymbols text key)) key = .ok (lettersOf (text.map letterValue)) := by
    rw [decodeText_letters (by rw [hlength, hlen]) hkey (by rw [hlength, hinverse]) fun c hc => .inl (hupper c hc),
      map_letterValue_lettersOf cipherSymbols_range, residueProduct_cipherSymbols htext hinverse]
  have hcipher : lettersOf (cipherSymbols text key) ≠ [] := by
    rwa [← List.length_pos_iff, hlength, List.length_pos_iff]
  have hbound : (text.map letterValue).length ≤ 225 := by simpa using length_le_of_strOk hok
  rw [exec_decode hcipher (by rw [hlength, hlen]), hdecode, finish_lettersOf hbound (map_letterValue_range htext),
    lettersOf_map_letterValue htext]

end Sys2Proof.Machine
end

section
/-! The operand formats as the encoder and the decoder share them (R72 to R79): which words a parser accepts, at which word it
stops over capacity, how many words it visits; and from that every verdict of the decoder of R84. -/

namespace Sys2Proof.Machine

open Sys2Proof.Claims

/-! ## What a parser does with the words it is given -/

/-- The parser accepts exactly the layouts of the values that pass the check, and leaves the words after them. -/
def Parser.Reads {α : Type} (p : Parser α) (ok : α → Bool) (layout : α → List Int) : Prop :=
  ∀ ws a rest, p ws = .ok a rest ↔ ok a = true ∧ ws = wordsOf (layout a) ++ rest

/-- The parser visits at most n words. -/
structure Parser.Visits {α : Type} (p : Parser α) (n : Nat) : Prop where
  ofOk : ∀ ws a rest, p ws = .ok a rest → rest.length ≤ ws.length ∧ ws.length ≤ n + rest.length
  ofOver : ∀ ws rest, p ws = .overCapacity rest → rest.length < ws.length ∧ ws.length ≤ n + rest.length
  ofUnwritten : ∀ ws, p ws = .unwritten → ws.length < n

/-- After the words `before` the parser looks at a length word with this bound: over the bound it stops there; otherwise it
takes that word, and where it stops later it has taken at least one more. -/
structure Parser.BoundedAfter {α : Type} (p : Parser α) (before : List Word) (bound : Nat) : Prop where
  stopsOver : ∀ (v : Word) (later : List Word), bound < v.toNat → p (before ++ v :: later) = .overCapacity later
  okWithin : ∀ (v : Word) (later : List Word) a rest, p (before ++ v :: later) = .ok a rest → rest.length ≤ later.length
  overWithin : ∀ (v : Word) (later rest : List Word), v.toNat ≤ bound → p (before ++ v :: later) = .overCapacity rest →
    rest.length < later.length

/-- Every over-capacity verdict comes from one word over its bound, and the words before it with that bound are a `place`. -/
def Parser.StopsAt {α : Type} (p : Parser α) (place : List Word → Nat → Prop) : Prop :=
  ∀ ws rest, p ws = .overCapacity rest →
    ∃ (before : List Word) (w : Word) (bound : Nat), ws = before ++ w :: rest ∧ bound < w.toNat ∧
      p.BoundedAfter before bound ∧ place before bound

/-- All of this about one operand format. -/
structure Parser.Format {α : Type} (p : Parser α) (ok : α → Bool) (layout : α → List Int)
    (place : List Word → Nat → Prop) (size : Nat) : Prop where
  reads : p.Reads ok layout
  stops : p.StopsAt place
  visits : p.Visits size

/-! ## One operand after another (R79) -/

theorem Parser.andThen_eq_ok {α β : Type} {p : Parser α} {f : α → Parser β} {ws rest : List Word} {b : β} :
    p.andThen f ws = .ok b rest ↔ ∃ a mid, p ws = .ok a mid ∧ f a mid = .ok b rest := by
  cases h : p ws <;> simp [Parser.andThen, h]

theorem Parser.andThen_eq_overCapacity {α β : Type} {p : Parser α} {f : α → Parser β} {ws rest : List Word} :
    p.andThen f ws = .overCapacity rest ↔
      p ws = .overCapacity rest ∨ ∃ a mid, p ws = .ok a mid ∧ f a mid = .overCapacity rest := by
  cases h : p ws <;> simp [Parser.andThen, h]

theorem Parser.andThen_eq_unwritten {α β : Type} {p : Parser α} {f : α → Parser β} {ws : List Word} :
    p.andThen f ws = .unwritten ↔ p ws = .unwritten ∨ ∃ a mid, p ws = .ok a mid ∧ f a mid = .unwritten := by
  cases h : p ws <;> simp [Parser.andThen, h]

theorem Parser.Reads.ok_append {α : Type} {p : Parser α} {ok : α → Bool} {layout : α → List Int}
    (hp : p.Reads ok layout) {a : α} (ha : ok a = true) (rest : List Word) :
    p (wordsOf (layout a) ++ rest) = .ok a rest :=
  (hp _ _ _).mpr ⟨ha, rfl⟩

theorem Parser.StopsAt.mono {α : Type} {p : Parser α} {place place' : List Word → Nat → Prop} (hp : p.StopsAt place)
    (h : ∀ before bound, place before bound → place' before bound) : p.StopsAt place' := by
  intro ws rest hws
  obtain ⟨before, w, bound, hsplit, hover, hbounded, hplace⟩ := hp ws rest hws
  exact ⟨before, w, bound, hsplit, hover, hbounded, h before bound hplace⟩

theorem Parser.Visits.mono {α : Type} {p : Parser α} {n m : Nat} (hp : p.Visits n) (h : n ≤ m) : p.Visits m where
  ofOk ws a rest hws := by have := hp.ofOk ws a rest hws; omega
  ofOver ws rest hws := by have := hp.ofOver ws rest hws; omega
  ofUnwritten ws hws := by have := hp.ofUnwritten ws hws; omega

section

variable {α β : Type} {p : Parser α} {f : α → Parser β} {ok : α → Bool} {layout : α → List Int}

theorem Parser.Visits.andThen {n m : Nat} (hr : p.Reads ok layout) (hp : p.Visits n)
    (hf : ∀ a, ok a = true → (f a).Visits m) : (p.andThen f).Visits (n + m) where
  ofOk ws b rest h := by
    obtain ⟨a, mid, ha, hb⟩ := Parser.andThen_eq_ok.mp h
    have := hp.ofOk ws a mid ha
    have := (hf a ((hr ws a mid).mp ha).1).ofOk mid b rest hb
    omega
  ofOver ws rest h := by
    rcases Parser.andThen_eq_overCapacity.mp h with h | ⟨a, mid, ha, hb⟩
    · have := hp.ofOver ws rest h
      omega
    · have := hp.ofOk ws a mid ha
      have := (hf a ((hr ws a mid).mp ha).1).ofOver mid rest hb
      omega
  ofUnwritten ws h := by
    rcases Parser.andThen_eq_unwritten.mp h with h | ⟨a, mid, ha, hb⟩
    · have := hp.ofUnwritten ws h
      omega
    · have := hp.ofOk ws a mid ha
      have := (hf a ((hr ws a mid).mp ha).1).ofUnwritten mid hb
      omega

/-- A bound met in the first operand is a bound of the whole. -/
theorem Parser.BoundedAfter.andThen_first {m bound : Nat} {before : List Word} (hr : p.Reads ok layout)
    (hp : p.BoundedAfter before bound) (hf : ∀ a, ok a = true → (f a).Visits m) :
    (p.andThen f).BoundedAfter before bound where
  stopsOver v later hv := Parser.andThen_overCapacity f (hp.stopsOver v later hv)
  okWithin v later b rest h := by
    obtain ⟨a, mid, ha, hb⟩ := Parser.andThen_eq_ok.mp h
    have := hp.okWithin v later a mid ha
    have := (hf a ((hr _ a mid).mp ha).1).ofOk mid b rest hb
    omega
  overWithin v later rest hv h := by
    rcases Parser.andThen_eq_overCapacity.mp h with h | ⟨a, mid, ha, hb⟩
    · exact hp.overWithin v later rest hv h
    · have := hp.okWithin v later a mid ha
      have := (hf a ((hr _ a mid).mp ha).1).ofOver mid rest hb
      omega

/-- A bound met in the second operand is a bound of the whole, the first operand's words before it. -/
theorem Parser.BoundedAfter.andThen_second {bound : Nat} {a : α} {before : List Word} (hr : p.Reads ok layout)
    (ha : ok a = true) (hf : (f a).BoundedAfter before bound) :
    (p.andThen f).BoundedAfter (wordsOf (layout a) ++ before) bound := by
  have hfirst : ∀ ws, p.andThen f (wordsOf (layout a) ++ before ++ ws) = f a (before ++ ws) := fun ws => by
    rw [List.append_assoc]
    exact Parser.andThen_ok (hr.ok_append ha _)
  refine ⟨fun v later hv => ?_, fun v later b rest h => ?_, fun v later rest hv h => ?_⟩
  · rw [hfirst, hf.stopsOver v later hv]
  · exact hf.okWithin v later b rest (hfirst _ ▸ h)
  · exact hf.overWithin v later rest hv (hfirst _ ▸ h)

theorem Parser.StopsAt.andThen {m : Nat} {place : List Word → Nat → Prop} {place' : α → List Word → Nat → Prop}
    (hr : p.Reads ok layout) (hp : p.StopsAt place) (hv : ∀ a, ok a = true → (f a).Visits m)
    (hf : ∀ a, ok a = true → (f a).StopsAt (place' a)) :
    (p.andThen f).StopsAt fun before bound => place before bound ∨
      ∃ a later, ok a = true ∧ before = wordsOf (layout a) ++ later ∧ place' a later bound := by
  intro ws rest h
  rcases Parser.andThen_eq_overCapacity.mp h with h | ⟨a, mid, ha, hb⟩
  · obtain ⟨before, w, bound, hsplit, hover, hbounded, hplace⟩ := hp ws rest h
    exact ⟨before, w, bound, hsplit, hover, hbounded.andThen_first hr hv, .inl hplace⟩
  · obtain ⟨hok, rfl⟩ := (hr ws a mid).mp ha
    obtain ⟨before, w, bound, rfl, hover, hbounded, hplace⟩ := hf a hok mid rest hb
    exact ⟨_, w, bound, (List.append_assoc ..).symm, hover, hbounded.andThen_second hr hok,
      .inr ⟨a, before, hok, rfl, hplace⟩⟩

end

/-- Handing on a value visits no word and stops at none. -/
theorem Parser.give_visits {α : Type} (a : α) : (Parser.give a).Visits 0 where
  ofOk ws b rest h := by cases h; simp
  ofOver ws rest h := by cases h
  ofUnwritten ws h := by cases h

theorem Parser.give_stopsAt {α : Type} (a : α) (place : List Word → Nat → Prop) : (Parser.give a).StopsAt place := by
  intro ws rest h
  cases h

/-- Handing on what a parser has read, under another name, changes nothing of where it stops and what it visits. -/
theorem Parser.Format.mapOk {α β : Type} {p : Parser α} {ok : α → Bool} {layout : α → List Int}
    {place : List Word → Nat → Prop} {size : Nat} (hp : p.Format ok layout place size) (g : α → β) :
    (p.andThen fun a => Parser.give (g a)).Visits size ∧ (p.andThen fun a => Parser.give (g a)).StopsAt place := by
  refine ⟨hp.visits.andThen hp.reads fun a _ => Parser.give_visits (g a), ?_⟩
  refine (hp.stops.andThen hp.reads (fun a _ => Parser.give_visits (g a))
    (fun a _ => Parser.give_stopsAt (g a) fun _ _ => False)).mono fun before bound h => ?_
  rcases h with h | ⟨_, _, _, _, h⟩
  · exact h
  · exact h.elim

/-- Two operands in layout order. -/
theorem Parser.Format.pair {α β : Type} {p : Parser α} {q : Parser β} {okp : α → Bool} {okq : β → Bool}
    {lp : α → List Int} {lq : β → List Int} {place place' : List Word → Nat → Prop} {n m : Nat}
    (hp : p.Format okp lp place n) (hq : q.Format okq lq place' m) :
    (p.pair q).Format (fun x => okp x.1 && okq x.2) (fun x => lp x.1 ++ lq x.2)
      (fun before bound => place before bound ∨
        ∃ a later, okp a = true ∧ before = wordsOf (lp a) ++ later ∧ place' later bound) (n + m) where
  reads ws x rest := by
    constructor
    · intro h
      obtain ⟨a, mid, ha, hb⟩ := Parser.andThen_eq_ok.mp h
      obtain ⟨b, last, hb, hgive⟩ := Parser.andThen_eq_ok.mp hb
      cases hgive
      obtain ⟨hokp, rfl⟩ := (hp.reads _ _ _).mp ha
      obtain ⟨hokq, rfl⟩ := (hq.reads _ _ _).mp hb
      exact ⟨by simp [hokp, hokq], by simp [wordsOf_append]⟩
    · rintro ⟨h, rfl⟩
      obtain ⟨hokp, hokq⟩ := Bool.and_eq_true_iff.mp h
      exact Parser.pair_items (hp.reads.ok_append hokp) (hq.reads.ok_append hokq) rest
  stops := hp.stops.andThen hp.reads (fun a _ => (hq.mapOk fun b => (a, b)).1) fun a _ => (hq.mapOk fun b => (a, b)).2
  visits := hp.visits.andThen hp.reads fun a _ => (hq.mapOk fun b => (a, b)).1

/-! ## The single words (R72 to R74) -/

theorem parseWord_eq_ok {ws rest : List Word} {w : Word} : parseWord ws = .ok w rest ↔ ws = w :: rest := by
  cases ws <;> simp [parseWord]

theorem ofValue_int (w : Word) : Word.ofValue w.int = w := BitVec.ofInt_toInt

theorem ofValue_uns (w : Word) : Word.ofValue (w.uns : Int) = w := by simp [Word.ofValue, Word.uns]

theorem inIntRange_int (w : Word) : inIntRange w.int = true := by
  have hlow : -2 ^ 63 ≤ w.int := w.le_toInt
  have hhigh : w.int < 2 ^ 63 := w.toInt_lt
  simp only [inIntRange, decide_eq_true_eq]
  omega

theorem charOk_uns (w : Word) : charOk w.uns = true := decide_eq_true w.isLt

/-- One word that is read as it stands. -/
theorem parseWord_andThen_give {α : Type} {ok : α → Bool} {layout : α → List Int} {g : Word → α}
    (hok : ∀ w, ok (g w) = true) (hword : ∀ w, wordsOf (layout (g w)) = [w])
    (hitems : ∀ a rest, ok a = true → parseWord.andThen (fun w => Parser.give (g w)) (wordsOf (layout a) ++ rest) = .ok a rest) :
    (parseWord.andThen fun w => Parser.give (g w)).Format ok layout (fun _ _ => False) 1 where
  reads ws a rest := by
    refine ⟨fun h => ?_, fun ⟨ha, hws⟩ => hws ▸ hitems a rest ha⟩
    obtain ⟨w, mid, hw, hgive⟩ := Parser.andThen_eq_ok.mp h
    obtain rfl := parseWord_eq_ok.mp hw
    cases hgive
    exact ⟨hok w, by rw [hword]; rfl⟩
  stops ws rest h := by cases ws <;> cases h
  visits :=
    { ofOk := fun ws a rest h => by cases ws <;> cases h; simp [Nat.add_comm]
      ofOver := fun ws rest h => by cases ws <;> cases h
      ofUnwritten := fun ws h => by cases ws <;> cases h; simp }

theorem parseInt_format : parseInt.Format inIntRange intItems (fun _ _ => False) 1 :=
  parseWord_andThen_give inIntRange_int (fun w => congrArg (fun v => [v]) (ofValue_int w))
    fun _ rest h => parseInt_items h rest

theorem parseChar_format : parseChar.Format charOk charItems (fun _ _ => False) 1 :=
  parseWord_andThen_give charOk_uns (fun w => congrArg (fun v => [v]) (ofValue_uns w))
    fun _ rest h => parseChar_items h rest

theorem parseLength_eq_ok {bound k : Nat} {ws rest : List Word} (h : parseLength bound ws = .ok k rest) :
    k ≤ bound ∧ ws = Word.ofValue (k : Int) :: rest := by
  obtain ⟨w, mid, hw, hk⟩ := Parser.andThen_eq_ok.mp h
  obtain rfl := parseWord_eq_ok.mp hw
  split at hk
  · cases hk
  · cases hk
    exact ⟨by omega, by rw [ofValue_uns]⟩

theorem parseLength_eq_overCapacity {bound : Nat} {ws rest : List Word} (h : parseLength bound ws = .overCapacity rest) :
    ∃ w : Word, bound < w.toNat ∧ ws = w :: rest := by
  rcases Parser.andThen_eq_overCapacity.mp h with h | ⟨w, mid, hw, hk⟩
  · cases ws <;> cases h
  · obtain rfl := parseWord_eq_ok.mp hw
    split at hk
    · cases hk
      exact ⟨w, ‹_›, rfl⟩
    · cases hk

theorem parseLength_ne_unwritten (bound : Nat) (w : Word) (rest : List Word) :
    parseLength bound (w :: rest) ≠ .unwritten := by
  intro h
  rcases Parser.andThen_eq_unwritten.mp h with h | ⟨v, mid, -, hk⟩
  · cases h
  · split at hk <;> cases hk

/-- A length word is the only word that can be over a bound. -/
theorem parseLength_format {bound : Nat} (hb : bound < 18446744073709551616) :
    (parseLength bound).Format (fun k => decide (k ≤ bound)) (fun k => [(k : Int)])
      (fun before b => before = [] ∧ b = bound) 1 where
  reads ws k rest := by
    refine ⟨fun h => ?_, fun ⟨hk, hws⟩ => hws ▸ parseLength_within (of_decide_eq_true hk) hb rest⟩
    obtain ⟨hk, rfl⟩ := parseLength_eq_ok h
    exact ⟨decide_eq_true hk, rfl⟩
  stops ws rest h := by
    obtain ⟨w, hw, rfl⟩ := parseLength_eq_overCapacity h
    refine ⟨[], w, bound, rfl, hw, ⟨fun v later hv => parseLength_over hv later, fun v later k mid hk => ?_,
      fun v later mid hv hk => ?_⟩, rfl, rfl⟩
    · obtain ⟨-, hsplit⟩ := parseLength_eq_ok hk
      cases hsplit
      exact le_refl _
    · obtain ⟨u, hu, hsplit⟩ := parseLength_eq_overCapacity hk
      cases hsplit
      omega
  visits :=
    { ofOk := fun ws k rest h => by
        obtain ⟨-, rfl⟩ := parseLength_eq_ok h
        simp [Nat.add_comm]
      ofOver := fun ws rest h => by
        obtain ⟨w, -, rfl⟩ := parseLength_eq_overCapacity h
        simp [Nat.add_comm]
      ofUnwritten := fun ws h => by
        cases ws with
        | nil => simp
        | cons w rest => exact absurd h (parseLength_ne_unwritten bound w rest) }

/-! ## Counted items: STR, VEC, a row, MAT (R75 to R77) -/

section

variable {α : Type} {p : Parser α} {ok : α → Bool} {layout : α → List Int} {place : List Word → Nat → Prop} {size : Nat}
  (hp : p.Format ok layout place size)
include hp

theorem parseMany_reads (k : Nat) :
    (parseMany p k).Reads (fun as => decide (as.length = k) && as.all ok) fun as => as.flatMap layout := by
  intro ws as rest
  constructor
  · intro h
    induction k generalizing ws as with
    | zero => cases h; exact ⟨rfl, rfl⟩
    | succ k ih =>
      obtain ⟨a, mid, ha, hmore⟩ := Parser.andThen_eq_ok.mp h
      obtain ⟨more, last, hmany, hgive⟩ := Parser.andThen_eq_ok.mp hmore
      cases hgive
      obtain ⟨hok, rfl⟩ := (hp.reads ws a mid).mp ha
      obtain ⟨hall, rfl⟩ := ih _ _ hmany
      simp only [Bool.and_eq_true, decide_eq_true_eq] at hall
      exact ⟨by simp [hok, hall], by simp [wordsOf_append]⟩
  · rintro ⟨h, rfl⟩
    simp only [Bool.and_eq_true, decide_eq_true_eq, List.all_eq_true] at h
    obtain ⟨rfl, hall⟩ := h
    have hwords : wordsOf (as.flatMap layout) = as.flatMap fun a => wordsOf (layout a) := by
      simp [wordsOf, List.map_flatMap]
    rw [hwords]
    exact parseMany_items as (fun a ha => hp.reads.ok_append (hall a ha)) rest

theorem parseMany_visits (k : Nat) : (parseMany p k).Visits (k * size) := by
  induction k with
  | zero => exact (Parser.give_visits []).mono (by omega)
  | succ k ih =>
    have hmore : ∀ a : α, ((parseMany p k).andThen fun as => Parser.give (a :: as)).Visits (k * size + 0) :=
      fun a => ih.andThen (parseMany_reads hp k) fun as _ => Parser.give_visits (a :: as)
    exact (hp.visits.andThen hp.reads fun a _ => hmore a).mono (by rw [Nat.succ_mul]; omega)

/-- Among the items, a bound is one of an item's own. -/
theorem parseMany_stopsAt (k : Nat) : (parseMany p k).StopsAt fun _ bound => ∃ before, place before bound := by
  induction k with
  | zero => exact Parser.give_stopsAt _ _
  | succ k ih =>
    have hmore : ∀ a : α, ((parseMany p k).andThen fun as => Parser.give (a :: as)).StopsAt
        fun _ bound => ∃ before, place before bound := fun a => by
      refine (ih.andThen (parseMany_reads hp k) (fun as _ => Parser.give_visits (a :: as))
        (fun as _ => Parser.give_stopsAt (a :: as) fun _ _ => False)).mono fun before bound h => ?_
      rcases h with h | ⟨_, _, _, _, h⟩
      · exact h
      · exact h.elim
    have hvisits : ∀ a : α, ok a = true → ((parseMany p k).andThen fun as => Parser.give (a :: as)).Visits (k * size + 0) :=
      fun a _ => (parseMany_visits hp k).andThen (parseMany_reads hp k) fun as _ => Parser.give_visits (a :: as)
    refine (hp.stops.andThen hp.reads hvisits fun a _ => hmore a).mono fun before bound h => ?_
    rcases h with h | ⟨_, _, _, _, h⟩
    · exact ⟨before, h⟩
    · exact h

/-- A length word, then as many items as it says. -/
theorem parseCounted_format {bound : Nat} (hb : bound < 18446744073709551616) :
    ((parseLength bound).andThen (parseMany p)).Format (fun as => decide (as.length ≤ bound) && as.all ok)
      (fun as => (as.length : Int) :: as.flatMap layout)
      (fun before b => before = [] ∧ b = bound ∨ ∃ before, place before b) (1 + bound * size) where
  reads ws as rest := by
    constructor
    · intro h
      obtain ⟨k, mid, hk, hmany⟩ := Parser.andThen_eq_ok.mp h
      obtain ⟨hle, rfl⟩ := parseLength_eq_ok hk
      obtain ⟨hall, rfl⟩ := (parseMany_reads hp k _ _ _).mp hmany
      simp only [Bool.and_eq_true, decide_eq_true_eq] at hall
      obtain ⟨rfl, hall⟩ := hall
      exact ⟨by simp [hle, hall], rfl⟩
    · rintro ⟨h, rfl⟩
      simp only [Bool.and_eq_true, decide_eq_true_eq] at h
      obtain ⟨hle, hall⟩ := h
      exact (Parser.andThen_ok (parseLength_within hle hb _)).trans
        ((parseMany_reads hp as.length).ok_append (by simp [hall]) rest)
  stops := by
    have hlength := parseLength_format hb
    refine (hlength.stops.andThen hlength.reads (fun k hk => (parseMany_visits hp k).mono (m := bound * size) ?_)
      fun k _ => parseMany_stopsAt hp k).mono fun before b h => ?_
    · exact Nat.mul_le_mul_right _ (of_decide_eq_true hk)
    · rcases h with h | ⟨_, _, _, _, h⟩
      · exact .inl h
      · exact .inr h
  visits := by
    have hlength := parseLength_format hb
    exact hlength.visits.andThen hlength.reads fun k hk =>
      (parseMany_visits hp k).mono (Nat.mul_le_mul_right _ (of_decide_eq_true hk))

end

/-- The first word of the layout, with the bound given. -/
def atFront (size : Nat) (before : List Word) (bound : Nat) : Prop := before = [] ∧ bound = size

theorem flatMap_intItems (v : List Int) : v.flatMap intItems = v := by simp [show intItems = fun v => [v] from rfl]

theorem strItems_eq_flatMap (str : Str) : strItems str = (str.length : Int) :: str.flatMap charItems := by
  simp [strItems, show charItems = fun c : Nat => [(c : Int)] from rfl]

theorem vecItems_eq_flatMap (vec : Vec) : vecItems vec = (vec.length : Int) :: vec.flatMap intItems := by
  rw [flatMap_intItems, vecItems]

theorem Parser.Format.mono {α : Type} {p : Parser α} {ok : α → Bool} {layout : α → List Int}
    {place place' : List Word → Nat → Prop} {size size' : Nat} (hp : p.Format ok layout place size)
    (hplace : ∀ before bound, place before bound → place' before bound) (hsize : size ≤ size') :
    p.Format ok layout place' size' where
  reads := hp.reads
  stops := hp.stops.mono hplace
  visits := hp.visits.mono hsize

theorem parseStr_format : parseStr.Format strOk strItems (atFront 225) 226 := by
  rw [funext strItems_eq_flatMap]
  refine (parseCounted_format parseChar_format (bound := Config.lMax) (by decide)).mono (fun before bound h => ?_) le_rfl
  exact h.resolve_right fun ⟨_, h⟩ => h

theorem parseVec_format : parseVec.Format vecOk vecItems (atFront 225) 226 := by
  rw [funext vecItems_eq_flatMap]
  refine (parseCounted_format parseInt_format (bound := Config.lMax) (by decide)).mono (fun before bound h => ?_) le_rfl
  exact h.resolve_right fun ⟨_, h⟩ => h

theorem parseRow_format : parseRow.Format rowOk vecItems (atFront 15) 16 := by
  rw [funext vecItems_eq_flatMap]
  refine (parseCounted_format parseInt_format (bound := Config.nMax) (by decide)).mono (fun before bound h => ?_) le_rfl
  exact h.resolve_right fun ⟨_, h⟩ => h

/-- Of a MAT every length word has the bound 15. -/
theorem parseMat_format : parseMat.Format matOk matItems (fun _ bound => bound = 15) 241 := by
  refine (parseCounted_format parseRow_format (bound := Config.nMax) (by decide)).mono (fun before bound h => ?_) le_rfl
  rcases h with ⟨-, h⟩ | ⟨_, -, h⟩ <;> exact h

end Sys2Proof.Machine
end

section
/-! The decoder of R84 by the operand format of each opcode: it reads back exactly what the encoder lays out, and its other
verdicts come from the words it visits. -/

namespace Sys2Proof.Machine

open Sys2Proof.Claims

/-! ## The operand format of each command (R80) -/

/-- Where the layout of an opcode has a length word with this bound (R74 to R77), by the words before it. -/
def LengthPlace (op : Nat) (before : List Word) (bound : Nat) : Prop :=
  (bound = 15 ∨ bound = 225) ∧
  (op ∈ [0x12, 0x13, 0x14, 0x50, 0x51] → bound = 225) ∧
  (op ∈ [0x15, 0x20, 0x21, 0x22, 0x24, 0x34] → bound = 15) ∧
  (op = 0x23 → (bound = 225 ∧ ∃ mat : Mat, matOk mat = true ∧ before = wordsOf (matItems mat)) ∨ bound = 15)

/-- The opcode's row of the table: its parser, the instruction it makes, and what the encoder makes of that instruction. -/
structure OperandFormat {α : Type} (op : Nat) (p : Parser α) (f : α → Instr) (ok : α → Bool) (layout : α → List Int) :
    Prop where
  format : p.Format ok layout (LengthPlace op) 467
  decodes : ∀ ws, decodeOp op ws = Decoded.ofParsed f (p ws) := by intros; rfl
  opcode : ∀ a, (f a).opcode = op := by intros; rfl
  wellFormed : ∀ a, (f a).wellFormed = ok a := by intros; rfl
  operandWords : ∀ a, (f a).operandWords = wordsOf (layout a) := by intros; rfl

/-- A length word of the opcodes whose operands are all STR or VEC. -/
theorem lengthPlace_225 {op : Nat} (h : op ∈ [0x12, 0x13, 0x14, 0x50, 0x51]) (before : List Word) :
    LengthPlace op before 225 := by
  fin_cases h <;> simp [LengthPlace]

/-- A length word of a MAT. -/
theorem lengthPlace_15 {op : Nat} (h : op ∈ [0x15, 0x20, 0x21, 0x22, 0x23, 0x24, 0x34]) (before : List Word) :
    LengthPlace op before 15 := by
  fin_cases h <;> simp [LengthPlace]

section

variable {op : Nat}

/-- A format without a length word stands at any opcode. -/
theorem Parser.Format.anywhere {α : Type} {p : Parser α} {ok : α → Bool} {layout : α → List Int} {n : Nat}
    (hp : p.Format ok layout (fun _ _ => False) n) (hn : n ≤ 467) : p.Format ok layout (LengthPlace op) 467 :=
  hp.mono (fun _ _ h => h.elim) hn

theorem parseStr_format_of (h : op ∈ [0x12, 0x13, 0x14, 0x50, 0x51]) :
    parseStr.Format strOk strItems (LengthPlace op) 467 :=
  parseStr_format.mono (fun before _ ⟨_, hb⟩ => hb ▸ lengthPlace_225 h before) (by decide)

theorem parseMat_format_of (h : op ∈ [0x15, 0x20, 0x21, 0x22, 0x23, 0x24, 0x34]) :
    parseMat.Format matOk matItems (LengthPlace op) 467 :=
  parseMat_format.mono (fun before _ hb => hb ▸ lengthPlace_15 h before) (by decide)

theorem parseIntPair_format : (parseInt.pair parseInt).Format (fun p => inIntRange p.1 && inIntRange p.2)
    (fun p => intItems p.1 ++ intItems p.2) (fun _ _ => False) 2 :=
  (parseInt_format.pair parseInt_format).mono (fun _ _ h => by simp at h) (by decide)

theorem parseVec_format_of (h : op ∈ [0x12, 0x13, 0x14, 0x50, 0x51]) :
    parseVec.Format vecOk vecItems (LengthPlace op) 467 :=
  parseVec_format.mono (fun before _ ⟨_, hb⟩ => hb ▸ lengthPlace_225 h before) (by decide)

theorem parseStrPair_format_of (h : op ∈ [0x12, 0x13, 0x14, 0x50, 0x51]) :
    (parseStr.pair parseStr).Format (fun p => strOk p.1 && strOk p.2) (fun p => strItems p.1 ++ strItems p.2)
      (LengthPlace op) 467 := by
  refine (parseStr_format.pair parseStr_format).mono (fun before bound hb => ?_) (by decide)
  rcases hb with ⟨-, rfl⟩ | ⟨_, _, _, _, -, rfl⟩ <;> exact lengthPlace_225 h before

/-- A MAT and then integers. -/
theorem parseMat_pair_format_of {β : Type} {q : Parser β} {okq : β → Bool} {lq : β → List Int} {n : Nat}
    (hq : q.Format okq lq (fun _ _ => False) n) (hn : n ≤ 226)
    (h : op ∈ [0x15, 0x20, 0x21, 0x22, 0x23, 0x24, 0x34]) :
    (parseMat.pair q).Format (fun p => matOk p.1 && okq p.2) (fun p => matItems p.1 ++ lq p.2) (LengthPlace op) 467 := by
  refine (parseMat_format.pair hq).mono (fun before bound hb => ?_) (by omega)
  rcases hb with rfl | ⟨_, _, _, _, hb⟩
  · exact lengthPlace_15 h before
  · exact hb.elim

end

/-- MATVEC's length words: those of the MAT, then the VEC's, which stands after a whole MAT. -/
theorem parseMatVec_format : (parseMat.pair parseVec).Format (fun p => matOk p.1 && vecOk p.2)
    (fun p => matItems p.1 ++ vecItems p.2) (LengthPlace 0x23) 467 := by
  refine (parseMat_format.pair parseVec_format).mono (fun before bound hb => ?_) (by decide)
  rcases hb with rfl | ⟨mat, later, hok, rfl, rfl, rfl⟩
  · exact lengthPlace_15 (by decide) before
  · simpa [LengthPlace] using ⟨mat, hok, rfl⟩

/-- Every command has its row. -/
theorem exists_operandFormat (i : Instr) :
    ∃ (α : Type) (p : Parser α) (f : α → Instr) (ok : α → Bool) (layout : α → List Int),
      OperandFormat i.opcode p f ok layout ∧ ∃ a, f a = i := by
  cases i with
  | c2s c => exact ⟨_, _, Instr.c2s, _, _, { format := parseChar_format.anywhere (by decide) }, c, rfl⟩
  | s2c v => exact ⟨_, _, Instr.s2c, _, _, { format := parseInt_format.anywhere (by decide) }, v, rfl⟩
  | str2vec str =>
    exact ⟨_, _, Instr.str2vec, _, _, { format := parseStr_format_of (by simp [Instr.opcode]) }, str, rfl⟩
  | vec2str vec =>
    exact ⟨_, _, Instr.vec2str, _, _, { format := parseVec_format_of (by simp [Instr.opcode]) }, vec, rfl⟩
  | str2mat str =>
    exact ⟨_, _, Instr.str2mat, _, _, { format := parseStr_format_of (by simp [Instr.opcode]) }, str, rfl⟩
  | mat2str mat =>
    exact ⟨_, _, Instr.mat2str, _, _, { format := parseMat_format_of (by simp [Instr.opcode]) }, mat, rfl⟩
  | transp mat => exact ⟨_, _, Instr.transp, _, _, { format := parseMat_format_of (by simp [Instr.opcode]) }, mat, rfl⟩
  | minor mat row col =>
    exact ⟨_, _, fun p : Mat × Int × Int => Instr.minor p.1 p.2.1 p.2.2, _, _,
      { format := parseMat_pair_format_of parseIntPair_format (by decide) (by simp [Instr.opcode])
        wellFormed := fun p => Bool.and_assoc (matOk p.1) (inIntRange p.2.1) (inIntRange p.2.2) }, (mat, row, col), rfl⟩
  | det mat => exact ⟨_, _, Instr.det, _, _, { format := parseMat_format_of (by simp [Instr.opcode]) }, mat, rfl⟩
  | matvec mat vec =>
    exact ⟨_, _, fun p => Instr.matvec p.1 p.2, _, _, { format := parseMatVec_format }, (mat, vec), rfl⟩
  | invq mat => exact ⟨_, _, Instr.invq, _, _, { format := parseMat_format_of (by simp [Instr.opcode]) }, mat, rfl⟩
  | mod x m =>
    exact ⟨_, _, fun p => Instr.mod p.1 p.2, _, _, { format := parseIntPair_format.anywhere (by decide) }, (x, m), rfl⟩
  | gcd a b =>
    exact ⟨_, _, fun p => Instr.gcd p.1 p.2, _, _, { format := parseIntPair_format.anywhere (by decide) }, (a, b), rfl⟩
  | egcd a b =>
    exact ⟨_, _, fun p => Instr.egcd p.1 p.2, _, _, { format := parseIntPair_format.anywhere (by decide) }, (a, b), rfl⟩
  | modinv a m =>
    exact ⟨_, _, fun p => Instr.modinv p.1 p.2, _, _,
      { format := parseIntPair_format.anywhere (by decide) }, (a, m), rfl⟩
  | invmod mat modulus =>
    exact ⟨_, _, fun p => Instr.invmod p.1 p.2, _, _,
      { format := parseMat_pair_format_of parseInt_format (by decide) (by simp [Instr.opcode]) }, (mat, modulus), rfl⟩
  | genkey n => exact ⟨_, _, Instr.genkey, _, _, { format := parseInt_format.anywhere (by decide) }, n, rfl⟩
  | encode text key =>
    exact ⟨_, _, fun p => Instr.encode p.1 p.2, _, _,
      { format := parseStrPair_format_of (by simp [Instr.opcode]) }, (text, key), rfl⟩
  | decode text key =>
    exact ⟨_, _, fun p => Instr.decode p.1 p.2, _, _,
      { format := parseStrPair_format_of (by simp [Instr.opcode]) }, (text, key), rfl⟩

/-- Every opcode of R80 is some command's. -/
theorem exists_opcode_eq {op : Nat} (h : op ∈ opcodes) : ∃ i : Instr, i.opcode = op := by
  have hall : opcodes = [Instr.c2s 0, .s2c 0, .str2vec [], .vec2str [], .str2mat [], .mat2str [], .transp [], .minor [] 0 0,
    .det [], .matvec [] [], .invq [], .mod 0 0, .gcd 0 0, .egcd 0 0, .modinv 0 0, .invmod [] 0, .genkey 0, .encode [] [],
    .decode [] []].map Instr.opcode := rfl
  rw [hall] at h
  obtain ⟨i, -, rfl⟩ := List.mem_map.mp h
  exact ⟨i, rfl⟩

theorem exists_operandFormat_of_opcode {op : Nat} (h : op ∈ opcodes) :
    ∃ (α : Type) (p : Parser α) (f : α → Instr) (ok : α → Bool) (layout : α → List Int),
      OperandFormat op p f ok layout := by
  obtain ⟨i, rfl⟩ := exists_opcode_eq h
  obtain ⟨α, p, f, ok, layout, hformat, -⟩ := exists_operandFormat i
  exact ⟨α, p, f, ok, layout, hformat⟩

/-! ## The command word (R70, R87) -/

/-- The word of an opcode has that opcode in its `OP` field and no reserved bit. -/
theorem decode_ofNat {op : Nat} (h : op < 256) (args : List Word) :
    decode (BitVec.ofNat Config.xlen op) args = decodeOp op args := by
  have hword : (BitVec.ofNat Config.xlen op).toNat = op := by
    rw [BitVec.toNat_ofNat]
    exact Nat.mod_eq_of_lt (h.trans (by decide))
  have hrsv : rsvField (BitVec.ofNat Config.xlen op) = 0 := by
    rw [rsvField_eq_div, hword]
    omega
  rw [decode, if_neg (not_not.mpr hrsv), opField_eq_mod, hword, Nat.mod_eq_of_lt h]

theorem opcode_lt (i : Instr) : i.opcode < 256 := by cases i <;> simp [Instr.opcode]

/-- A word that is not illegal is the zero-extended opcode it decodes by. -/
theorem exists_opcode_of_not_illegal {cmd : Word} {args : List Word} (h : decode cmd args ≠ .illegal) :
    ∃ op ∈ opcodes, cmd.toNat = op ∧ cmd = BitVec.ofNat Config.xlen op ∧ ∀ ws, decode cmd ws = decodeOp op ws := by
  rw [Ne, decode_eq_illegal_iff, not_or, not_le, not_not] at h
  obtain ⟨hrsv, hmem⟩ := h
  rw [Nat.mod_eq_of_lt hrsv] at hmem
  have hcmd : cmd = BitVec.ofNat Config.xlen cmd.toNat := by simp
  refine ⟨cmd.toNat, hmem, rfl, hcmd, fun ws => ?_⟩
  conv_lhs => rw [hcmd]
  exact decode_ofNat hrsv ws

/-! ## Decoding what was encoded, and encoding what was decoded (R79, R84) -/

theorem ofParsed_eq_command {α : Type} {f : α → Instr} {p : Parsed α} {i : Instr} {rest : List Word} :
    Decoded.ofParsed f p = .command i rest ↔ ∃ a, p = .ok a rest ∧ f a = i := by
  cases p <;> simp [Decoded.ofParsed, and_comm]

theorem ofParsed_eq_overCapacity {α : Type} {f : α → Instr} {p : Parsed α} {rest : List Word} :
    Decoded.ofParsed f p = .overCapacity rest ↔ p = .overCapacity rest := by
  cases p <;> simp [Decoded.ofParsed]

theorem ofParsed_eq_unwritten {α : Type} {f : α → Instr} {p : Parsed α} :
    Decoded.ofParsed f p = .unwritten ↔ p = .unwritten := by
  cases p <;> simp [Decoded.ofParsed]

theorem decode_commandWord {i : Instr} (h : i.wellFormed = true) (rest : List Word) :
    decode i.commandWord (i.operandWords ++ rest) = .command i rest := by
  obtain ⟨α, p, f, ok, layout, hrow, a, rfl⟩ := exists_operandFormat i
  refine (decode_ofNat (opcode_lt (f a)) _).trans ?_
  rw [hrow.decodes, hrow.operandWords]
  exact ofParsed_eq_command.mpr ⟨a, hrow.format.reads.ok_append (hrow.wellFormed a ▸ h) rest, rfl⟩

theorem eq_encode_of_decode {cmd : Word} {args rest : List Word} {i : Instr} (h : decode cmd args = .command i rest) :
    i.wellFormed = true ∧ cmd = i.commandWord ∧ args = i.operandWords ++ rest := by
  obtain ⟨op, hop, -, hcmd, hdecode⟩ := exists_opcode_of_not_illegal (cmd := cmd) (args := args) (by simp [h])
  obtain ⟨α, p, f, ok, layout, hrow⟩ := exists_operandFormat_of_opcode hop
  rw [hdecode, hrow.decodes] at h
  obtain ⟨a, ha, rfl⟩ := ofParsed_eq_command.mp h
  obtain ⟨hok, hargs⟩ := (hrow.format.reads args a rest).mp ha
  exact ⟨(hrow.wellFormed a).trans hok, by rw [Instr.commandWord, hrow.opcode, hcmd], by rw [hrow.operandWords, hargs]⟩

/-- Settles O33: each opcode's parser accepts every layout of a value that passes its check. -/
theorem decodeOfEncodeIsIdentity : Obligations.DecodeOfEncodeIsIdentity :=
  fun _ rest hwf => decode_commandWord hwf rest

/-- Settles O34: each opcode's parser accepts nothing but such layouts, and a legal command word is its opcode. -/
theorem encodeOfDecodeIsIdentity : Obligations.EncodeOfDecodeIsIdentity :=
  fun _ _ _ _ h => eq_encode_of_decode h

/-! ## Over capacity (R74 to R77, R83) -/

/-- An over-capacity verdict comes from one word over the bound of its place. -/
theorem exists_bounded_of_overCapacity {cmd : Word} {args rest : List Word} (h : decode cmd args = .overCapacity rest) :
    ∃ (before : List Word) (w : Word) (bound : Nat), args = before ++ w :: rest ∧ bound < w.toNat ∧
      (∀ (v : Word) (later : List Word), bound < v.toNat → decode cmd (before ++ v :: later) = .overCapacity later) ∧
      (∀ (v : Word) (later : List Word), v.toNat ≤ bound → decode cmd (before ++ v :: later) ≠ .overCapacity later) ∧
      LengthPlace cmd.toNat before bound := by
  obtain ⟨op, hop, rfl, -, hdecode⟩ := exists_opcode_of_not_illegal (cmd := cmd) (args := args) (by simp [h])
  obtain ⟨α, p, f, ok, layout, hrow⟩ := exists_operandFormat_of_opcode hop
  have hparse : ∀ ws later, decode cmd ws = .overCapacity later ↔ p ws = .overCapacity later := fun ws later => by
    rw [hdecode, hrow.decodes, ofParsed_eq_overCapacity]
  obtain ⟨before, w, bound, hargs, hover, hbounded, hplace⟩ := hrow.format.stops args rest ((hparse args rest).mp h)
  refine ⟨before, w, bound, hargs, hover, fun v later hv => ?_, fun v later hv hstop => ?_, hplace⟩
  · exact (hparse _ _).mpr (hbounded.stopsOver v later hv)
  · exact lt_irrefl _ (hbounded.overWithin v later later hv ((hparse _ _).mp hstop))

/-- After a whole MAT, MATVEC takes a length word over 15. -/
theorem not_bounded_15_after_mat {mat : Mat} (hok : matOk mat = true)
    (h : ∀ (v : Word) (later : List Word), 15 < v.toNat →
      decode 0x23 (wordsOf (matItems mat) ++ v :: later) = .overCapacity later) : False := by
  have hwords : (Instr.matvec mat (List.replicate 16 0)).operandWords =
      wordsOf (matItems mat) ++ 16 :: List.replicate 16 0 := wordsOf_append _ _
  have hread := decode_commandWord (i := .matvec mat (List.replicate 16 0)) (Bool.and_eq_true_iff.mpr ⟨hok, by decide⟩) []
  rw [List.append_nil, hwords] at hread
  cases hread.symm.trans (h 16 (List.replicate 16 0) (by decide))

/-- Settles O36: the word that stops the parse has the bound of its place, which the opcode's layout fixes. -/
theorem onlyLengthWordsCanBeMalformed : Obligations.OnlyLengthWordsCanBeMalformed := by
  refine ⟨fun cmd args rest h => ⟨endsOverCapacity_of_decode h, ?_⟩, fun cmd args hsmall rest h => ?_⟩
  · obtain ⟨before, w, bound, hargs, hover, hstops, htakes, hbounds, hstr, hmat, hmatvec⟩ :=
      exists_bounded_of_overCapacity h
    refine ⟨before, w, bound, hargs, hover, hstops, htakes, hstr, hmat, fun hcmd => ⟨hbounds, ?_, ?_⟩⟩
    · rintro rfl
      exact ((hmatvec hcmd).resolve_right (by decide)).2
    · rintro ⟨mat, hok, rfl⟩
      refine hbounds.resolve_left fun h15 => not_bounded_15_after_mat hok ?_
      obtain rfl : cmd = 0x23 := BitVec.eq_of_toNat_eq hcmd
      exact h15 ▸ hstops
  · obtain ⟨before, w, bound, rfl, hover, -, -, hbounds, -⟩ := exists_bounded_of_overCapacity h
    have := hsmall w (by simp)
    omega

/-! ## The words sampled (R60, R79) -/

/-- The parse of every command word visits at most 467 words. -/
theorem decode_visits (cmd : Word) (args : List Word) :
    (∀ i rest, decode cmd args = .command i rest → args.length ≤ 467 + rest.length) ∧
    (∀ rest, decode cmd args = .overCapacity rest → args.length ≤ 467 + rest.length) ∧
    (decode cmd args = .unwritten → args.length < 467) := by
  by_cases hillegal : decode cmd args = .illegal
  · simp [hillegal]
  · obtain ⟨op, hop, -, -, hdecode⟩ := exists_opcode_of_not_illegal hillegal
    obtain ⟨α, p, f, ok, layout, hrow⟩ := exists_operandFormat_of_opcode hop
    have hvisits := hrow.format.visits
    rw [hdecode, hrow.decodes]
    refine ⟨fun i rest h => ?_, fun rest h => ?_, fun h => ?_⟩
    · obtain ⟨a, ha, -⟩ := ofParsed_eq_command.mp h
      exact (hvisits.ofOk args a rest ha).2
    · exact (hvisits.ofOver args rest (ofParsed_eq_overCapacity.mp h)).2
    · exact hvisits.ofUnwritten args (ofParsed_eq_unwritten.mp h)

theorem sampledWords_of_command {cmd : Word} {operands rest : List Word} {i : Instr}
    (h : decode cmd (operands ++ rest) = .command i rest) : sampledWords cmd (operands ++ rest) = some operands := by
  simp [sampledWords, h]

theorem sampledWords_of_overCapacity {cmd : Word} {operands rest : List Word}
    (h : decode cmd (operands ++ rest) = .overCapacity rest) : sampledWords cmd (operands ++ rest) = some operands := by
  simp [sampledWords, h]

theorem sampledWords_eq_none_iff {cmd : Word} {args : List Word} :
    sampledWords cmd args = none ↔ decode cmd args = .unwritten := by
  unfold sampledWords
  split <;> simp [*]

/-- What a sample is a sample of: the layout of a command, the words up to one over its bound, or nothing. -/
theorem sampledWords_cases {cmd : Word} {args operands : List Word} (h : sampledWords cmd args = some operands) :
    (decode cmd args = .illegal ∧ operands = []) ∨
    (∃ i rest, decode cmd args = .command i rest ∧ args = operands ++ rest ∧
      ∀ later, decode cmd (operands ++ later) = .command i later) ∨
    (∃ rest, decode cmd args = .overCapacity rest ∧ args = operands ++ rest ∧
      ∀ later, decode cmd (operands ++ later) = .overCapacity later) := by
  cases hdecode : decode cmd args with
  | illegal => exact .inl ⟨rfl, by simpa [sampledWords, hdecode] using h.symm⟩
  | unwritten => simp [sampledWords_eq_none_iff.mpr hdecode] at h
  | command i rest =>
    obtain ⟨hwf, rfl, rfl⟩ := eq_encode_of_decode hdecode
    obtain rfl := Option.some.inj ((sampledWords_of_command hdecode).symm.trans h)
    exact .inr (.inl ⟨i, rest, rfl, rfl, decode_commandWord hwf⟩)
  | overCapacity rest =>
    obtain ⟨before, w, bound, rfl, hover, hstops, -, -⟩ := exists_bounded_of_overCapacity hdecode
    rw [List.append_cons] at hdecode h
    obtain rfl := Option.some.inj ((sampledWords_of_overCapacity hdecode).symm.trans h)
    refine .inr (.inr ⟨rest, rfl, List.append_cons before w rest, fun later => ?_⟩)
    rw [← List.append_cons]
    exact hstops w later hover

/-- Settles O37: by what each verdict is a sample of. -/
theorem sampleIsExactlyTheLayout : Obligations.SampleIsExactlyTheLayout := by
  intro cmd args
  obtain ⟨hcommand, hover, hunwritten⟩ := decode_visits cmd args
  refine ⟨fun hlen => Option.ne_none_iff_exists'.mp fun hnone => ?_, fun operands hsample => ?_⟩
  · have := hunwritten (sampledWords_eq_none_iff.mp hnone)
    omega
  · rcases sampledWords_cases hsample with ⟨hd, rfl⟩ | ⟨i, rest, hd, rfl, hagain⟩ | ⟨rest, hd, rfl, hagain⟩
    · refine ⟨by simp, ⟨args, rfl⟩, fun later => sampledWords_of_illegal ?_, by simp [hd], by simp [hd]⟩
      exact (decode_eq_illegal_iff cmd _).mpr ((decode_eq_illegal_iff cmd args).mp hd)
    · have := hcommand i rest hd
      rw [List.length_append] at this
      exact ⟨by omega, ⟨rest, rfl⟩, fun later => sampledWords_of_command (hagain later),
        fun j _ later hj => by cases hd.symm.trans hj; exact hagain later, by simp [hd]⟩
    · have := hover rest hd
      rw [List.length_append] at this
      exact ⟨by omega, ⟨rest, rfl⟩, fun later => sampledWords_of_overCapacity (hagain later), by simp [hd],
        fun _ later _ => hagain later⟩

/-- Settles O38: the seven words, run through the decoder. -/
theorem writtenOutWordsDecode : Obligations.WrittenOutWordsDecode := by
  unfold Obligations.WrittenOutWordsDecode
  decide

end Sys2Proof.Machine
end

section
/-! The codec's round trips (R107) and the determinant as the mathematical library's: its expansion, its bound, and the commands
DET and INVQ that deliver it (R124, R125, R129). -/

namespace Sys2Proof.Machine

open Sys2Proof.Claims

/-! ## The round trips of the codec (R107) -/

/-- What holds of every element of a matrix, and of the default 0, holds of every entry. -/
theorem entry_of_forall {P : Int → Prop} {mat : Mat} (h0 : P 0) (h : ∀ row ∈ mat, ∀ v ∈ row, P v) (i j : Nat) :
    P (entry mat i j) := by
  rw [entry, List.getD_eq_getElem?_getD, List.getD_eq_getElem?_getD]
  cases hrow : mat[i]? with
  | none => simpa using h0
  | some row =>
    rw [Option.getD_some]
    cases hv : row[j]? with
    | none => simpa using h0
    | some v => exact h row (List.mem_of_getElem? hrow) v (List.mem_of_getElem? hv)

theorem isLetter_of_stringToVector {str : Str} {vec : Vec} (h : stringToVector str = .ok vec) : ∀ c ∈ str, IsLetter c := by
  by_contra hletters
  rw [stringToVector_nonLetter (by simpa using hletters)] at h
  cases h

/-- Settles O7: each property by the two conversions on letters and Symbols, which undo each other. -/
theorem codecRoundTrips : Obligations.CodecRoundTrips := by
  refine ⟨fun c hc => ⟨letterValue c, charToSymbol_letter hc, ?_⟩, fun v h0 h25 => ?_, fun mat hsq hsymbols => ?_,
    fun str vec h => ?_⟩
  · rw [symbolToChar_symbol (letterValue_range hc), upperOf_eq hc]
  · have hupper : IsUpper (0x41 + v.toNat) := ⟨by omega, by omega⟩
    refine ⟨0x41 + v.toNat, symbolToChar_symbol ⟨h0, h25⟩, ?_⟩
    rw [charToSymbol_letter (.inl hupper), letterValue_upper hupper]
    exact congrArg Except.ok (by omega)
  · have hrange : ∀ i j, 0 ≤ entry mat i j ∧ entry mat i j ≤ 25 := entry_of_forall (by decide) hsymbols
    rw [← gridRows_entry hsq]
    exact ⟨_, matrixToString_gridRows hrange, stringToMatrix_lettersOf_flatten hrange⟩
  · have hletters := isLetter_of_stringToVector h
    obtain rfl : str.map letterValue = vec := by simpa [stringToVector_letters hletters] using h
    refine ⟨List.length_map _, ?_⟩
    rw [vectorToString, mapRaising_symbolToChar_lettersOf (map_letterValue_range hletters),
      lettersOf_map_letterValue hletters]

/-! ## The determinant function (R124) -/

theorem determinant_square {mat : Mat} (h : Square mat) : determinant mat = .ok (detValue mat) :=
  if_pos ((square_eq_true_iff mat).mpr h)

theorem detValue_of_length {mat : Mat} {n : Nat} (h : mat.length = n) : detValue mat = (matrixOf n mat).det := by
  rw [detValue, h, detOfSize_eq_det]

/-- Settles O10: the base cases by evaluation, the recursion as the library's expansion along row 0. -/
theorem determinantExpandsAlongRowZero : Obligations.DeterminantExpandsAlongRowZero := by
  refine ⟨rfl, fun a => rfl, fun a b c d => rfl, fun mat h => determinant_notSquare h, fun mat hsq h3 => ?_⟩
  refine ⟨fun col => detValue (minorOf mat 0 col), fun col hcol => ?_, ?_⟩
  · exact determinant_square (square_minorOf hsq (by omega) hcol)
  · obtain ⟨n, hn⟩ : ∃ n, mat.length = n + 1 := ⟨mat.length - 1, by omega⟩
    have hminor : ∀ col, (minorOf mat 0 col).length = n := fun col => by
      rw [length_minorOf (by omega), hn, Nat.add_sub_cancel]
    rw [determinant_square hsq, detValue_of_length hn, det_matrixOf_succ, hn]
    simp only [detValue_of_length (hminor _)]

/-! ## DET (R125) -/

theorem exec_det_square {mat : Mat} (hne : mat ≠ []) (h : Square mat) (s : State) :
    exec (.det mat) s = .next (deliver [(matrixOf mat.length mat).det] s) := by
  rw [exec_det_of_value hne (determinant_square h), detValue_eq_det]

/-- Settles O11: the recursion's value is the library's determinant, and only the range test of the delivery is left. -/
theorem detDeliversTheDeterminant : Obligations.DetDeliversTheDeterminant := by
  intro mat s
  refine ⟨?_, fun hne hnsq => ?_, fun hne hsq hd => ?_, fun hne hsq hd => ?_⟩
  · rintro rfl
    exact refuse_eq_endedRefused .unspecified s
  · rw [exec_det_of_ne_nil hne, determinant_notSquare hnsq]
    exact finish_error _ s
  · rw [exec_det_square hne hsq, deliver_of_inRange (by simpa using hd)]
  · rw [exec_det_square hne hsq, deliver_of_outOfRange (by simpa using hd)]

/-! ## INVQ (R129) -/

/-- The values INVQ delivers: the transposed cofactors, then the determinant (R78). -/
def invqValues (mat : Mat) : List Int := gridValues mat.length (fun i j => cofactor mat j i) ++ [detValue mat]

theorem exec_invq_of_ne_nil {mat : Mat} (hne : mat ≠ []) (s : State) : exec (.invq mat) s =
    finishOption (thenOptionItems (fun p => ratMatItems p.1 p.2) (inverseMatrix mat)) s :=
  if_neg (by simpa using hne)

theorem exec_invq_notSquare {mat : Mat} (hne : mat ≠ []) (h : ¬Square mat) (s : State) :
    exec (.invq mat) s = .next (endedError s .invalidMatrixSize) := by
  rw [exec_invq_of_ne_nil hne, inverseMatrix, determinant_notSquare h]
  exact finishOption_error _ s

theorem exec_invq_singular {mat : Mat} (hne : mat ≠ []) (h : Square mat) (hd : detValue mat = 0) (s : State) :
    exec (.invq mat) s = .next (endedNothingFound s) := by
  have hinverse : inverseMatrix mat = .ok none := by simp [inverseMatrix, determinant_square h, hd]
  rw [exec_invq_of_ne_nil hne, hinverse]
  exact finishOption_none s

theorem exec_invq_regular {mat : Mat} (hne : mat ≠ []) (h : Square mat) (hd : detValue mat ≠ 0) (s : State) :
    exec (.invq mat) s = .next (deliver (invqValues mat) s) := by
  have hinverse : inverseMatrix mat = .ok (some (transposeOf (cofactors mat), detValue mat)) := by
    simp [inverseMatrix, determinant_square h, hd]
  rw [exec_invq_of_ne_nil hne, hinverse, thenOptionItems, ratMatItems, cofactors, tabulate_eq_gridRows,
    transposeOf_gridRows, matItems_gridRows]
  rfl

theorem gridValues_congr {n : Nat} {f g : Nat → Nat → Int} (h : ∀ i < n, ∀ j < n, f i j = g i j) :
    gridValues n f = gridValues n g := by
  rw [← matItems_gridRows, ← matItems_gridRows, gridRows_congr h]

/-- They are the library's adjugate and determinant. -/
theorem invqValues_eq_adjugate (mat : Mat) : invqValues mat =
    gridValues mat.length (valueAt (matrixOf mat.length mat).adjugate) ++ [(matrixOf mat.length mat).det] := by
  have hentry : ∀ i < mat.length, ∀ j < mat.length,
      cofactor mat j i = valueAt (matrixOf mat.length mat).adjugate i j := fun i hi j hj => by
    rw [valueAt, dif_pos ⟨hi, hj⟩, adjugate_matrixOf rfl]
  rw [invqValues, gridValues_congr hentry, detValue_eq_det]

/-- Settles O15, by the ends of `inverseMatrix`; what it answers is the library's adjugate and determinant. -/
theorem invqDeliversAdjugateAndDeterminant : Obligations.InvqDeliversAdjugateAndDeterminant := by
  intro mat s
  refine ⟨runsAs_of_decode fun hwf => ofParsed_ok Instr.invq (parseMat_items hwf),
    wideFirst_of_decode fun _ _ hws => ofParsed_overCapacity Instr.invq hws, ?_,
    fun hne hnsq => exec_invq_notSquare hne hnsq s, fun hne hsq hd => ?_, ?_⟩
  · rintro rfl
    exact refuse_eq_endedRefused .unspecified s
  · exact exec_invq_singular hne hsq ((detValue_eq_det mat).trans hd) s
  · rintro values hvalues hne hsq hd
    obtain rfl : invqValues mat = values := (invqValues_eq_adjugate mat).trans hvalues.symm
    rw [exec_invq_regular hne hsq (by rwa [detValue_eq_det])]
    exact ⟨fun h => by rw [deliver_of_inRange (List.all_eq_true.mp h)], fun h => by rw [deliver_of_outOfRange h]⟩

/-! ## How large a determinant can be (R126) -/

theorem abs_detValue_le {mat : Mat} {bound : Nat} (h : ∀ row ∈ mat, ∀ v ∈ row, |v| ≤ (bound : Int)) :
    |detValue mat| ≤ ((mat.length.factorial * bound ^ mat.length : Nat) : Int) := by
  have hentry : ∀ i j, AbsoluteValue.abs (matrixOf mat.length mat i j) ≤ (bound : Int) := fun i j =>
    entry_of_forall (P := fun v => |v| ≤ (bound : Int)) (by simp) h i j
  simpa [detValue_eq_det] using Matrix.det_le hentry

theorem inIntRange_of_abs_le {v : Int} (h : |v| ≤ 1384277343750000000) : inIntRange v = true := by
  obtain ⟨hlow, hhigh⟩ := abs_le.mp h
  simp only [inIntRange, decide_eq_true_eq]
  omega

/-- Every element of a minor is an element of the whole matrix. -/
theorem forall_minorOf {P : Int → Prop} {mat : Mat} (h : ∀ row ∈ mat, ∀ v ∈ row, P v) (i j : Nat) :
    ∀ row ∈ minorOf mat i j, ∀ v ∈ row, P v := by
  intro row hrow v hv
  obtain ⟨whole, hwhole, rfl⟩ := List.mem_map.mp hrow
  exact h whole (List.mem_of_mem_eraseIdx hwhole) v (List.mem_of_mem_eraseIdx hv)

section

variable {mat : Mat} (hlen : mat.length ≤ 9) (h : ∀ row ∈ mat, ∀ v ∈ row, 0 ≤ v ∧ v ≤ 25)
include hlen h

/-- The bound at size 9 with Symbols, 9!·25⁹. -/
theorem abs_detValue_symbols : |detValue mat| ≤ 1384277343750000000 := by
  have hle := abs_detValue_le (bound := 25) fun row hrow v hv => abs_le.mpr (by have := h row hrow v hv; omega)
  have hmax : mat.length.factorial * 25 ^ mat.length ≤ Nat.factorial 9 * 25 ^ 9 :=
    Nat.mul_le_mul (Nat.factorial_le hlen) (Nat.pow_le_pow_right (by decide) hlen)
  have hnum : Nat.factorial 9 * 25 ^ 9 = 1384277343750000000 := by decide
  exact hle.trans (by exact_mod_cast hmax.trans_eq hnum)

theorem abs_cofactor_symbols {i : Nat} (hi : i < mat.length) (j : Nat) : |cofactor mat i j| ≤ 1384277343750000000 := by
  have hminor := abs_detValue_symbols (mat := minorOf mat i j) (by rw [length_minorOf hi]; omega) (forall_minorOf h i j)
  rwa [cofactor, altSign_eq_pow, abs_mul, abs_neg_one_pow, one_mul]

theorem inIntRange_invqValues : ∀ v ∈ invqValues mat, inIntRange v = true := by
  intro v hv
  rcases List.mem_append.mp hv with hv | hv
  · obtain rfl | ⟨i, _, j, hj, rfl⟩ := mem_gridValues hv
    · exact inIntRange_of_small (by omega) (by omega)
    · exact inIntRange_of_abs_le (abs_cofactor_symbols hlen h hj i)
  · rw [List.mem_singleton.mp hv]
    exact inIntRange_of_abs_le (abs_detValue_symbols hlen h)

end

/-- Settles O13: the library's bound for a determinant, and 9!·25⁹ is below 2⁶³. -/
theorem determinantIsBounded : Obligations.DeterminantIsBounded := by
  refine ⟨fun mat bound hsq hbound d hd => ?_, fun mat s hne hsq hlen hsymbols => ⟨⟨detValue mat, ?_, ?_⟩, ?_⟩⟩
  · obtain rfl := detValue_of_determinant hd
    exact abs_detValue_le hbound
  · exact determinant_square hsq
  · have hrange := inIntRange_of_abs_le (abs_detValue_symbols hlen hsymbols)
    rw [exec_det_of_value hne (determinant_square hsq), deliver_of_inRange (by simpa using hrange)]
  · by_cases hd : detValue mat = 0
    · exact .inl (exec_invq_singular hne hsq hd s)
    · refine .inr ⟨invqValues mat, ?_⟩
      rw [exec_invq_regular hne hsq hd, deliver_of_inRange (inIntRange_invqValues hlen hsymbols)]

end Sys2Proof.Machine
end

section
/-! Euclid's extended recursion with its bound (R154, R155), the modular inverses of a number and of a matrix as inverses of the
library's residue rings (R156 to R161), and DECODE (R193, R194). -/

namespace Sys2Proof.Machine

open Sys2Proof.Claims

/-! ## EGCD (R154, R155) -/

/-- Any fuel that outlasts the second argument gives the same answer (log 15). -/
theorem extendedGCDAux_fuel {fuel fuel' : Nat} {a b : Int} (hb : 0 ≤ b) (h : b.toNat < fuel) (h' : b.toNat < fuel') :
    extendedGCDAux fuel a b = extendedGCDAux fuel' a b := by
  induction fuel generalizing fuel' a b with
  | zero => omega
  | succ fuel ih =>
    obtain ⟨fuel', rfl⟩ := Nat.exists_eq_add_one_of_ne_zero (Nat.ne_zero_of_lt h')
    by_cases h0 : b = 0
    · simp [extendedGCDAux, h0]
    · have hlt : modZ a b < b := modZ_lt a (by omega)
      have hnonneg : 0 ≤ modZ a b := modZ_nonneg a (by omega)
      simp only [extendedGCDAux, h0, if_false, ih hnonneg (show (modZ a b).toNat < fuel by omega)
        (show (modZ a b).toNat < fuel' by omega)]

/-- The extended recursion without its fuel (R154). -/
theorem extendedGCD_recursion {a b : Int} (hb : 0 < b) : extendedGCD a b =
    ((extendedGCD b (a % b)).1, (extendedGCD b (a % b)).2.2,
      (extendedGCD b (a % b)).2.1 - a / b * (extendedGCD b (a % b)).2.2) := by
  have hnonneg : 0 ≤ a % b := Int.emod_nonneg a hb.ne'
  have hlt : a % b < b := Int.emod_lt_of_pos a hb
  have hfuel : extendedGCDAux b.toNat b (a % b) = extendedGCD b (a % b) :=
    extendedGCDAux_fuel hnonneg (by omega) (by omega)
  rw [extendedGCD, extendedGCDAux, if_neg hb.ne', modZ_eq_emod a hb, hfuel, Int.fdiv_eq_ediv_of_nonneg a hb.le]

/-- The bound of R155 in the form that the recursion keeps: the first coefficient by the second argument, the second by the
first. -/
def BezoutBounded (a b x y : Int) : Prop := (b = 0 ∧ x = 1 ∧ y = 0) ∨ (1 ≤ b ∧ |x| ≤ b ∧ |y| ≤ max a 1)

theorem BezoutBounded.base (a : Int) {b : Int} (hb : 0 ≤ b) : BezoutBounded a b 1 0 := by
  rcases hb.eq_or_lt with rfl | hpos
  · exact .inl ⟨rfl, rfl, rfl⟩
  · exact .inr ⟨hpos, abs_one.trans_le hpos, by simp⟩

/-- One step of the recursion: the remainder bounds x, and q·b + r is a. -/
theorem BezoutBounded.step {a b x y : Int} (ha : 0 ≤ a) (hb : 1 ≤ b) (h : BezoutBounded b (a % b) x y) :
    BezoutBounded a b y (x - a / b * y) := by
  refine .inr ⟨hb, ?_⟩
  rcases h with ⟨-, rfl, rfl⟩ | ⟨-, hx, hy⟩
  · simp only [abs_zero, mul_zero, sub_zero, abs_one]
    omega
  · have hy' : |y| ≤ b := by omega
    have hq : 0 ≤ a / b := Int.ediv_nonneg ha (by omega)
    refine ⟨hy', le_max_of_le_left ?_⟩
    calc |x - a / b * y| ≤ |x| + |a / b * y| := abs_sub _ _
      _ = |x| + a / b * |y| := by rw [abs_mul, abs_of_nonneg hq]
      _ ≤ a % b + a / b * b := add_le_add hx (mul_le_mul_of_nonneg_left hy' hq)
      _ = a := Int.emod_add_ediv_mul a b

theorem extendedGCDAux_bounded (fuel : Nat) {a b : Int} (ha : 0 ≤ a) (hb : 0 ≤ b) :
    BezoutBounded a b (extendedGCDAux fuel a b).2.1 (extendedGCDAux fuel a b).2.2 := by
  induction fuel generalizing a b with
  | zero => exact .base a hb
  | succ fuel ih =>
    rw [extendedGCDAux]
    split
    next => exact .base a hb
    next h0 =>
      have hb1 : 1 ≤ b := by omega
      have hrest := ih hb (modZ_nonneg a hb1)
      rw [modZ_eq_emod a hb1] at hrest ⊢
      rw [Int.fdiv_eq_ediv_of_nonneg a hb]
      exact hrest.step ha hb1

theorem extendedGCD_bezout (a b : Int) :
    a * (extendedGCD a b).2.1 + b * (extendedGCD a b).2.2 = (extendedGCD a b).1 :=
  extendedGCDAux_bezout _ a b

theorem extendedGCD_abs_le {a b : Int} (ha : 0 ≤ a) (hb : 0 ≤ b) :
    |(extendedGCD a b).2.1| ≤ max (max a b) 1 ∧ |(extendedGCD a b).2.2| ≤ max (max a b) 1 := by
  rcases extendedGCDAux_bounded (b.toNat + 1) ha hb with ⟨-, hx, hy⟩ | ⟨hpos, hx, hy⟩
  · rw [extendedGCD, hx, hy]
    simp
  · rw [extendedGCD]
    omega

theorem inIntRange_of_abs_le_max {a b v : Int} (hra : inIntRange a = true) (hrb : inIntRange b = true)
    (h : |v| ≤ max (max a b) 1) : inIntRange v = true := by
  simp only [inIntRange, decide_eq_true_eq] at *
  obtain ⟨hlow, hhigh⟩ := abs_le.mp h
  omega

theorem exec_egcd {a b : Int} (ha : 0 ≤ a) (hb : 0 ≤ b) (s : State) :
    exec (.egcd a b) s = .next (deliver (tripleItems (extendedGCD a b)) s) :=
  if_neg (by omega)

theorem inIntRange_tripleItems {a b : Int} (ha : 0 ≤ a) (hb : 0 ≤ b) (hra : inIntRange a = true)
    (hrb : inIntRange b = true) : ∀ v ∈ tripleItems (extendedGCD a b), inIntRange v = true := by
  obtain ⟨hx, hy⟩ := extendedGCD_abs_le ha hb
  have hg : inIntRange (extendedGCD a b).1 = true := by
    rw [extendedGCD_fst ha hb]
    exact inIntRange_gcd ha hb hra hrb
  simpa [tripleItems] using ⟨hg, inIntRange_of_abs_le_max hra hrb hx, inIntRange_of_abs_le_max hra hrb hy⟩

/-- Settles O18: the recursion is fuel-free, keeps Bézout's equation, and keeps each coefficient below the other argument. -/
theorem egcdDeliversBezoutCoefficients : Obligations.EgcdDeliversBezoutCoefficients := by
  refine ⟨fun a _ => by simp [extendedGCD, extendedGCDAux], fun a b g x y _ hb h => ?_, fun a b s =>
    ⟨runsAs_of_decode fun hwf => ?_, fun ha hb hwf => ?_, fun h => ?_⟩⟩
  · rw [extendedGCD_recursion hb, h]
  · obtain ⟨hra, hrb⟩ := Bool.and_eq_true_iff.mp hwf
    exact ofParsed_ok (fun p => Instr.egcd p.1 p.2) (parseIntPair_items hra hrb)
  · obtain ⟨hra, hrb⟩ := Bool.and_eq_true_iff.mp hwf
    refine ⟨_, _, _, rfl, ?_, extendedGCD_fst ha hb, extendedGCD_bezout a b, extendedGCD_abs_le ha hb⟩
    rw [exec_egcd ha hb, deliver_of_inRange (inIntRange_tripleItems ha hb hra hrb)]
    rfl
  · rw [exec, execEgcd, if_pos h, refuse_eq_endedRefused]

/-! ## MODINV (R156, R157) -/

theorem modInverse_of_not_coprime {a m : Int} (ha : 0 ≤ a) (hm : 1 ≤ m) (h : Int.gcd a m ≠ 1) :
    modInverse a m = none := by
  have hfst : (extendedGCD a m).1 ≠ 1 := by
    rw [extendedGCD_fst ha (by omega)]
    exact_mod_cast h
  rw [modInverse, if_pos hfst]

theorem exec_modinv {a m : Int} (ha : 0 ≤ a) (hm : 1 ≤ m) (s : State) :
    exec (.modinv a m) s = finishOption (thenOptionItems intItems (.ok (modInverse a m))) s :=
  if_neg (by omega)

/-- Settles O19, by the two ends of `modInverse`; what it finds is an inverse by Bézout's equation. -/
theorem modinvDeliversTheInverse : Obligations.ModinvDeliversTheInverse := by
  intro a m s
  refine ⟨runsAs_of_decode fun hwf => ?_, fun ha hm hr hgcd => ?_, fun ha hm hgcd => ?_, fun h => ?_⟩
  · obtain ⟨hra, hrm⟩ := Bool.and_eq_true_iff.mp hwf
    exact ofParsed_ok (fun p => Instr.modinv p.1 p.2) (parseIntPair_items hra hrm)
  · have hinv := modInverse_of_coprime ha hm hgcd
    refine ⟨_, ?_, Int.emod_nonneg _ (by omega), Int.le_sub_one_of_lt (Int.emod_lt_of_pos _ (by omega)),
      mul_modInverse_modEq hm hinv, rfl⟩
    rw [exec_modinv ha hm, hinv, thenOptionItems, intItems, finishOption,
      deliver_of_inRange (by simpa using inIntRange_emod hm hr _)]
  · rw [exec_modinv ha hm, modInverse_of_not_coprime ha hm hgcd]
    exact finishOption_none s
  · rw [exec, execModinv, if_pos h, refuse_eq_endedRefused]

/-- Settles O22: the test of step 2 is the test of step 3. -/
theorem stepThreeCannotFail : Obligations.StepThreeCannotFail := by
  intro det modulus hm h
  rw [gcdZ_modZ hm] at h
  rw [modZ_eq_emod det hm]
  exact ⟨_, modInverse_of_coprime (Int.emod_nonneg det (by omega)) hm (by exact_mod_cast h),
    Int.emod_nonneg _ (by omega), Int.emod_lt_of_pos _ (by omega)⟩

/-! ## INVMOD as an inverse over the residues (R161) -/

/-- The n×n matrix of the residues mod k of the values f i j. -/
def residueMatrix (n k : Nat) (f : Nat → Nat → Int) : Matrix (Fin n) (Fin n) (ZMod k) :=
  Matrix.of fun i j => (f i j : ZMod k)

/-- Two matrices are inverse over the residues when their product sums are congruent to the unit matrix. -/
theorem residueMatrix_mul_eq_one_iff {n k : Nat} {f g : Nat → Nat → Int} :
    residueMatrix n k f * residueMatrix n k g = 1 ↔ ∀ i < n, ∀ l < n,
      (∑ j ∈ Finset.range n, f i j * g j l) % (k : Int) = (if i = l then 1 else 0) % (k : Int) := by
  have hentry : ∀ i l : Fin n, (residueMatrix n k f * residueMatrix n k g) i l = (1 : Matrix _ _ (ZMod k)) i l ↔
      (∑ j ∈ Finset.range n, f i j * g j l) % (k : Int) = (if (i : Nat) = l then 1 else 0) % (k : Int) := by
    intro i l
    rw [← Int.ModEq, ← ZMod.intCast_eq_intCast_iff, Matrix.mul_apply, Matrix.one_apply, Finset.sum_range]
    simp [residueMatrix, Fin.ext_iff]
  rw [← Matrix.ext_iff]
  simp only [hentry, Fin.forall_iff]

theorem det_residueMatrix (k : Nat) (mat : Mat) :
    (residueMatrix mat.length k (entry mat)).det = ((matrixOf mat.length mat).det : ZMod k) :=
  ((Int.castRingHom (ZMod k)).map_det (matrixOf mat.length mat)).symm

/-- A matrix with an inverse over the residues has a determinant coprime to the modulus. -/
theorem gcd_det_of_mul_eq_one {k : Nat} {mat : Mat} {f : Nat → Nat → Int}
    (h : residueMatrix mat.length k (entry mat) * residueMatrix mat.length k f = 1) :
    Int.gcd (matrixOf mat.length mat).det k = 1 := by
  have hdet := congrArg Matrix.det h
  rw [Matrix.det_mul, Matrix.det_one, det_residueMatrix] at hdet
  have hcoprime := (ZMod.coe_int_isUnit_iff_isCoprime _ k).mp (IsUnit.of_mul_eq_one _ hdet)
  rw [Int.gcd_comm]
  exact Int.isCoprime_iff_gcd_eq_one.mp hcoprime

/-- What the six steps answer on a square matrix: nothing when the determinant is not coprime to the modulus, else residues of
a left inverse. -/
theorem inverseMatrixMod_square {mat : Mat} {modulus : Int} (hsq : Square mat) (hm : 1 ≤ modulus) :
    (Int.gcd (detValue mat) modulus ≠ 1 ∧ inverseMatrixMod mat modulus = .ok none) ∨
    (Int.gcd (detValue mat) modulus = 1 ∧
      ∃ f, inverseMatrixMod mat modulus = .ok (some (gridRows mat.length f)) ∧ ∀ i j, 0 ≤ f i j ∧ f i j < modulus) := by
  by_cases hgcd : Int.gcd (detValue mat) modulus = 1
  · rw [← Int.gcd_emod] at hgcd
    have hinv := modInverse_of_coprime (Int.emod_nonneg (detValue mat) (by omega)) hm hgcd
    have hanswer := inverseMatrixMod_of_coprime hm (determinant_square hsq) hgcd hinv
    obtain ⟨f, hf, hrange⟩ := inverseMatrixMod_eq_gridRows hm hanswer
    rw [Int.gcd_emod] at hgcd
    exact .inr ⟨hgcd, f, hf ▸ hanswer, hrange⟩
  · rw [← Int.gcd_emod] at hgcd
    have hanswer := inverseMatrixMod_of_not_coprime hm (determinant_square hsq) hgcd
    rw [Int.gcd_emod] at hgcd
    exact .inl ⟨hgcd, hanswer⟩

theorem exec_invmod_found {mat : Mat} {modulus : Int} {f : Nat → Nat → Int} (hne : mat ≠ []) (hm : 1 ≤ modulus)
    (hwf : (Instr.invmod mat modulus).wellFormed = true)
    (h : inverseMatrixMod mat modulus = .ok (some (gridRows mat.length f)))
    (hrange : ∀ i j, 0 ≤ f i j ∧ f i j < modulus) (s : State) :
    exec (.invmod mat modulus) s = .next (endedOk s (gridValues mat.length f)) := by
  obtain ⟨hmat, hmod⟩ := Bool.and_eq_true_iff.mp hwf
  have hf : ∀ i j, inIntRange (f i j) = true := fun i j => by
    obtain ⟨h0, hlt⟩ := hrange i j
    rw [← Int.emod_eq_of_lt h0 hlt]
    exact inIntRange_emod hm hmod _
  rw [exec_invmod hne hm, h, thenOptionItems, matItems_gridRows, finishOption,
    deliver_gridValues (length_le_of_matOk hmat) hf]

/-- Settles O21: the six steps find a left inverse over the residues, which over a commutative ring is two-sided; and an
inverse makes the determinant a unit. -/
theorem invmodInvertsTheMatrix : Obligations.InvmodInvertsTheMatrix := by
  intro mat modulus s hne hsq hm hwf
  obtain ⟨k, rfl⟩ := Int.eq_ofNat_of_zero_le (show 0 ≤ modulus by omega)
  rw [← detValue_eq_det]
  rcases inverseMatrixMod_square hsq hm with ⟨hgcd, hanswer⟩ | ⟨hgcd, f, hanswer, hrange⟩
  · refine ⟨fun _ => ⟨?_, fun ⟨f, hf⟩ => hgcd ?_⟩, fun h => absurd h hgcd⟩
    · rw [exec_invmod hne hm, hanswer]
      exact finishOption_none s
    · rw [detValue_eq_det]
      exact gcd_det_of_mul_eq_one (residueMatrix_mul_eq_one_iff.mpr hf)
  · refine ⟨fun h => absurd hgcd h, fun _ => ⟨f, exec_invmod_found hne hm hwf hanswer hrange s, ?_⟩⟩
    have hleft : residueMatrix mat.length k f * residueMatrix mat.length k (entry mat) = 1 := by
      refine residueMatrix_mul_eq_one_iff.mpr fun i hi l hl => ?_
      have hsum := inverseMatrixMod_mul_modEq hm hanswer hi hl
      rwa [Finset.sum_congr rfl fun j hj => by rw [entry_gridRows f hi (Finset.mem_range.mp hj)]] at hsum
    have hright := residueMatrix_mul_eq_one_iff.mp (mul_eq_one_comm.mp hleft)
    exact fun i hi l hl => ⟨(hrange i l).1, Int.le_sub_one_of_lt (hrange i l).2, hright i hi l hl,
      residueMatrix_mul_eq_one_iff.mp hleft i hi l hl⟩

end Sys2Proof.Machine
end

section
/-! DECODE (R193, R194, R197) and one turn on GENKEY (R180, R183). -/

namespace Sys2Proof.Machine

open Sys2Proof.Claims

/-! ## DECODE (R193, R194) -/

theorem exec_decode_length {text key : Str} (h : text.length * text.length ≠ key.length) (s : State) :
    exec (.decode text key) s = .next (endedError s .invalidKeyLength) := by
  rw [exec, execDecode, if_pos h, complete_error]

theorem decodeText_nonLetterKey {text key : Str} (hlen : text.length * text.length = key.length)
    (h : ∃ c ∈ key, ¬IsLetter c) : decodeText text key = .error .invalidCharacter := by
  simp [decodeText, hlen, stringToMatrix_nonLetter hlen.symm h]

/-- On a square matrix the six steps raise nothing, so what is not invertible is nothing-found. -/
theorem inverseMatrixMod_of_not_invertible {mat : Mat} (hsq : Square mat) (h : ¬Invertible26 mat) :
    inverseMatrixMod mat 26 = .ok none := by
  rcases inverseMatrixMod_square hsq (modulus := 26) (by decide) with ⟨-, hnone⟩ | ⟨-, f, hsome, -⟩
  · exact hnone
  · exact absurd ⟨_, hsome⟩ h

theorem decodeText_notInvertible {text key : Str} (hlen : text.length * text.length = key.length)
    (hkey : ∀ c ∈ key, IsLetter c) (h : ¬Invertible26 (keyMatrix text.length key)) :
    decodeText text key = .error .invalidKey := by
  have hnone : inverseMatrixMod (keyMatrix text.length key) 26 = .ok none :=
    inverseMatrixMod_of_not_invertible (square_gridRows _ _) h
  simp [decodeText, hlen, stringToMatrix_keyMatrix hlen.symm hkey, hnone]

section

variable {text key : Str} {inverse : Mat} (hlen : text.length * text.length = key.length)
  (hkey : ∀ c ∈ key, IsLetter c) (hinverse : inverseMatrixMod (keyMatrix text.length key) 26 = .ok (some inverse))
include hinverse

/-- The inverse key: the letters of the inverse matrix, as many as the key has. -/
theorem inverseKey_eq : matrixToString inverse = .ok (lettersOf inverse.flatten) ∧
    (lettersOf inverse.flatten).length = text.length * text.length := by
  obtain ⟨f, rfl, hrange⟩ := inverseMatrixMod_eq_gridRows (by decide) hinverse
  rw [length_keyMatrix]
  exact ⟨matrixToString_gridRows fun i j => ⟨(hrange i j).1, Int.le_of_lt_add_one (hrange i j).2⟩,
    length_lettersOf_flatten⟩

include hlen hkey

/-- With an inverse found, `decode` is `encode` with the inverse key, whatever the text. -/
theorem decodeText_eq_encodeText : decodeText text key = encodeText text (lettersOf inverse.flatten) := by
  simp [decodeText, hlen, stringToMatrix_keyMatrix hlen.symm hkey, hinverse, (inverseKey_eq hinverse).1]

end

/-- What DECODE delivers on letters: the sums of the inverse's rows with the text, mod 26 (R194). -/
theorem strItems_residueProduct {text : Str} {inverse : Mat} (hsize : inverse.length = text.length) :
    strItems (lettersOf (residueProduct inverse (text.map letterValue))) = (text.length : Int) ::
      (List.range text.length).map fun i => 0x41 +
        (∑ j ∈ Finset.range text.length, entry inverse i j * letterValue (text.getD j 0)) % 26 := by
  rw [lettersOf, strItems_letters residueProduct_range, length_residueProduct, hsize, residueProduct, List.length_map,
    hsize, List.map_map]
  refine congrArg _ (List.map_congr_left fun i _ => congrArg (fun x => 0x41 + x % 26) (Finset.sum_congr rfl fun j hj => ?_))
  have hj : j < text.length := Finset.mem_range.mp hj
  simp [hj]

/-- Settles O30, by the tests of `decode` in order; past them it is `encode` with the inverse key. -/
theorem decodeEncodesWithTheInverseKey : Obligations.DecodeEncodesWithTheInverseKey := by
  intro text key s
  refine ⟨runsAs_of_decode fun hwf => ?_,
    longFirst_of_decode fun w rest hw =>
      ofParsed_overCapacity _ (Parser.andThen_overCapacity _ (parseStr_overCapacity hw rest)),
    fun w rest hok hw => ?_, fun h => exec_decode_length h s, ?_, fun hne hlen h => ?_, fun hne hlen hkey h => ?_,
    fun hne hlen hkey ⟨inverse, hinverse⟩ htext => ?_, fun inverse hne hlen hkey hinverse => ?_,
    fun inverse hne hlen hok h hinverse => ?_⟩
  · obtain ⟨htext, hkey⟩ := Bool.and_eq_true_iff.mp hwf
    exact ofParsed_ok (fun p => Instr.decode p.1 p.2) (Parser.pair_items (parseStr_items htext) (parseStr_items hkey))
  · have hparse := Parser.pair_overCapacity_second (parseStr_items hok (w :: rest)) (parseStr_overCapacity hw rest)
    exact endsOverCapacity_of_decode (ofParsed_overCapacity (fun p : Str × Str => Instr.decode p.1 p.2) hparse)
  · rintro rfl rfl
    exact refuse_eq_endedRefused .unspecified s
  · rw [exec_decode hne hlen, decodeText_nonLetterKey hlen h]
    exact finish_error _ s
  · rw [exec_decode hne hlen, decodeText_notInvertible hlen hkey h]
    exact finish_error _ s
  · obtain ⟨c, hc, hletter⟩ := htext
    rw [exec_decode hne hlen, decodeText_eq_encodeText hlen hkey hinverse,
      encodeText_nonLetter (inverseKey_eq hinverse).2.symm ⟨c, List.mem_append_right _ hc, hletter⟩]
    exact finish_error _ s
  · obtain ⟨hstring, hsize⟩ := inverseKey_eq hinverse
    refine ⟨_, hstring, ?_⟩
    rw [exec_decode hne hlen, exec_encode hne hsize.symm, decodeText_eq_encodeText hlen hkey hinverse]
  · obtain ⟨hkey, htext⟩ := List.forall_mem_append.mp h
    have hsize : inverse.length = text.length := by
      obtain ⟨f, rfl, -⟩ := inverseMatrixMod_eq_gridRows (by decide) hinverse
      rw [length_gridRows, length_keyMatrix]
    have hbound : (residueProduct inverse (text.map letterValue)).length ≤ 225 := by
      rw [length_residueProduct, hsize]
      exact length_le_of_strOk hok
    rw [exec_decode hne hlen, decodeText_letters hlen hkey hinverse htext, finish_lettersOf hbound residueProduct_range,
      strItems_residueProduct hsize]

/-! ## The source's scenario (R197) -/

/-- Settles O32: the two functions evaluated on the source's text and key, and the length test. -/
theorem sourceScenarioHolds : Obligations.SourceScenarioHolds := by
  intro s
  refine ⟨?_, ?_, fun text key h => ?_⟩
  · rw [exec_encode (by simp) rfl, show encodeText _ _ = .ok (lettersOf [9, 6, 20, 0, 20]) by decide +kernel,
      finish_lettersOf (by decide) (by decide)]
    rfl
  · rw [exec_decode (by simp) rfl, show decodeText _ _ = .ok (lettersOf [7, 4, 11, 11, 14]) by decide +kernel,
      finish_lettersOf (by decide) (by decide)]
    rfl
  · rw [pow_two] at h
    exact ⟨exec_encode_length h s, exec_decode_length h s⟩

/-! ## A turn on GENKEY (R180) -/

theorem symbolValues_range (block : List Symbol) : ∀ v ∈ symbolValues block, 0 ≤ v ∧ v ≤ 25 := by
  intro v hv
  obtain ⟨x, -, rfl⟩ := List.mem_map.mp hv
  have := x.isLt
  simp only [Config.alphabetSize] at this
  omega

theorem lettersOf_symbolValues (block : List Symbol) : lettersOf (symbolValues block) = blockLetters block := by
  simp [lettersOf, symbolValues, blockLetters, List.map_map, Function.comp_def]

theorem isUpper_blockLetters (block : List Symbol) : ∀ c ∈ blockLetters block, IsUpper c := by
  rw [← lettersOf_symbolValues]
  exact isUpper_lettersOf (symbolValues_range block)

/-- The tests of a turn in order, on the end states. -/
theorem exec_genkey (n : Int) (s : State) : exec (.genkey n) s =
    if n ≤ 0 then .next (endedError s .invalidKeyLength)
    else if 15 < n then .next (endedRefused s .capacity)
    else if s.candidate.length < n.toNat * n.toNat then .next { s with rngReq := true }
    else testCandidate n.toNat s := by
  rw [← complete_error, ← complete_refused]
  rfl

theorem testCandidate_invertible {n : Nat} {s : State} {inverse : Mat}
    (h : inverseMatrixMod (blockMatrix n s.candidate) 26 = .ok (some inverse)) :
    testCandidate n s = finish (thenItems strItems (.ok (blockLetters s.candidate))) s := by
  rw [testCandidate, show inverseMatrixMod (candidateMatrix n s.candidate) Config.alphabetSize = _ from h, vectorToString,
    mapRaising_symbolToChar_lettersOf (symbolValues_range _), lettersOf_symbolValues]

theorem testCandidate_rejected {n : Nat} {s : State}
    (h : inverseMatrixMod (blockMatrix n s.candidate) 26 = .ok none) :
    testCandidate n s = .next { s with candidate := [] } := by
  rw [testCandidate, show inverseMatrixMod (candidateMatrix n s.candidate) Config.alphabetSize = _ from h, rejectCandidate]

theorem finish_blockLetters {block : List Symbol} (h : block.length ≤ 225) (s : State) :
    finish (thenItems strItems (.ok (blockLetters block))) s = .next (endedOk s (strItems (blockLetters block))) := by
  rw [← lettersOf_symbolValues]
  exact finish_lettersOf (by simpa [symbolValues] using h) (symbolValues_range block) s

section

variable {n : Int} {s : State}

theorem exec_genkey_nonpositive (h : n ≤ 0) : exec (.genkey n) s = .next (endedError s .invalidKeyLength) := by
  rw [exec_genkey, if_pos h]

theorem exec_genkey_large (h : 15 < n) : exec (.genkey n) s = .next (endedRefused s .capacity) := by
  rw [exec_genkey, if_neg (by omega), if_pos h]

variable (h1 : 1 ≤ n) (h15 : n ≤ 15)
include h1 h15

theorem exec_genkey_short (h : s.candidate.length < n.toNat * n.toNat) :
    exec (.genkey n) s = .next { s with rngReq := true } := by
  rw [exec_genkey, if_neg (by omega), if_neg (by omega), if_pos h]

theorem exec_genkey_full (h : n.toNat * n.toNat ≤ s.candidate.length) :
    exec (.genkey n) s = testCandidate n.toNat s := by
  rw [exec_genkey, if_neg (by omega), if_neg (by omega), if_neg (by omega)]

theorem exec_genkey_invertible (h : n.toNat * n.toNat ≤ s.candidate.length) (hbound : s.candidate.length ≤ 225)
    (hinv : Invertible26 (blockMatrix n.toNat s.candidate)) :
    exec (.genkey n) s = .next (endedOk s (strItems (blockLetters s.candidate))) := by
  obtain ⟨inverse, hinverse⟩ := hinv
  rw [exec_genkey_full h1 h15 h, testCandidate_invertible hinverse, finish_blockLetters hbound]

theorem exec_genkey_rejected (h : n.toNat * n.toNat ≤ s.candidate.length)
    (hinv : ¬Invertible26 (blockMatrix n.toNat s.candidate)) :
    exec (.genkey n) s = .next { s with candidate := [] } := by
  have hnone : inverseMatrixMod (blockMatrix n.toNat s.candidate) 26 = .ok none :=
    inverseMatrixMod_of_not_invertible (square_gridRows _ _) hinv
  rw [exec_genkey_full h1 h15 h, testCandidate_rejected hnone]

end

theorem mul_self_toNat_le {n : Int} (h15 : n ≤ 15) : n.toNat * n.toNat ≤ 225 :=
  Nat.mul_self_le_mul_self (show n.toNat ≤ 15 by omega)

/-- Settles O23, by the tests of the turn in order. -/
theorem genkeyTestsDrawsAndReturns : Obligations.GenkeyTestsDrawsAndReturns := by
  intro n s
  exact ⟨runsAs_of_decode fun hwf => ofParsed_ok Instr.genkey (parseInt_items hwf), exec_genkey_nonpositive,
    exec_genkey_large, exec_genkey_short,
    fun h1 h15 h hinv => exec_genkey_invertible h1 h15 h.ge (h.trans_le (mul_self_toNat_le h15)) hinv,
    fun h1 h15 h hinv => exec_genkey_rejected h1 h15 h.ge hinv⟩

/-- A turn on GENKEY does one of these. -/
theorem exec_genkey_cases (n : Int) {s : State} (hbound : 1 ≤ n → n ≤ 15 → s.candidate.length ≤ 225) :
    (n ≤ 0 ∧ exec (.genkey n) s = .next (endedError s .invalidKeyLength)) ∨
    (15 < n ∧ exec (.genkey n) s = .next (endedRefused s .capacity)) ∨
    (1 ≤ n ∧ n ≤ 15 ∧
      ((s.candidate.length < n.toNat * n.toNat ∧ exec (.genkey n) s = .next { s with rngReq := true }) ∨
      (n.toNat * n.toNat ≤ s.candidate.length ∧
        ((Invertible26 (blockMatrix n.toNat s.candidate) ∧
          exec (.genkey n) s = .next (endedOk s (strItems (blockLetters s.candidate)))) ∨
        (¬Invertible26 (blockMatrix n.toNat s.candidate) ∧ exec (.genkey n) s = .next { s with candidate := [] }))))) := by
  by_cases h0 : n ≤ 0
  · exact .inl ⟨h0, exec_genkey_nonpositive h0⟩
  by_cases h15 : 15 < n
  · exact .inr (.inl ⟨h15, exec_genkey_large h15⟩)
  have h1 : 1 ≤ n := by omega
  rw [not_lt] at h15
  refine .inr (.inr ⟨h1, h15, ?_⟩)
  rcases lt_or_ge s.candidate.length (n.toNat * n.toNat) with hshort | hfull
  · exact .inl ⟨hshort, exec_genkey_short h1 h15 hshort⟩
  · by_cases hinv : Invertible26 (blockMatrix n.toNat s.candidate)
    · exact .inr ⟨hfull, .inl ⟨hinv, exec_genkey_invertible h1 h15 hfull (hbound h1 h15) hinv⟩⟩
    · exact .inr ⟨hfull, .inr ⟨hinv, exec_genkey_rejected h1 h15 hfull hinv⟩⟩

/-- The letters of a block fill the block's matrix. -/
theorem stringToMatrix_blockLetters {n : Nat} {block : List Symbol} (h : block.length = n * n) :
    stringToMatrix (blockLetters block) = .ok (blockMatrix n block) := by
  have hletters : ∀ c ∈ blockLetters block, IsLetter c := fun c hc => .inl (isUpper_blockLetters block c hc)
  have hlen : (blockLetters block).length = n * n := by rw [blockLetters, List.length_map, h]
  rw [stringToMatrix_letters hlen hletters, ← rowMajor_letterValues hlen, ← lettersOf_symbolValues,
    map_letterValue_lettersOf (symbolValues_range block)]
  rfl

/-- Settles O25: of the ends of a turn only the full, invertible candidate's is DONE with OK. -/
theorem genkeyReturnsOnlyInvertibleKeys : Obligations.GenkeyReturnsOnlyInvertibleKeys := by
  intro n s t hexec hbusy hdone hok hlen
  have hbound : 1 ≤ n → n ≤ 15 → s.candidate.length ≤ 225 := fun _ h15 => hlen.trans (mul_self_toNat_le h15)
  rcases exec_genkey_cases n hbound with ⟨-, h⟩ | ⟨-, h⟩ | ⟨h1, h15, ⟨-, h⟩ | ⟨hfull, ⟨hinv, h⟩ | ⟨-, h⟩⟩⟩
  · cases hexec.symm.trans h
    cases hok
  · cases hexec.symm.trans h
    cases hok
  · cases hexec.symm.trans h
    exact absurd hdone hbusy
  · cases hexec.symm.trans h
    have hblock : s.candidate.length = n.toNat * n.toNat := le_antisymm hlen hfull
    exact ⟨h1, h15, blockLetters s.candidate, by rw [blockLetters, List.length_map, hblock],
      isUpper_blockLetters s.candidate, rfl, _, stringToMatrix_blockLetters hblock, hinv⟩
  · cases hexec.symm.trans h
    exact absurd hdone hbusy

end Sys2Proof.Machine
end

section
/-! What a step does, by the event it takes, and the statements that follow from that alone: the frame of the commands, the
transitions of the engine state, the refusal mark, the port, the accesses of the host. -/

namespace Sys2Proof.Machine

open Sys2Proof.Claims

/-! ## The engine's turn -/

/-- What a turn of the engine does: nothing with no command in flight; else it completes, or it is a turn on GENKEY that does
not. -/
inductive TurnBy (s : State) : State → Prop
  | idle (hc : s.inFlight = none) : TurnBy s s
  | completes (c : InFlight) (k : Completion) (hc : s.inFlight = some c) : TurnBy s (complete k s)
  | asks (c : InFlight) (n : Int) (rest : List Word) (hc : s.inFlight = some c)
      (hf : fetch c = .command (.genkey n) rest) : TurnBy s (raiseRequest s)
  | rejects (c : InFlight) (n : Int) (rest : List Word) (hc : s.inFlight = some c)
      (hf : fetch c = .command (.genkey n) rest) : TurnBy s (rejectCandidate s)

theorem turnBy_of_engineTurn {s t : State} (h : engineTurn s = .next t) : TurnBy s t := by
  rcases engineTurn_next h with ⟨hc, rfl⟩ | ⟨c, hc, ⟨i, rest, hf, hexec⟩ | ⟨-, rfl⟩ | ⟨rest, -, rfl⟩⟩
  · exact .idle hc
  · rcases exec_cases i s with ⟨k, he⟩ | ⟨n, rfl, he | he⟩ <;> cases hexec.symm.trans he
    · exact .completes c k hc
    · exact .asks c n rest hc hf
    · exact .rejects c n rest hc hf
  · exact .completes c _ hc
  · exact .completes c _ hc

/-! ## The events of a step -/

/-- The next event is the host's read at word offset off, on either bus form. -/
def ReadsAt (s : State) (off : Nat) (rest : List Event) : Prop :=
  s.script = .read off :: rest ∨ s.script = .readBytes (8 * off) 8 :: rest

/-- The next event is the host's write of w at word offset off, on either bus form. -/
def WritesAt (s : State) (off : Nat) (w : Word) (rest : List Event) : Prop :=
  s.script = .write off w :: rest ∨ ∃ bs, s.script = .writeBytes (8 * off) bs :: rest ∧ wordOfBytes bs = w

/-- What a step does: a turn of the engine, a read of the host, one of its writes that have an effect, a reset, an answer of
the source, or nothing but taking the event. -/
inductive StepBy (s : State) : State → Prop
  | turn {t : State} (rest : List Event) (hs : s.script = [] ∧ rest = s.recurring ∨ s.script = .engine :: rest)
      (hturn : engineTurn (popScript rest s) = .next t) : StepBy s t
  | read (off : Nat) (r : HostRead) (rest : List Event) (hs : ReadsAt s off rest) :
      StepBy s (logRead off r (popScript rest s))
  | issue (w : Word) (operands : List Word) (rest : List Event) (hs : WritesAt s 0x000 w rest)
      (hb : s.status.state ≠ .busy) (hsample : sampledWords w s.arg.words = some operands) :
      StepBy s (accept w operands (popScript rest s))
  | reset (rest : List Event) (hs : s.script = .hardReset :: rest ∨ WritesAt s 0x003 1 rest) :
      StepBy s (resetEngine (popScript rest s))
  | writeArg (i : Nat) (w : Word) (rest : List Event) (hs : WritesAt s (0x200 + i) w rest) (hi : i < 512)
      (hb : s.status.state ≠ .busy) : StepBy s (writeArg i w (popScript rest s))
  | answer (x : Symbol) (rest : List Event) (hr : s.rngReq = true)
      (hs : (∃ sym : BitVec 5, s.script = .rngAck sym :: rest ∧ sym.toNat = x.val) ∨
        (s.script = .rngTurn :: rest ∧ x = s.stream.symbolAt s.symbolsTaken)) :
      StepBy s (takeSymbol x (popScript rest s))
  | nothing (rest : List Event) (hs : WritesAt s 0x003 0 rest ∨ s.script = .rngTurn :: rest) :
      StepBy s (popScript rest s)

theorem srst_eq {w : Word} (hrest : w.extractLsb' 1 63 = 0) : w = if w.getLsbD 0 then 1 else 0 := by
  have hhigh : w.toNat / 2 % 2 ^ 63 = 0 := by
    have := congrArg BitVec.toNat hrest
    rwa [BitVec.extractLsb'_toNat, Nat.shiftRight_eq_div_pow] at this
  have hword : w.toNat < 2 ^ 64 := w.isLt
  have hlow : w.getLsbD 0 = decide (w.toNat % 2 = 1) := by simp [BitVec.getLsbD, Nat.testBit_zero]
  apply BitVec.eq_of_toNat_eq
  rw [hlow]
  by_cases hbit : w.toNat % 2 = 1 <;> simp [hbit] <;> omega

/-- A write that has an effect, on either bus form. -/
theorem stepBy_of_busWrite {s t : State} {off : Nat} {w : Word} {rest : List Event} (hs : WritesAt s off w rest)
    (h : busWrite off w (popScript rest s) = .next t) : StepBy s t := by
  rcases busWrite_next h with ⟨rfl, hb, operands, hsample, rfl⟩ | ⟨rfl, hrest, ⟨hbit, rfl⟩ | ⟨hbit, rfl⟩⟩ |
    ⟨i, hi, rfl, hb, rfl⟩
  · exact .issue w operands rest hs (isBusy_eq_false.mp hb) hsample
  · obtain rfl : w = 1 := (srst_eq hrest).trans (if_pos hbit)
    exact .reset rest (.inr hs)
  · obtain rfl : w = 0 := (srst_eq hrest).trans (if_neg (Bool.eq_false_iff.mp hbit))
    exact .nothing rest (.inl hs)
  · exact .writeArg i w rest hs hi (isBusy_eq_false.mp hb)

theorem addr_of_isOneWord {addr width : Nat} (h : isOneWord addr width = true) : addr = 8 * (addr / 8) ∧ width = 8 := by
  simp only [isOneWord, Bool.and_eq_true, decide_eq_true_eq] at h
  omega

theorem stepBy_of_step {s t : State} (h : step s = .next t) : StepBy s t := by
  rcases step_next h with ⟨hs, hturn⟩ | ⟨e, rest, hs, he⟩
  · exact .turn s.recurring (.inl ⟨hs, rfl⟩) hturn
  cases e with
  | read off =>
    obtain ⟨w, -, rfl⟩ := busRead_next he
    exact .read off _ rest (.inl hs)
  | write off w => exact stepBy_of_busWrite (.inl hs) he
  | readBytes addr width =>
    obtain ⟨hone, w, -, rfl⟩ := busReadBytes_next he
    obtain ⟨haddr, rfl⟩ := addr_of_isOneWord hone
    exact .read (addr / 8) _ rest (.inr (by rw [← haddr, hs]))
  | writeBytes addr bs =>
    obtain ⟨hone, hwrite⟩ := busWriteBytes_next he
    obtain ⟨haddr, -⟩ := addr_of_isOneWord hone
    exact stepBy_of_busWrite (.inr ⟨bs, by rw [← haddr, hs], rfl⟩) hwrite
  | engine => exact .turn rest (.inr hs) he
  | rngAck sym =>
    obtain ⟨hr, x, hx, rfl⟩ := rngAnswer_next he
    exact .answer x rest hr (.inl ⟨sym, hs, hx.symm⟩)
  | rngTurn =>
    rcases sourceTurn_cases (popScript rest s) with ⟨hr, hturn⟩ | ⟨-, hturn⟩ <;> cases Eq.trans (Eq.symm he) hturn
    · exact .answer _ rest hr (.inr ⟨hs, rfl⟩)
    · exact .nothing rest (.inr hs)
  | hardReset =>
    cases he
    exact .reset rest (.inl hs)

/-! ## The frame of the commands (R222) -/

theorem Completion.code_eq_refused_iff (c : Completion) : c.code = .refused ↔ c.isRefused = true := by
  cases c <;> simp [Completion.code, Completion.isRefused]

/-- Settles O50: a turn on a command completes it, or is one of GENKEY's two others. -/
theorem commandsChangeOnlyTheirOutcome : Obligations.CommandsChangeOnlyTheirOutcome := by
  intro i s t h
  rcases exec_cases i s with ⟨c, he⟩ | ⟨n, rfl, he | he⟩ <;> cases h.symm.trans he
  · refine ⟨rfl, fun _ => rfl, rfl, rfl, rfl, rfl, rfl, rfl, .inl ⟨rfl, rfl, rfl, rfl, fun k hk => ?_, fun k hk => ?_, ?_⟩⟩
    · rw [complete_res, Memory.read_ofWords]
      exact List.getElem?_eq_none hk
    · rw [complete_res, Memory.read_ofWords]
      simpa using hk
    · rw [complete_refusalMark, complete_status, Completion.status, Bool.eq_iff_iff]
      simp [Completion.code_eq_refused_iff]
  · exact ⟨rfl, fun _ => rfl, rfl, rfl, rfl, rfl, rfl, rfl, .inr ⟨n, rfl, .inl rfl⟩⟩
  · exact ⟨rfl, fun _ => rfl, rfl, rfl, rfl, rfl, rfl, rfl, .inr ⟨n, rfl, .inr rfl⟩⟩

/-! ## The engine state (R27) -/

theorem Inv.busy_of_inFlight {s : State} (h : Inv s) {c : InFlight} (hc : s.inFlight = some c) :
    s.status.state = .busy :=
  h.flightIffBusy.mp (by rw [hc]; rfl)

theorem Inv.inFlight_eq_none {s : State} (h : Inv s) (hb : s.status.state ≠ .busy) : s.inFlight = none := by
  rw [← Option.not_isSome_iff_eq_none, h.flightIffBusy]
  exact hb

theorem WritesAt.exists_event {s : State} {off : Nat} {w : Word} {rest : List Event} (h : WritesAt s off w rest) :
    ∃ e later, s.script = e :: later ∧ (e = .write off w ∨ ∃ bs, e = .writeBytes (8 * off) bs ∧ wordOfBytes bs = w) := by
  rcases h with hs | ⟨bs, hs, hw⟩
  · exact ⟨_, rest, hs, .inl rfl⟩
  · exact ⟨_, rest, hs, .inr ⟨bs, rfl, hw⟩⟩

/-- Settles O48: of what a step does only a reset, an issue and a completion write STATE. -/
theorem engineStateTransitions : Obligations.EngineStateTransitions := by
  intro s t hinv hstep hchange
  cases stepBy_of_step hstep with
  | turn rest hs hturn =>
    cases turnBy_of_engineTurn hturn with
    | completes c k hc => exact .inr (.inr ⟨hinv.busy_of_inFlight hc, rfl, hs.imp And.left fun hs => ⟨rest, hs⟩⟩)
    | idle | asks | rejects => exact absurd rfl hchange
  | issue w operands rest hs hb hsample =>
    obtain ⟨e, later, hscript, he⟩ := hs.exists_event
    exact .inr (.inl ⟨hb, rfl, e, later, hscript, he.imp (fun he => ⟨w, he⟩) fun ⟨bs, he, _⟩ => ⟨bs, he⟩⟩)
  | reset rest hs =>
    refine .inl ⟨rfl, ?_⟩
    rcases hs with hs | hs
    · exact ⟨_, rest, hs, .inl rfl⟩
    · obtain ⟨e, later, hscript, he⟩ := hs.exists_event
      exact ⟨e, later, hscript, .inr he⟩
  | read | writeArg | answer | nothing => exact absurd rfl hchange

/-- Settles O59: in DONE there is no command in flight to complete, and nothing else but an issue or a reset writes the
result. -/
theorem resultStaysUntilIssueOrReset : Obligations.ResultStaysUntilIssueOrReset := by
  intro s t hinv hstep hdone
  have hflight : s.inFlight = none := hinv.inFlight_eq_none (by simp [hdone])
  cases stepBy_of_step hstep with
  | turn rest hs hturn =>
    cases turnBy_of_engineTurn hturn with
    | idle => exact .inl ⟨rfl, rfl, rfl, id⟩
    | completes c k hc => cases hflight.symm.trans hc
    | asks c n rest hc => cases hflight.symm.trans hc
    | rejects c n rest hc => cases hflight.symm.trans hc
  | read off r rest hs => exact .inl ⟨rfl, rfl, rfl, fun h => by simp [h]⟩
  | issue w operands rest hs hb hsample =>
    obtain ⟨e, later, hscript, he⟩ := hs.exists_event
    exact .inr ⟨e, later, hscript, .inr (he.elim (fun he => .inl ⟨w, he⟩) fun ⟨bs, he, _⟩ => .inr (.inl ⟨bs, he⟩))⟩
  | reset rest hs =>
    rcases hs with hs | hs
    · exact .inr ⟨_, rest, hs, .inl rfl⟩
    · obtain ⟨e, later, hscript, he⟩ := hs.exists_event
      exact .inr ⟨e, later, hscript, .inr (.inr (.inr he))⟩
  | writeArg | answer | nothing => exact .inl ⟨rfl, rfl, rfl, id⟩

/-! ## The refusal mark (R218, R248 (b)) -/

theorem step_of_readsAt {s t : State} {off : Nat} {rest : List Event} (hs : ReadsAt s off rest)
    (h : step s = .next t) : ∃ r, t = logRead off r (popScript rest s) := by
  rcases hs with hs | hs <;> rw [step, hs] at h
  · obtain ⟨w, -, rfl⟩ := busRead_next h
    exact ⟨_, rfl⟩
  · obtain ⟨-, w, -, rfl⟩ := busReadBytes_next h
    rw [Nat.mul_div_cancel_left _ (by decide)]
    exact ⟨_, rfl⟩

/-- Settles O58: a completion and a read of RES write the mark, and neither clears it. -/
theorem refusalMarkIsSticky : Obligations.RefusalMarkIsSticky := by
  intro s t hstep
  have hread : ∀ off, ReadsResultAt s off → s.doneSeen = false → t.refusalMark = true := by
    rintro off ⟨hoff, rest, hs⟩ hseen
    obtain ⟨r, rfl⟩ := step_of_readsAt hs hstep
    simp [hseen, hoff]
  refine ⟨fun hmark => ?_, fun hmark hmark' => ?_, fun hdone hdone' hcode => ?_, hread⟩
  · cases stepBy_of_step hstep with
    | turn rest hs hturn =>
      cases turnBy_of_engineTurn hturn with
      | completes c k hc => simp [hmark]
      | idle | asks | rejects => exact hmark
    | read off r rest hs => simp [hmark]
    | issue | reset | writeArg | answer | nothing => exact hmark
  · cases stepBy_of_step hstep with
    | turn rest hs hturn =>
      cases turnBy_of_engineTurn hturn with
      | completes c k hc =>
        exact .inl ⟨rfl, k.code_eq_refused_iff.mpr (by simpa [hmark] using hmark')⟩
      | idle | asks | rejects => cases hmark.symm.trans hmark'
    | read off r rest hs =>
      have hunseen : 0x400 ≤ off ∧ s.doneSeen = false := by simpa [hmark] using hmark'
      exact .inr ⟨hunseen.2, off, hunseen.1, rest, hs⟩
    | issue | reset | writeArg | answer | nothing => cases hmark.symm.trans hmark'
  · cases stepBy_of_step hstep with
    | turn rest hs hturn =>
      cases turnBy_of_engineTurn hturn with
      | completes c k hc => simp [k.code_eq_refused_iff.mp hcode]
      | idle | asks | rejects => exact absurd hdone' hdone
    | issue | reset => cases hdone'
    | read | writeArg | answer | nothing => exact absurd hdone' hdone

/-! ## The random-symbol port (R36, R181) -/

/-- Settles O27, by the two tests of an acknowledgement and the one of a turn of the source. -/
theorem portAnswersOneDrawEach : Obligations.PortAnswersOneDrawEach := by
  intro sym s
  simp only [after_eq_eventStep, eventStep]
  refine ⟨fun h hr => ?_, fun h hr => ?_, fun hr => ?_, fun hr => ?_, fun hr => ?_⟩
  · rw [rngAnswer, if_pos hr, dif_pos h, takeSymbol]
  · rw [rngAnswer, if_pos hr, dif_neg (not_lt.mpr h)]
  · rw [rngAnswer, if_neg (by simp [hr])]
  · rw [sourceTurn, if_pos hr, takeSymbol]
  · rw [sourceTurn, if_neg (by simp [hr])]

/-- Settles O28: only an answer of the source counts a symbol, and under the invariant only GENKEY asks for one. -/
theorem symbolsAreTakenByGenkeyOnly : Obligations.SymbolsAreTakenByGenkeyOnly := by
  intro s t hinv hstep
  cases stepBy_of_step hstep with
  | turn rest hs hturn => cases turnBy_of_engineTurn hturn <;> exact .inl rfl
  | answer x rest hr hs =>
    refine .inr ⟨rfl, hr, hinv.portUse (.inl hr), rfl, x, rest, rfl, hs⟩
  | read | issue | reset | writeArg | nothing => exact .inl rfl

/-! ## Reads (R55) -/

theorem doneSeen_of_logRead {off : Nat} {r : HostRead} {s : State} (h : (logRead off r s).doneSeen ≠ s.doneSeen) :
    off = 0x001 ∧ s.status.state = .done := by
  obtain ⟨hoff, hdone, -⟩ : off = Config.statusOffset ∧ s.status.state = .done ∧ s.doneSeen = false := by simpa using h
  exact ⟨hoff, hdone⟩

theorem refusalMark_of_logRead {off : Nat} {r : HostRead} {s : State}
    (h : (logRead off r s).refusalMark ≠ s.refusalMark) : 0x400 ≤ off ∧ s.doneSeen = false := by
  obtain ⟨hoff, hseen, -⟩ : Config.resOffset ≤ off ∧ s.doneSeen = false ∧ s.refusalMark = false := by simpa using h
  exact ⟨hoff, hseen⟩

/-- Settles O45: a read is logged, and the log is all that changes. -/
theorem readsHaveNoSideEffect : Obligations.ReadsHaveNoSideEffect := by
  intro s t
  refine ⟨fun off h => ?_, fun addr width h => ?_⟩
  · obtain ⟨w, -, rfl⟩ := busRead_next h
    exact ⟨w, rfl, doneSeen_of_logRead, refusalMark_of_logRead⟩
  · obtain ⟨hone, w, -, rfl⟩ := busReadBytes_next h
    obtain ⟨haddr, -⟩ := addr_of_isOneWord hone
    refine ⟨bytesOf w, length_bytesOf w, rfl, fun hseen => ?_, fun hmark => ?_⟩
    · obtain ⟨hoff, hdone⟩ := doneSeen_of_logRead hseen
      exact ⟨by omega, hdone⟩
    · obtain ⟨hoff, hunseen⟩ := refusalMark_of_logRead hmark
      exact ⟨by omega, hunseen⟩

/-! ## The table of accesses (R52) -/

theorem placeOf_arg {i : Nat} (hi : i < 512) : placeOf (0x200 + i) = .arg i := by
  have hregister : ∀ k < 4, 0x200 + i ≠ k := by omega
  have hbuffer : 0x200 + i < 0x400 := by omega
  simp [placeOf, Config.resLenOffset, hregister, hbuffer]

theorem placeOf_reserved {off : Nat} (h4 : 4 ≤ off) (h : off < 0x200) : placeOf off = .reserved := by
  have hregister : ∀ k < 4, off ≠ k := by omega
  simp [placeOf, Config.resLenOffset, hregister, h]

theorem placeOf_outside {off : Nat} (h : 0x600 ≤ off) : placeOf off = .outside := by
  have hregister : ∀ k < 0x600, off ≠ k := by omega
  have hbelow : ∀ k ≤ 0x600, ¬off < k := by omega
  simp [placeOf, Config.resLenOffset, Config.ctrlOffset, Config.argOffset, Config.resOffset, hregister, hbelow]

theorem after_write (off : Nat) (w : Word) (s : State) : after (.write off w) s = busWrite off w s := rfl

theorem after_write_ctrl (w : Word) (s : State) : after (.write 0x003 w) s = writeCtrl w s := rfl

section

variable {s : State} {i : Nat} (hi : i < 512)
include hi

theorem after_write_arg (w : Word) (hb : s.status.state ≠ .busy) :
    after (.write (0x200 + i) w) s = .next { s with arg := s.arg.write i w } := by
  rw [after_write, busWrite, placeOf_arg hi]
  simp [isBusy_eq_false.mpr hb, writeArg]

theorem after_write_arg_busy (w : Word) (hb : s.status.state = .busy) :
    after (.write (0x200 + i) w) s = refusedAs .accessWhileBusy := by
  rw [after_write, busWrite, placeOf_arg hi]
  simp [isBusy_eq_true.mpr hb, violation, refusedAs]

theorem after_write_res (w : Word) : after (.write (0x400 + i) w) s = refusedAs .writeToReadOnly := by
  rw [after_write, busWrite, placeOf_res hi]
  rfl

theorem readWord_arg_busy (hb : s.status.state = .busy) : readWord (0x200 + i) s = .error .accessWhileBusy := by
  simp [readWord, placeOf_arg hi, isBusy_eq_true.mpr hb]

theorem readWord_arg_written {v : Word} (hb : s.status.state ≠ .busy) (hv : s.arg.read i = some v) :
    readWord (0x200 + i) s = .ok v := by
  simp [readWord, placeOf_arg hi, isBusy_eq_false.mpr hb, hv]

theorem readWord_arg_unwritten (hb : s.status.state ≠ .busy) (hv : s.arg.read i = none) :
    readWord (0x200 + i) s = .error .readOfUnwritten := by
  simp [readWord, placeOf_arg hi, isBusy_eq_false.mpr hb, hv]

theorem readWord_res_busy (hb : s.status.state = .busy) : readWord (0x400 + i) s = .error .accessWhileBusy := by
  simp [readWord, placeOf_res hi, isBusy_eq_true.mpr hb]

theorem readWord_res_idle (hidle : s.status.state = .idle) : readWord (0x400 + i) s = .error .readOfUnspecified := by
  simp [readWord, placeOf_res hi, State.isBusy, State.resReadable, hidle]

theorem after_read_arg {v : Word} (hb : s.status.state ≠ .busy) (hv : s.arg.read i = some v) :
    after (.read (0x200 + i)) s = .next (hasRead s (0x200 + i) v) := by
  rw [after_read_ok (readWord_arg_written hi hb hv), logRead_below_res v s (by omega) (by omega)]

theorem logRead_resWord (v : Word) : logRead (0x400 + i) (.word (0x400 + i) v) s = hasReadResult s i v := by
  have hstatus : 0x400 + i ≠ 0x001 := by omega
  simp [logRead, hasReadResult, hasRead, hstatus]

end

theorem readWord_resLen_busy {s : State} (hb : s.status.state = .busy) : readWord 0x002 s = .error .accessWhileBusy := by
  simp [readWord, placeOf, isBusy_eq_true.mpr hb]

theorem after_reserved {off : Nat} (h4 : 4 ≤ off) (h : off < 0x200) (w : Word) (s : State) :
    after (.read off) s = refusedAs .reservedOffset ∧ after (.write off w) s = refusedAs .reservedOffset := by
  refine ⟨after_read_error ?_, ?_⟩
  · rw [readWord, placeOf_reserved h4 h]
  · rw [after_write, busWrite, placeOf_reserved h4 h]
    rfl

theorem after_outside {off : Nat} (h : 0x600 ≤ off) (w : Word) (s : State) :
    after (.read off) s = refusedAs .outsideWindow ∧ after (.write off w) s = refusedAs .outsideWindow := by
  refine ⟨after_read_error ?_, ?_⟩
  · rw [readWord, placeOf_outside h]
  · rw [after_write, busWrite, placeOf_outside h]
    rfl

/-- In DONE each of the first RES_LEN words of RES holds a value (R32). -/
theorem Inv.exists_read_res {s : State} (h : Inv s) (hdone : s.status.state = .done) {i : Nat} (hi : i < s.resLen) :
    ∃ v, s.res.read i = some v := by
  obtain ⟨ws, hres, hlen⟩ := h.resultWords hdone
  rw [hres, Memory.read_ofWords]
  exact ⟨ws[i], List.getElem?_eq_getElem (by omega)⟩

/-- A write of 0 or 1 to CTRL has a meaning (R24). -/
theorem after_write_ctrl_of_le_one {w : Word} (hw : w.toNat ≤ 1) (s : State) :
    after (.write 0x003 w) s = .next (if w = 1 then resetEngine s else s) := by
  have hcases : w = 0 ∨ w = 1 := by
    rcases Nat.le_one_iff_eq_zero_or_eq_one.mp hw with h | h
    · exact .inl (BitVec.eq_of_toNat_eq h)
    · exact .inr (BitVec.eq_of_toNat_eq h)
  rcases hcases with rfl | rfl <;> rfl

/-- Settles O41, row by row of the table. -/
theorem accessTableHolds : Obligations.AccessTableHolds := by
  intro s w i hi
  refine ⟨after_read_status s, fun hw => ⟨_, after_write_ctrl_of_le_one hw s⟩, fun hb hsample => ?_, fun hb => ?_,
    fun hb => ?_, fun hidle => after_read_error (readWord_res_idle hi hidle), fun hidle hinv => ?_, fun hdone => ?_,
    rfl, rfl, after_write_res hi w, after_read_error rfl, after_read_error rfl,
    fun off h4 h => after_reserved h4 h w s, fun off h => after_outside h w s⟩
  · obtain ⟨operands, hoperands⟩ := Option.ne_none_iff_exists'.mp hsample
    exact ⟨_, (after_write_cmd_notBusy w hb).trans (issue_of_sampled hoperands), rfl⟩
  · exact ⟨after_write_cmd_busy w hb, after_write_arg_busy hi w hb, after_read_error (readWord_arg_busy hi hb),
      after_read_error (readWord_resLen_busy hb), after_read_error (readWord_res_busy hi hb)⟩
  · exact ⟨after_write_arg hi w hb, fun v hv => after_read_arg hi hb hv,
      fun hv => after_read_error (readWord_arg_unwritten hi hb hv), after_read_resLen hb⟩
  · exact (after_read_noResult (by simp [hidle]) (hinv.idleLength hidle)).1
  · refine ⟨fun v hl hv => ?_, fun hinv hl => hinv.exists_read_res hdone hl, fun hl => ?_⟩
    · rw [after_read_ok (readWord_res_value hi hdone hl hv), logRead_resWord hi]
    · exact after_read_error (readWord_res_beyond hi (by simp [hdone]) hl)

/-- Settles O42: of the words of CTRL only 0 and 1 have a meaning, and 1 is the reset. -/
theorem softResetFromAnyState : Obligations.SoftResetFromAnyState := by
  refine fun s => ⟨after_softReset s, rfl, fun w hw => ?_⟩
  have hrest : w.extractLsb' 1 63 ≠ 0 := fun h => by
    have hsmall := srst_eq h
    split at hsmall <;> subst hsmall <;> exact absurd hw (by decide)
  rw [after_write_ctrl, writeCtrl, if_pos hrest]
  rfl

/-- Settles O46, by read after write in the buffer. -/
theorem argKeepsWhatTheHostWrote : Obligations.ArgKeepsWhatTheHostWrote := by
  intro s i w hi hb
  have hread := Memory.read_write_same s.arg i w
  exact ⟨_, after_write_arg hi w hb, after_read_arg hi hb hread, hread,
    fun k hk => Memory.read_write_other s.arg i k w hk, rfl, fun hwf => Memory.wf_write w hwf hi⟩

end Sys2Proof.Machine
end

section
/-! How each command ends: with one outcome that does not depend on the state, that its row of the table of R215 allows, and
whose result fits the buffer. From that, the invariant of every step. -/

namespace Sys2Proof.Machine

open Sys2Proof.Claims

/-! ## The outcome of a command (R215) -/

/-- From every state the command completes in its one turn with the same outcome, which its row of the table allows and whose
result fits RES. -/
def EndsAlike (i : Instr) : Prop :=
  ∃ c : Completion, (∀ s, exec i s = .next (complete c s)) ∧ (c.code, c.reason) ∈ possibleEnds i ∧ c.result.length ≤ 512

section

variable {i : Instr}

theorem EndsAlike.ok {values : List Int} (h : ∀ s, exec i s = .next (endedOk s values)) (hlen : values.length ≤ 512)
    (hmem : (.ok, .none) ∈ possibleEnds i) : EndsAlike i :=
  ⟨.ok (wordsOf values), fun s => by rw [h, complete_ok], hmem, by simpa [Completion.result, wordsOf] using hlen⟩

theorem EndsAlike.error {k : ErrorKind} (h : ∀ s, exec i s = .next (endedError s k))
    (hmem : (.error k, .none) ∈ possibleEnds i) : EndsAlike i :=
  ⟨.error k, fun s => by rw [h, complete_error], hmem, by simp [Completion.result]⟩

theorem EndsAlike.nothingFound (h : ∀ s, exec i s = .next (endedNothingFound s))
    (hmem : (.nothingFound, .none) ∈ possibleEnds i) : EndsAlike i :=
  ⟨.nothingFound, fun s => by rw [h, complete_nothingFound], hmem, by simp [Completion.result]⟩

theorem EndsAlike.refused {r : RefuseReason} (h : ∀ s, exec i s = .next (endedRefused s r))
    (hmem : (.refused, .some r) ∈ possibleEnds i) : EndsAlike i :=
  ⟨.refused r, fun s => by rw [h, complete_refused], hmem, by simp [Completion.result]⟩

/-- A command that delivers values of which nothing is known but their number ends OK or ResultOverflow. -/
theorem EndsAlike.deliver {values : List Int} (h : ∀ s, exec i s = .next (deliver values s)) (hlen : values.length ≤ 512)
    (hok : (.ok, .none) ∈ possibleEnds i) (hover : (.refused, .some .resultOverflow) ∈ possibleEnds i) : EndsAlike i := by
  cases hrange : values.all inIntRange
  · exact .refused (fun s => by rw [h, deliver_of_outOfRange hrange]) hover
  · exact .ok (fun s => by rw [h, deliver_of_inRange (List.all_eq_true.mp hrange)]) hlen hok

end

/-! ## The codec's commands -/

theorem length_gridValues (n : Nat) (f : Nat → Nat → Int) : (gridValues n f).length = 1 + n * (1 + n) := by
  simp [gridValues, Nat.add_comm]

theorem length_gridValues_le {n : Nat} (hn : n ≤ 15) (f : Nat → Nat → Int) : (gridValues n f).length ≤ 241 := by
  have : n * (1 + n) ≤ 15 * 16 := Nat.mul_le_mul hn (by omega)
  rw [length_gridValues]
  omega

theorem endsAlike_c2s (c : Nat) : EndsAlike (.c2s c) := by
  by_cases h : IsLetter c
  · exact .ok (exec_c2s_letter h) (by simp) (by simp [possibleEnds])
  · exact .error (fun s => by
      obtain ⟨-, -, -, hother⟩ := c2sMapsLettersToSymbols c s
      exact hother h) (by simp [possibleEnds])

theorem endsAlike_s2c (v : Int) : EndsAlike (.s2c v) := by
  by_cases h : 0 ≤ v ∧ v ≤ 25
  · exact .ok (fun s => by
      obtain ⟨-, hinside, -⟩ := s2cMapsSymbolsToLetters v s
      exact hinside h.1 h.2) (by simp) (by simp [possibleEnds])
  · exact .error (fun s => by
      obtain ⟨-, -, houtside⟩ := s2cMapsSymbolsToLetters v s
      exact houtside (by omega)) (by simp [possibleEnds])

theorem endsAlike_str2vec {str : Str} (hok : strOk str = true) : EndsAlike (.str2vec str) := by
  have hlen := length_le_of_strOk hok
  by_cases h : ∀ c ∈ str, IsLetter c
  · exact .ok (fun s => by
      obtain ⟨-, -, hletters, -⟩ := str2vecConvertsEachCharacter str s
      exact hletters hok h) (by rw [List.length_cons, List.length_map]; omega) (by simp [possibleEnds])
  · exact .error (fun s => by
      obtain ⟨-, -, -, hother⟩ := str2vecConvertsEachCharacter str s
      exact hother (by simpa using h)) (by simp [possibleEnds])

theorem endsAlike_vec2str {vec : Vec} (hok : vecOk vec = true) : EndsAlike (.vec2str vec) := by
  have hlen := length_le_of_vecOk hok
  by_cases h : ∀ v ∈ vec, 0 ≤ v ∧ v ≤ 25
  · exact .ok (fun s => by
      obtain ⟨-, -, hsymbols, -⟩ := vec2strConvertsEachSymbol vec s
      exact hsymbols hok h) (by rw [List.length_cons, List.length_map]; omega) (by simp [possibleEnds])
  · have hout : ∃ v ∈ vec, v < 0 ∨ 25 < v := by
      push Not at h
      obtain ⟨v, hv, h⟩ := h
      exact ⟨v, hv, by omega⟩
    exact .error (fun s => by
      obtain ⟨-, -, -, hother⟩ := vec2strConvertsEachSymbol vec s
      exact hother hout) (by simp [possibleEnds])

theorem endsAlike_str2mat {str : Str} (hok : strOk str = true) : EndsAlike (.str2mat str) := by
  have hlen := length_le_of_strOk hok
  by_cases hside : ∃ side, str.length = side * side
  · obtain ⟨side, hside⟩ := hside
    have hle : side ≤ 15 := by nlinarith
    by_cases h : ∀ c ∈ str, IsLetter c
    · exact .ok (fun s => by
        obtain ⟨-, -, hletters, -⟩ := str2matFillsRowMajor str s
        exact hletters side hok hside h) ((length_gridValues_le hle _).trans (by decide)) (by simp [possibleEnds])
    · exact .error (fun s => by
        obtain ⟨-, -, -, hother, -⟩ := str2matFillsRowMajor str s
        exact hother side hside (by simpa using h)) (by simp [possibleEnds])
  · exact .error (fun s => by
      obtain ⟨-, -, -, -, hlength⟩ := str2matFillsRowMajor str s
      exact hlength fun side _ h => hside ⟨side, h⟩) (by simp [possibleEnds])

theorem endsAlike_mat2str {mat : Mat} (hok : matOk mat = true) : EndsAlike (.mat2str mat) := by
  have hlen := length_le_of_matOk hok
  by_cases hne : mat = []
  · exact .refused (fun s => by
      obtain ⟨-, -, hempty, -⟩ := mat2strSerializesRowMajor mat s
      exact hempty hne) (by simp [possibleEnds])
  by_cases hsq : Square mat
  · by_cases h : ∀ row ∈ mat, ∀ v ∈ row, 0 ≤ v ∧ v ≤ 25
    · refine .ok (fun s => by
        obtain ⟨-, -, -, -, -, hsymbols⟩ := mat2strSerializesRowMajor mat s
        exact hsymbols hne hsq hok h) ?_ (by simp [possibleEnds])
      have : mat.length * mat.length ≤ 15 * 15 := Nat.mul_self_le_mul_self hlen
      simp
      omega
    · have hout : ∃ row ∈ mat, ∃ v ∈ row, v < 0 ∨ 25 < v := by
        push Not at h
        obtain ⟨row, hrow, v, hv, h⟩ := h
        exact ⟨row, hrow, v, hv, by omega⟩
      exact .error (fun s => by
        obtain ⟨-, -, -, -, hother, -⟩ := mat2strSerializesRowMajor mat s
        exact hother hne hsq hout) (by simp [possibleEnds])
  · exact .error (fun s => by
      obtain ⟨-, -, -, hshape, -⟩ := mat2strSerializesRowMajor mat s
      exact hshape hne hsq) (by simp [possibleEnds])

/-! ## The matrix commands -/

theorem endsAlike_transp {mat : Mat} (hok : matOk mat = true) : EndsAlike (.transp mat) := by
  by_cases h : mat = [] ∨ ¬Square mat
  · exact .refused (fun s => by
      obtain ⟨-, -, -, hother⟩ := transpSwapsIndices mat s
      exact hother h) (by simp [possibleEnds])
  · rw [not_or, not_not] at h
    exact .ok (fun s => by
      obtain ⟨-, -, hsquare, -⟩ := transpSwapsIndices mat s
      exact hsquare h.1 h.2 hok) ((length_gridValues_le (length_le_of_matOk hok) _).trans (by decide))
      (by simp [possibleEnds])

theorem endsAlike_minor {mat : Mat} {row col : Int} (hok : matOk mat = true) : EndsAlike (.minor mat row col) := by
  have hlen := length_le_of_matOk hok
  by_cases h : mat = [] ∨ ¬Square mat ∨ row < 0 ∨ (mat.length : Int) ≤ row ∨ col < 0 ∨ (mat.length : Int) ≤ col
  · exact .refused (fun s => by
      obtain ⟨-, -, -, hother⟩ := minorDeletesRowAndColumn mat row col s
      exact hother h) (by simp [possibleEnds])
  · simp only [not_or, not_not, not_lt, not_le] at h
    obtain ⟨hne, hsq, hrow0, hrow, hcol0, hcol⟩ := h
    exact .ok (fun s => by
      obtain ⟨-, -, hinside, -⟩ := minorDeletesRowAndColumn mat row col s
      exact hinside hne hsq hok hrow0 hrow hcol0 hcol) ((length_gridValues_le (by omega) _).trans (by decide))
      (by simp [possibleEnds])

theorem endsAlike_det (mat : Mat) : EndsAlike (.det mat) := by
  by_cases hne : mat = []
  · exact .refused (fun s => by
      obtain ⟨hempty, -⟩ := detDeliversTheDeterminant mat s
      exact hempty hne) (by simp [possibleEnds])
  by_cases hsq : Square mat
  · exact .deliver (exec_det_square hne hsq) (by simp) (by simp [possibleEnds]) (by simp [possibleEnds])
  · exact .error (fun s => by
      obtain ⟨-, hshape, -⟩ := detDeliversTheDeterminant mat s
      exact hshape hne hsq) (by simp [possibleEnds])

theorem endsAlike_matvec {mat : Mat} (vec : Vec) (hok : matOk mat = true) : EndsAlike (.matvec mat vec) := by
  have hlen := length_le_of_matOk hok
  by_cases hne : mat = []
  · exact .refused (fun s => by
      obtain ⟨-, -, -, hempty, -⟩ := matvecReducesEachRowSum mat vec s
      exact hempty hne) (by simp [possibleEnds])
  by_cases h : ∀ row ∈ mat, row.length = vec.length
  · exact .ok (fun s => by
      obtain ⟨-, -, -, -, -, hsums⟩ := matvecReducesEachRowSum mat vec s
      exact hsums hne hok h) (by rw [List.length_cons, List.length_map, List.length_range]; omega) (by simp [possibleEnds])
  · exact .error (fun s => by
      obtain ⟨-, -, -, -, hother, -⟩ := matvecReducesEachRowSum mat vec s
      exact hother hne (by simpa using h)) (by simp [possibleEnds])

theorem endsAlike_invq {mat : Mat} (hok : matOk mat = true) : EndsAlike (.invq mat) := by
  have hlen := length_gridValues_le (length_le_of_matOk hok) fun i j => cofactor mat j i
  by_cases hne : mat = []
  · exact .refused (fun s => by
      obtain ⟨-, -, hempty, -⟩ := invqDeliversAdjugateAndDeterminant mat s
      exact hempty hne) (by simp [possibleEnds])
  by_cases hsq : Square mat
  · by_cases hd : detValue mat = 0
    · exact .nothingFound (exec_invq_singular hne hsq hd) (by simp [possibleEnds])
    · refine .deliver (exec_invq_regular hne hsq hd) ?_ (by simp [possibleEnds]) (by simp [possibleEnds])
      rw [invqValues, List.length_append, List.length_singleton]
      omega
  · exact .error (exec_invq_notSquare hne hsq) (by simp [possibleEnds])

/-! ## The modular commands -/

theorem endsAlike_mod {x m : Int} (hm : inIntRange m = true) : EndsAlike (.mod x m) := by
  by_cases h : m < 1
  · exact .refused (fun s => by
      obtain ⟨-, -, hrefused⟩ := modDeliversCanonicalResidue x m s
      exact hrefused h) (by simp [possibleEnds])
  · rw [not_lt] at h
    exact .ok (fun s => by rw [exec_mod h, deliver_of_inRange (by simpa using inIntRange_emod h hm x)]) (by simp)
      (by simp [possibleEnds])

theorem endsAlike_gcd {a b : Int} (hwf : (Instr.gcd a b).wellFormed = true) : EndsAlike (.gcd a b) := by
  by_cases h : a < 0 ∨ b < 0
  · exact .refused (fun s => by
      obtain ⟨-, -, hrules⟩ := gcdDeliversGreatestCommonDivisor
      obtain ⟨-, -, hrefused⟩ := hrules a b s
      exact hrefused h) (by simp [possibleEnds])
  · exact .ok (fun s => by
      obtain ⟨-, -, hrules⟩ := gcdDeliversGreatestCommonDivisor
      obtain ⟨-, hgcd, -⟩ := hrules a b s
      exact hgcd (by omega) (by omega) hwf) (by simp) (by simp [possibleEnds])

theorem endsAlike_egcd {a b : Int} (hwf : (Instr.egcd a b).wellFormed = true) : EndsAlike (.egcd a b) := by
  obtain ⟨hra, hrb⟩ := Bool.and_eq_true_iff.mp hwf
  by_cases h : a < 0 ∨ b < 0
  · exact .refused (fun s => by
      obtain ⟨-, -, hrules⟩ := egcdDeliversBezoutCoefficients
      obtain ⟨-, -, hrefused⟩ := hrules a b s
      exact hrefused h) (by simp [possibleEnds])
  · rw [not_or, not_lt, not_lt] at h
    exact .ok (fun s => by
      rw [exec_egcd h.1 h.2, deliver_of_inRange (inIntRange_tripleItems h.1 h.2 hra hrb)]) (by simp [tripleItems])
      (by simp [possibleEnds])

theorem endsAlike_modinv {a m : Int} (hm : inIntRange m = true) : EndsAlike (.modinv a m) := by
  by_cases h : a < 0 ∨ m < 1
  · exact .refused (fun s => by
      obtain ⟨-, -, -, hrefused⟩ := modinvDeliversTheInverse a m s
      exact hrefused h) (by simp [possibleEnds])
  rw [not_or, not_lt, not_lt] at h
  obtain ⟨ha, hm1⟩ := h
  by_cases hgcd : Int.gcd a m = 1
  · refine .ok (values := [(extendedGCD a m).2.1 % m]) (fun s => ?_) (by simp) (by simp [possibleEnds])
    obtain ⟨-, hinverse, -⟩ := modinvDeliversTheInverse a m s
    obtain ⟨r, hexec, -, -, -, rfl⟩ := hinverse ha hm1 hm hgcd
    exact hexec
  · exact .nothingFound (fun s => by
      obtain ⟨-, -, hnone, -⟩ := modinvDeliversTheInverse a m s
      exact hnone ha hm1 hgcd) (by simp [possibleEnds])

theorem endsAlike_invmod {mat : Mat} {modulus : Int} (hwf : (Instr.invmod mat modulus).wellFormed = true) :
    EndsAlike (.invmod mat modulus) := by
  obtain ⟨hok, -⟩ := Bool.and_eq_true_iff.mp hwf
  by_cases h : mat = [] ∨ modulus < 1
  · exact .refused (exec_invmod_refused h) (by simp [possibleEnds])
  rw [not_or, not_lt] at h
  obtain ⟨hne, hm⟩ := h
  by_cases hsq : Square mat
  · rcases inverseMatrixMod_square hsq hm with ⟨-, hnone⟩ | ⟨-, f, hsome, hrange⟩
    · exact .nothingFound (fun s => by rw [exec_invmod hne hm, hnone]; exact finishOption_none s) (by simp [possibleEnds])
    · exact .ok (exec_invmod_found hne hm hwf hsome hrange)
        ((length_gridValues_le (length_le_of_matOk hok) f).trans (by decide)) (by simp [possibleEnds])
  · exact .error (fun s => by
      obtain ⟨-, -, -, hshape, -⟩ := invmodFollowsTheSixSteps mat modulus s
      exact hshape hne hm hsq) (by simp [possibleEnds])

/-! ## The cipher commands -/

theorem endsAlike_encode {text : Str} (key : Str) (hok : strOk text = true) : EndsAlike (.encode text key) := by
  have hbound := length_le_of_strOk hok
  by_cases hlen : text.length * text.length = key.length
  · by_cases hne : text = []
    · have hkey : key = [] := List.length_eq_zero_iff.mp (by rw [← hlen, hne]; rfl)
      exact .refused (fun s => by
        obtain ⟨-, -, -, -, hempty, -⟩ := encodeMultipliesByTheKey text key s
        exact hempty hne hkey) (by simp [possibleEnds])
    · by_cases h : ∀ c ∈ key ++ text, IsLetter c
      · exact .ok (exec_encode_letters hne hlen hok h) (by
          rw [strItems_length, length_lettersOf, length_cipherSymbols]; omega) (by simp [possibleEnds])
      · exact .error (fun s => by
          obtain ⟨-, -, -, -, -, hother, -⟩ := encodeMultipliesByTheKey text key s
          exact hother hne hlen (by simpa using h)) (by simp [possibleEnds])
  · exact .error (exec_encode_length hlen) (by simp [possibleEnds])

/-- With an invertible key DECODE ends as ENCODE does with the inverse key. -/
theorem endsAlike_decode_invertible {text key : Str} (hok : strOk text = true) (hne : text ≠ [])
    (hlen : text.length * text.length = key.length) (hkey : ∀ c ∈ key, IsLetter c)
    (h : Invertible26 (keyMatrix text.length key)) : EndsAlike (.decode text key) := by
  obtain ⟨inverse, hinverse⟩ := h
  obtain ⟨-, hsize⟩ := inverseKey_eq hinverse
  obtain ⟨c, hends, hmem, hfits⟩ := endsAlike_encode (lettersOf inverse.flatten) hok
  refine ⟨c, fun s => ?_, ?_, hfits⟩
  · rw [← hends, exec_decode hne hlen, exec_encode hne hsize.symm, decodeText_eq_encodeText hlen hkey hinverse]
  · simp only [possibleEnds, List.mem_cons, List.not_mem_nil, or_false] at hmem ⊢
    tauto

theorem endsAlike_decode {text : Str} (key : Str) (hok : strOk text = true) : EndsAlike (.decode text key) := by
  by_cases hlen : text.length * text.length = key.length
  · by_cases hne : text = []
    · have hkey : key = [] := List.length_eq_zero_iff.mp (by rw [← hlen, hne]; rfl)
      exact .refused (fun s => by
        obtain ⟨-, -, -, -, hempty, -⟩ := decodeEncodesWithTheInverseKey text key s
        exact hempty hne hkey) (by simp [possibleEnds])
    by_cases hkey : ∀ c ∈ key, IsLetter c
    · by_cases h : Invertible26 (keyMatrix text.length key)
      · exact endsAlike_decode_invertible hok hne hlen hkey h
      · exact .error (fun s => by
          rw [exec_decode hne hlen, decodeText_notInvertible hlen hkey h]
          exact finish_error _ s) (by simp [possibleEnds])
    · exact .error (fun s => by
        rw [exec_decode hne hlen, decodeText_nonLetterKey hlen (by simpa using hkey)]
        exact finish_error _ s) (by simp [possibleEnds])
  · exact .error (exec_decode_length hlen) (by simp [possibleEnds])

/-- Every encodable command but GENKEY. -/
theorem endsAlike {i : Instr} (hwf : i.wellFormed = true) (hi : ∀ n, i ≠ .genkey n) : EndsAlike i := by
  cases i with
  | c2s c => exact endsAlike_c2s c
  | s2c v => exact endsAlike_s2c v
  | str2vec str => exact endsAlike_str2vec hwf
  | vec2str vec => exact endsAlike_vec2str hwf
  | str2mat str => exact endsAlike_str2mat hwf
  | mat2str mat => exact endsAlike_mat2str hwf
  | transp mat => exact endsAlike_transp hwf
  | minor mat row col =>
    simp only [Instr.wellFormed, Bool.and_eq_true, and_assoc] at hwf
    exact endsAlike_minor hwf.1
  | det mat => exact endsAlike_det mat
  | matvec mat vec => exact endsAlike_matvec vec (Bool.and_eq_true_iff.mp hwf).1
  | invq mat => exact endsAlike_invq hwf
  | mod x m => exact endsAlike_mod (Bool.and_eq_true_iff.mp hwf).2
  | gcd a b => exact endsAlike_gcd hwf
  | egcd a b => exact endsAlike_egcd hwf
  | modinv a m => exact endsAlike_modinv (Bool.and_eq_true_iff.mp hwf).2
  | invmod mat modulus => exact endsAlike_invmod hwf
  | genkey n => exact absurd rfl (hi n)
  | encode text key => exact endsAlike_encode key (Bool.and_eq_true_iff.mp hwf).1
  | decode text key => exact endsAlike_decode key (Bool.and_eq_true_iff.mp hwf).1

/-- Settles O51: GENKEY by the ends of its turn, every other command by the one way it ends. -/
theorem commandsEndAsTheTableSays : Obligations.CommandsEndAsTheTableSays := by
  intro i s t hwf hbound hexec
  by_cases hi : ∃ n, i = .genkey n
  · obtain ⟨n, rfl⟩ := hi
    rcases exec_genkey_cases n (fun _ _ => hbound) with
      ⟨-, h⟩ | ⟨-, h⟩ | ⟨-, -, ⟨-, h⟩ | ⟨-, ⟨-, h⟩ | ⟨-, h⟩⟩⟩ <;> cases hexec.symm.trans h
    · exact .inl ⟨rfl, by simp [endedError, possibleEnds]⟩
    · exact .inl ⟨rfl, by simp [endedRefused, possibleEnds]⟩
    · exact .inr ⟨n, rfl, rfl, rfl⟩
    · exact .inl ⟨rfl, by simp [endedOk, possibleEnds]⟩
    · exact .inr ⟨n, rfl, rfl, rfl⟩
  · obtain ⟨c, hends, hmem, -⟩ := endsAlike hwf fun n hn => hi ⟨n, hn⟩
    cases hexec.symm.trans (hends s)
    exact .inl ⟨rfl, hmem⟩

end Sys2Proof.Machine
end

section
/-! The invariant of every run: it holds after reset, and every step keeps it. -/

namespace Sys2Proof.Machine

open Sys2Proof.Claims

/-! ## What each operation does to the invariant -/

theorem inv_popScript {s : State} (h : Inv s) (rest : List Event) : Inv (popScript rest s) := { h with }

theorem inv_resetEngine (s : State) : Inv (resetEngine s) where
  argWf := rfl
  resWf := rfl
  resLenBound := Nat.zero_le _
  flagsClear _ := ⟨rfl, rfl⟩
  reasonIff := by simp [Status.reset]
  noResultOnFailure _ := rfl
  idleLength _ := rfl
  resultWords h := by cases h
  noResultOutsideDone _ := rfl
  flightIffBusy := by simp [Status.reset]
  sampledFromArg c hc := by cases hc
  portUse h := by simp at h
  markSet h := by cases h
  seenInDone h := by cases h

/-- Settles O52: the state after reset is a state that has been reset. -/
theorem resetMeetsTheInvariant : Obligations.ResetMeetsTheInvariant := inv_resetEngine State.reset

theorem Completion.reason_ne_none_iff (c : Completion) : c.reason ≠ .none ↔ c.code = .refused := by
  cases c <;> simp [Completion.reason, Completion.code]

theorem Completion.result_eq_nil {c : Completion} (h : c.code ≠ .ok) : c.result = [] := by
  cases c with
  | ok result => exact absurd rfl h
  | error | nothingFound | refused => rfl

/-- A completion needs only that its result fits the buffer. -/
theorem inv_complete {s : State} (h : Inv s) {c : Completion} (hfits : c.result.length ≤ 512) : Inv (complete c s) where
  argWf := h.argWf
  resWf := Memory.wf_ofWords hfits
  resLenBound := hfits
  flagsClear hdone := absurd rfl hdone
  reasonIff := c.reason_ne_none_iff
  noResultOnFailure hcode := by rw [complete_resLen, Completion.result_eq_nil hcode, List.length_nil]
  idleLength hidle := by cases hidle
  resultWords _ := ⟨c.result, rfl, rfl⟩
  noResultOutsideDone hdone := absurd rfl hdone
  flightIffBusy := by simp [Completion.status]
  sampledFromArg c hc := by cases hc
  portUse h := by simp at h
  markSet hcode := by simp [c.code_eq_refused_iff.mp hcode]
  seenInDone _ := rfl

theorem inv_accept {s : State} (h : Inv s) {w : Word} {operands : List Word}
    (hsample : sampledWords w s.arg.words = some operands) : Inv (accept w operands s) where
  argWf := h.argWf
  resWf := rfl
  resLenBound := h.resLenBound
  flagsClear _ := ⟨rfl, rfl⟩
  reasonIff := by simp [Status.issued]
  noResultOnFailure hcode := absurd rfl hcode
  idleLength hidle := by cases hidle
  resultWords hdone := by cases hdone
  noResultOutsideDone _ := rfl
  flightIffBusy := by simp [Status.issued]
  sampledFromArg c hc := by
    obtain rfl := Option.some.inj hc
    exact hsample
  portUse h := by simp at h
  markSet hcode := by cases hcode
  seenInDone hseen := by cases hseen

theorem inv_logRead {s : State} (h : Inv s) (off : Nat) (r : HostRead) : Inv (logRead off r s) :=
  { h with
    markSet := fun hcode => by simp [h.markSet hcode]
    seenInDone := fun hseen => by
      simp only [logRead_doneSeen, Bool.or_eq_true, Bool.and_eq_true, decide_eq_true_eq] at hseen
      exact hseen.elim h.seenInDone And.right }

theorem inv_writeArg {s : State} (h : Inv s) {i : Nat} (hi : i < 512) (w : Word) (hb : s.status.state ≠ .busy) :
    Inv (writeArg i w s) :=
  { h with
    argWf := Memory.wf_write w h.argWf hi
    sampledFromArg := fun c hc => by cases (h.inFlight_eq_none hb).symm.trans hc }

/-- An answer makes the candidate one symbol longer, and the draw was for a candidate that was short. -/
theorem inv_takeSymbol {s : State} (h : Inv s) (hr : s.rngReq = true) (x : Symbol) : Inv (takeSymbol x s) :=
  { h with
    portUse := fun _ => by
      obtain ⟨c, n, rest, hc, hfetch, h1, h15, -, hshort⟩ := h.portUse (.inl hr)
      refine ⟨c, n, rest, hc, hfetch, h1, h15, ?_, fun hr => by cases hr⟩
      rw [takeSymbol_candidate, List.length_append, List.length_singleton]
      exact hshort hr }

/-! ## A turn of the engine -/

/-- GENKEY of n in flight: its candidate holds at most n² symbols, and fewer while a draw is asked for. -/
theorem Inv.candidate_le {s : State} (h : Inv s) {c : InFlight} {n : Int} {rest : List Word}
    (hc : s.inFlight = some c) (hfetch : fetch c = .command (.genkey n) rest) :
    s.candidate.length ≤ n.toNat * n.toNat ∧ (s.rngReq = true → s.candidate.length < n.toNat * n.toNat) := by
  by_cases hport : s.rngReq = true ∨ s.candidate ≠ []
  · obtain ⟨c', m, rest', hc', hfetch', -, -, hle, hshort⟩ := h.portUse hport
    cases hc.symm.trans hc'
    cases hfetch.symm.trans hfetch'
    exact ⟨hle, hshort⟩
  · obtain ⟨hr, hempty⟩ := not_or.mp hport
    exact ⟨by simp [not_not.mp hempty], fun hr' => absurd hr' hr⟩

theorem inv_exec_genkey {s t : State} (h : Inv s) {c : InFlight} {n : Int} {rest : List Word}
    (hc : s.inFlight = some c) (hfetch : fetch c = .command (.genkey n) rest) (hexec : exec (.genkey n) s = .next t) :
    Inv t := by
  obtain ⟨hle, hshort⟩ := h.candidate_le hc hfetch
  have hbound : 1 ≤ n → n ≤ 15 → s.candidate.length ≤ 225 := fun _ h15 => hle.trans (mul_self_toNat_le h15)
  rcases exec_genkey_cases n hbound with ⟨-, he⟩ | ⟨-, he⟩ | ⟨h1, h15, ⟨hroom, he⟩ | ⟨hfull, ⟨-, he⟩ | ⟨-, he⟩⟩⟩ <;>
    cases hexec.symm.trans he
  · rw [← complete_error]
    exact inv_complete h (Nat.zero_le _)
  · rw [← complete_refused]
    exact inv_complete h (Nat.zero_le _)
  · obtain ⟨m, rfl⟩ := Int.eq_ofNat_of_zero_le (show 0 ≤ n by omega)
    exact { h with
      portUse := fun _ => ⟨c, m, rest, hc, hfetch, by omega, Int.ofNat_le.mp h15, hle, fun _ => hroom⟩ }
  · rw [← complete_ok]
    have := hbound h1 h15
    refine inv_complete h ?_
    rw [Completion.result, wordsOf_length, strItems_length, blockLetters, List.length_map]
    omega
  · refine { h with portUse := fun hport => ?_ }
    rcases hport with hr | hempty
    · exact absurd (hshort hr) (not_lt.mpr hfull)
    · exact absurd rfl hempty

theorem inv_engineTurn {s t : State} (h : Inv s) (hturn : engineTurn s = .next t) : Inv t := by
  rcases engineTurn_next hturn with ⟨-, rfl⟩ | ⟨c, hc, ⟨i, rest, hfetch, hexec⟩ | ⟨-, rfl⟩ | ⟨rest, -, rfl⟩⟩
  · exact h
  · by_cases hi : ∃ n, i = .genkey n
    · obtain ⟨n, rfl⟩ := hi
      exact inv_exec_genkey h hc hfetch hexec
    · obtain ⟨hwf, -, -⟩ := eq_encode_of_decode hfetch
      obtain ⟨k, hends, -, hfits⟩ := endsAlike hwf fun n hn => hi ⟨n, hn⟩
      cases hexec.symm.trans (hends s)
      exact inv_complete h hfits
  · exact inv_complete h (Nat.zero_le _)
  · exact inv_complete h (Nat.zero_le _)

/-- Settles O53: each thing a step can do keeps the invariant. -/
theorem stepKeepsTheInvariant : Obligations.StepKeepsTheInvariant := by
  intro s t hinv hstep
  cases stepBy_of_step hstep with
  | turn rest hs hturn => exact inv_engineTurn (inv_popScript hinv rest) hturn
  | read off r rest hs => exact inv_logRead (inv_popScript hinv rest) off r
  | issue w operands rest hs hb hsample => exact inv_accept (inv_popScript hinv rest) hsample
  | reset rest hs => exact inv_resetEngine _
  | writeArg i w rest hs hi hb => exact inv_writeArg (inv_popScript hinv rest) hi w hb
  | answer x rest hr hs => exact inv_takeSymbol (inv_popScript hinv rest) hr x
  | nothing rest hs => exact inv_popScript hinv rest

end Sys2Proof.Machine
end

section
/-! Runs: how they are put together, what a host that makes no access can see change, and the sequences of host accesses that
issue a command (R244, R252, R254, R221, R40). -/

namespace Sys2Proof.Machine

open Sys2Proof.Claims

/-! ## Putting runs together -/

theorem RunsTo.refl (s : State) : RunsTo 0 s s := rfl

theorem runsTo_succ_iff {k : Nat} {s u : State} : RunsTo (k + 1) s u ↔ ∃ t, step s = .next t ∧ RunsTo k t u := by
  have hcore : Sys2Proof.core.step s = step s := rfl
  have hrun := Host.Core.run.eq_2 Sys2Proof.core s k
  rw [hcore] at hrun
  refine (Eq.congr_left hrun).trans ?_
  cases step s <;> simp [RunsTo]

theorem RunsTo.cons {k : Nat} {s t u : State} (h : step s = .next t) (hrun : RunsTo k t u) : RunsTo (k + 1) s u :=
  runsTo_succ_iff.mpr ⟨t, h, hrun⟩

theorem RunsTo.one {s t : State} (h : step s = .next t) : RunsTo 1 s t := .cons h (.refl t)

/-- A run of k + j steps is a run of k steps and then one of j. -/
theorem runsTo_add_iff {k j : Nat} {s u : State} : RunsTo (k + j) s u ↔ ∃ t, RunsTo k s t ∧ RunsTo j t u := by
  induction k generalizing s with
  | zero =>
    rw [Nat.zero_add]
    exact ⟨fun h => ⟨s, .refl s, h⟩, fun ⟨t, hst, h⟩ => by cases hst; exact h⟩
  | succ k ih =>
    rw [Nat.succ_add, runsTo_succ_iff]
    constructor
    · rintro ⟨t, hstep, hrun⟩
      obtain ⟨v, hv, hu⟩ := ih.mp hrun
      exact ⟨v, .cons hstep hv, hu⟩
    · rintro ⟨v, hv, hu⟩
      obtain ⟨t, hstep, hrun⟩ := runsTo_succ_iff.mp hv
      exact ⟨t, hstep, ih.mpr ⟨v, hrun, hu⟩⟩

theorem RunsTo.trans {k j : Nat} {s t u : State} (h : RunsTo k s t) (h' : RunsTo j t u) : RunsTo (k + j) s u :=
  runsTo_add_iff.mpr ⟨t, h, h'⟩

/-- A run has one end. -/
theorem RunsTo.unique {k : Nat} {s t u : State} (h : RunsTo k s t) (h' : RunsTo k s u) : t = u :=
  Host.Outcome.next.inj (h.symm.trans h')

/-- A step takes the next event. -/
theorem step_of_event {e : Event} {rest : List Event} {s : State} {r : StepResult} (hs : s.script = e :: rest)
    (h : after e (popScript rest s) = r) : step s = r := by
  rw [step, hs]
  exact h

/-! ## A host that makes no further access (R254) -/

/-- No event to come, now or in a later round, is the host's. -/
def HostSilent (s : State) : Prop := ∀ e ∈ s.script ++ s.recurring, isHostEvent e = false

theorem HostSilent.not_readsAt {s : State} (h : HostSilent s) {off : Nat} {rest : List Event} : ¬ReadsAt s off rest := by
  rintro (hs | hs)
  · cases h (.read off) (by simp [hs])
  · cases h (.readBytes (8 * off) 8) (by simp [hs])

theorem HostSilent.not_writesAt {s : State} (h : HostSilent s) {off : Nat} {w : Word} {rest : List Event} :
    ¬WritesAt s off w rest := by
  rintro (hs | ⟨bs, hs, -⟩)
  · cases h (.write off w) (by simp [hs])
  · cases h (.writeBytes (8 * off) bs) (by simp [hs])

theorem HostSilent.not_hardReset {s : State} (h : HostSilent s) {rest : List Event} : s.script ≠ .hardReset :: rest :=
  fun hs => by cases h .hardReset (by simp [hs])

/-- Once the event is taken, or the round begun again, the events to come are among those that were to come. -/
theorem HostSilent.popScript {s : State} (h : HostSilent s) {rest : List Event}
    (hrest : ∀ e ∈ rest, e ∈ s.script ++ s.recurring) : HostSilent (popScript rest s) := by
  intro e he
  rcases List.mem_append.mp he with he | he
  · exact h e (hrest e he)
  · exact h e (List.mem_append_right _ he)

/-- With the host silent a step is a turn of the engine or of the source. -/
inductive SilentStepBy (s : State) : State → Prop
  | turn {t : State} (rest : List Event) (hrest : ∀ e ∈ rest, e ∈ s.script ++ s.recurring)
      (hturn : engineTurn (popScript rest s) = .next t) : SilentStepBy s t
  | answer (x : Symbol) (rest : List Event) (hrest : ∀ e ∈ rest, e ∈ s.script ++ s.recurring) (hr : s.rngReq = true) :
      SilentStepBy s (takeSymbol x (popScript rest s))
  | nothing (rest : List Event) (hrest : ∀ e ∈ rest, e ∈ s.script ++ s.recurring) : SilentStepBy s (popScript rest s)

theorem HostSilent.stepBy {s t : State} (h : HostSilent s) (hstep : step s = .next t) : SilentStepBy s t := by
  have htail : ∀ {e : Event} {rest : List Event}, s.script = e :: rest → ∀ e ∈ rest, e ∈ s.script ++ s.recurring :=
    fun hs e he => by simp [hs, he]
  cases stepBy_of_step hstep with
  | turn rest hs hturn =>
    refine .turn rest (fun e he => ?_) hturn
    rcases hs with ⟨hs, rfl⟩ | hs
    · exact List.mem_append_right _ he
    · exact htail hs e he
  | answer x rest hr hs =>
    rcases hs with ⟨sym, hs, -⟩ | ⟨hs, -⟩
    · exact .answer x rest (htail hs) hr
    · exact .answer x rest (htail hs) hr
  | nothing rest hs => exact .nothing rest (htail (hs.resolve_left h.not_writesAt))
  | read off r rest hs => exact absurd hs h.not_readsAt
  | issue w operands rest hs => exact absurd hs h.not_writesAt
  | reset rest hs => exact absurd hs (not_or.mpr ⟨h.not_hardReset, h.not_writesAt⟩)
  | writeArg i w rest hs => exact absurd hs h.not_writesAt

/-- The host stays silent, and nothing but a host's issue makes the engine BUSY. -/
theorem HostSilent.step {s t : State} (h : HostSilent s) (hstep : step s = .next t) :
    HostSilent t ∧ (t.status.state = .busy → s.status.state = .busy) := by
  cases h.stepBy hstep with
  | turn rest hrest hturn =>
    have hsilent := h.popScript hrest
    cases turnBy_of_engineTurn hturn with
    | completes c k hc => exact ⟨hsilent, fun hb => by cases hb⟩
    | idle | asks | rejects => exact ⟨hsilent, id⟩
  | answer x rest hrest hr => exact ⟨h.popScript hrest, id⟩
  | nothing rest hrest => exact ⟨h.popScript hrest, id⟩

theorem HostSilent.of_runsTo {k : Nat} {s t : State} (h : HostSilent s) (hrun : RunsTo k s t) : HostSilent t := by
  induction k generalizing s with
  | zero => cases hrun; exact h
  | succ k ih =>
    obtain ⟨u, hstep, hrest⟩ := runsTo_succ_iff.mp hrun
    exact ih (h.step hstep).1 hrest

theorem HostSilent.busy_of_runsTo {k : Nat} {s t : State} (h : HostSilent s) (hrun : RunsTo k s t)
    (hb : t.status.state = .busy) : s.status.state = .busy := by
  induction k generalizing s with
  | zero => cases hrun; exact hb
  | succ k ih =>
    obtain ⟨u, hstep, hrest⟩ := runsTo_succ_iff.mp hrun
    obtain ⟨hsilent, hbusy⟩ := h.step hstep
    exact hbusy (ih hsilent hrest)

theorem runOver_iff {s : State} : runOver s = true ↔ HostSilent s ∧ s.status.state ≠ .busy := by
  simp only [runOver, Bool.and_eq_true, Bool.not_eq_true', isBusy_eq_false, List.all_eq_true, HostSilent]

/-- In a run that is over a step takes an event, or begins a round, and that is all. -/
theorem step_of_runOver {s t : State} (hinv : Inv s) (hover : runOver s = true) (hstep : step s = .next t) :
    ∃ rest, (∀ e ∈ rest, e ∈ s.script ++ s.recurring) ∧ t = popScript rest s := by
  obtain ⟨hsilent, hb⟩ := runOver_iff.mp hover
  have hflight := hinv.inFlight_eq_none hb
  cases hsilent.stepBy hstep with
  | turn rest hrest hturn =>
    cases turnBy_of_engineTurn hturn with
    | idle => exact ⟨rest, hrest, rfl⟩
    | completes c k hc => cases hflight.symm.trans hc
    | asks c n rest' hc => cases hflight.symm.trans hc
    | rejects c n rest' hc => cases hflight.symm.trans hc
  | answer x rest hrest hr =>
    obtain ⟨c, n, rest', hc, -⟩ := hinv.portUse (.inl hr)
    cases hflight.symm.trans hc
  | nothing rest hrest => exact ⟨rest, hrest, rfl⟩

/-- Settles O39: a turn is exec of what is in flight, and with nothing in flight and a silent host nothing is left to change. -/
theorem stepRunsTheCommandInFlight : Obligations.StepRunsTheCommandInFlight := by
  refine ⟨fun s c i rest hc hdecode => ⟨fun hs => ?_, fun later hs => ?_⟩, fun s t hinv hover hstep => ?_⟩
  · rw [step_of_script_nil hs]
    exact engineTurn_of_command (s := newRound s) hc hdecode
  · rw [step, hs]
    exact engineTurn_of_command (s := popScript later s) hc hdecode
  · obtain ⟨rest, hrest, rfl⟩ := step_of_runOver hinv hover hstep
    obtain ⟨hsilent, hb⟩ := runOver_iff.mp hover
    exact ⟨runOver_iff.mpr ⟨hsilent.popScript hrest, hb⟩, rfl⟩

/-! ## The turn that completes a command -/

theorem fetch_ne_unwritten {c : InFlight} {args : List Word} (h : sampledWords c.cmd args = some c.operands) :
    fetch c ≠ .unwritten := by
  have hfetch : fetch c = decode c.cmd (c.operands ++ []) := by rw [fetch, List.append_nil]
  rcases sampledWords_cases h with ⟨hd, -⟩ | ⟨i, rest, -, -, hd⟩ | ⟨rest, -, -, hd⟩
  · rw [hfetch, (decode_eq_illegal_iff _ _).mpr ((decode_eq_illegal_iff _ args).mp hd)]
    simp
  · rw [hfetch, hd]
    simp
  · rw [hfetch, hd]
    simp

/-- A command in flight that is not GENKEY completes in its turn, with one outcome whatever the state holds. -/
theorem exists_completion {c : InFlight} (hwritten : fetch c ≠ .unwritten)
    (hgenkey : ∀ n rest, fetch c ≠ .command (.genkey n) rest) :
    ∃ k : Completion, ∀ s, s.inFlight = some c → engineTurn s = .next (complete k s) := by
  cases hfetch : fetch c with
  | unwritten => exact absurd hfetch hwritten
  | illegal => exact ⟨.refused .illegalCommand, fun s hc => by rw [engineTurn_of_illegal hc hfetch, complete_refused]⟩
  | overCapacity rest =>
    exact ⟨.refused .capacity, fun s hc => by rw [engineTurn_of_overCapacity hc hfetch, complete_refused]⟩
  | command i rest =>
    obtain ⟨hwf, -, -⟩ := eq_encode_of_decode hfetch
    obtain ⟨k, hends, -, -⟩ := endsAlike hwf fun n hn => hgenkey n rest (hn ▸ hfetch)
    exact ⟨k, fun s hc => by rw [engineTurn_of_command hc hfetch, hends]⟩

theorem Inv.fetch_ne_unwritten {s : State} (h : Inv s) {c : InFlight} (hc : s.inFlight = some c) : fetch c ≠ .unwritten :=
  Machine.fetch_ne_unwritten (h.sampledFromArg c hc)

/-- A turn of the engine always has a meaning. -/
theorem Inv.exists_engineTurn {s : State} (h : Inv s) : ∃ t, engineTurn s = .next t := by
  cases hc : s.inFlight with
  | none => exact ⟨s, by simp [engineTurn, hc]⟩
  | some c =>
    cases hfetch : fetch c with
    | unwritten => exact absurd hfetch (h.fetch_ne_unwritten hc)
    | illegal => exact ⟨_, engineTurn_of_illegal hc hfetch⟩
    | overCapacity rest => exact ⟨_, engineTurn_of_overCapacity hc hfetch⟩
    | command i rest =>
      rw [engineTurn_of_command hc hfetch]
      exact exec_next i s

theorem TurnBy.frame {s t : State} (h : TurnBy s t) :
    t.script = s.script ∧ t.recurring = s.recurring ∧ t.symbolsTaken = s.symbolsTaken ∧ t.reads = s.reads := by
  cases h <;> exact ⟨rfl, rfl, rfl, rfl⟩

/-! ## A reset against a turn of the engine (R221) -/

/-- Settles O60: in one order the reset comes last; in the other the turn finds nothing in flight. -/
theorem softResetWinsTheRace : Obligations.SoftResetWinsTheRace := by
  intro s hinv hb events hevents
  rcases hevents with rfl | rfl
  · have hreset : step { s with script := [.write 0x003 1, .engine] } = .next (resetEngine { s with script := [.engine] }) :=
      step_of_event rfl (after_softReset _)
    have hturn : step (resetEngine { s with script := [.engine] }) = .next (resetEngine { s with script := [] }) :=
      step_of_event rfl rfl
    exact ⟨_, .cons hreset (.one hturn), rfl, rfl, fun _ => rfl, fun _ => rfl, rfl, rfl, rfl⟩
  · obtain ⟨t, ht⟩ := (inv_popScript hinv [.write 0x003 1]).exists_engineTurn
    obtain ⟨hscript, -, htaken, -⟩ := (turnBy_of_engineTurn ht).frame
    have hreset : step t = .next (resetEngine (popScript [] t)) := step_of_event hscript (after_softReset _)
    exact ⟨_, .cons (step_of_event rfl ht) (.one hreset), rfl, rfl, fun _ => rfl, fun _ => rfl, rfl, rfl, htaken⟩

/-! ## Statelessness (R40) -/

theorem step_of_issue {w : Word} {operands : List Word} {rest : List Event} {s : State}
    (hs : s.script = .write 0x000 w :: rest) (hb : s.status.state ≠ .busy)
    (hsample : sampledWords w s.arg.words = some operands) : step s = .next (accept w operands (popScript rest s)) :=
  step_of_event hs ((after_write_cmd_notBusy (s := popScript rest s) w hb).trans (issue_of_sampled hsample))

/-- An issue and one turn of the engine. -/
theorem runsTo_issue {w : Word} {operands : List Word} {k : Completion}
    (hk : ∀ s, s.inFlight = some { cmd := w, operands := operands } → engineTurn s = .next (complete k s)) {s : State}
    (hb : s.status.state ≠ .busy) (hsample : sampledWords w s.arg.words = some operands) :
    RunsTo 2 { s with script := [.write 0x000 w, .engine] }
      (complete k (accept w operands { s with script := [] })) := by
  have hissue : step { s with script := [.write 0x000 w, .engine] } =
      .next (accept w operands { s with script := [.engine] }) :=
    step_of_issue rfl hb hsample
  have hturn : step (accept w operands { s with script := [.engine] }) =
      .next (complete k (accept w operands { s with script := [] })) :=
    step_of_event rfl (hk (accept w operands { s with script := [] }) rfl)
  exact .cons hissue (.one hturn)

/-- Settles O54: the one outcome of the command is what both runs end with. -/
theorem outcomeRestsOnSampledWordsOnly : Obligations.OutcomeRestsOnSampledWordsOnly := by
  intro w operands s₁ s₂ hb₁ hb₂ hsample₁ hsample₂ hgenkey
  obtain ⟨k, hk⟩ := exists_completion (c := { cmd := w, operands := operands }) (fetch_ne_unwritten hsample₁) hgenkey
  exact ⟨_, _, runsTo_issue hk hb₁ hsample₁, runsTo_issue hk hb₂ hsample₂, rfl, rfl, rfl, rfl⟩

/-! ## Polling (R252) -/

/-- However many polls come first, the turn after them completes the command; the polls have returned the STATUS of BUSY. -/
theorem runsTo_polls {c : InFlight} {k : Completion}
    (hk : ∀ s, s.inFlight = some c → engineTurn s = .next (complete k s)) (polls : Nat) {s : State}
    (hc : s.inFlight = some c) (hscript : s.script = List.replicate polls (.read 0x001)) :
    ∃ t, RunsTo (polls + 1) s t ∧ t.status.state = .done ∧ t.script = s.recurring ∧ t.recurring = s.recurring ∧
      t.reads = s.reads ++ List.replicate polls (.word 0x001 s.status.word) := by
  induction polls generalizing s with
  | zero =>
    have hstep : step s = .next (complete k (newRound s)) := by
      rw [step_of_script_nil hscript]
      exact hk _ hc
    exact ⟨_, .one hstep, rfl, rfl, rfl, by simp [newRound]⟩
  | succ polls ih =>
    have hstep : step s = .next (hasReadStatus (popScript (List.replicate polls (.read 0x001)) s)) :=
      step_of_event hscript (after_read_status _)
    obtain ⟨t, hrun, hdone, hround, hrecurring, hreads⟩ :=
      ih (s := hasReadStatus (popScript (List.replicate polls (.read 0x001)) s)) hc rfl
    refine ⟨t, .cons hstep hrun, hdone, hround, hrecurring, hreads.trans ?_⟩
    simp [hasReadStatus, hasRead, List.replicate_succ]

/-- Settles O56: reads leave the command in flight, and its turn completes it. -/
theorem commandsCompleteAfterAnyPolling : Obligations.CommandsCompleteAfterAnyPolling := by
  intro s c polls hinv hc hgenkey hscript
  obtain ⟨k, hk⟩ := exists_completion (hinv.fetch_ne_unwritten hc) hgenkey
  obtain ⟨t, hrun, hdone, hround, hrecurring, hreads⟩ := runsTo_polls hk polls hc hscript
  refine ⟨t, hrun, hdone, fun hsilent => ⟨hrun, runOver_iff.mpr ⟨fun e he => ?_, by simp [hdone]⟩⟩, hreads⟩
  rw [hround, hrecurring, List.mem_append, or_self] at he
  simpa using List.all_eq_true.mp hsilent e he

/-! ## A buffer written from an index on -/

/-- The words written one after another from index k on. -/
def Memory.writeFrom (k : Nat) : List Word → Memory → Memory
  | [], m => m
  | w :: rest, m => Memory.writeFrom (k + 1) rest (m.write k w)

theorem Memory.read_writeFrom (ws : List Word) (k i : Nat) (m : Memory) :
    (m.writeFrom k ws).read i = if k ≤ i ∧ i < k + ws.length then ws[i - k]? else m.read i := by
  induction ws generalizing k m with
  | nil => simp [Memory.writeFrom, show ¬(k ≤ i ∧ i < k) by omega]
  | cons w rest ih =>
    rw [Memory.writeFrom, ih, List.length_cons]
    rcases lt_trichotomy i k with hlt | rfl | hgt
    · rw [if_neg (by omega), if_neg (by omega), Memory.read_write_other _ _ _ _ (by omega)]
    · rw [if_neg (by omega), if_pos (by omega), Memory.read_write_same]
      simp
    · rw [Memory.read_write_other _ _ _ _ (by omega), show i - k = i - (k + 1) + 1 by omega, List.getElem?_cons_succ]
      exact if_congr (by omega) rfl rfl

theorem Memory.wf_writeFrom {ws : List Word} {k bound : Nat} {m : Memory} (h : m.wf bound = true)
    (hfits : k + ws.length ≤ bound) : (m.writeFrom k ws).wf bound = true := by
  induction ws generalizing k m with
  | nil => exact h
  | cons w rest ih =>
    rw [List.length_cons] at hfits
    exact ih (Memory.wf_write w h (by omega)) (by omega)

/-- Below every listed index no word has a value. -/
theorem Memory.read_of_lt_least {m : Memory} {least bound i : Nat} (h : m.risingFrom least bound = true) (hi : i < least) :
    m.read i = none := by
  induction m generalizing least with
  | nil => rfl
  | cons c rest ih =>
    obtain ⟨j, w⟩ := c
    simp only [Memory.risingFrom, Bool.and_eq_true, decide_eq_true_eq] at h
    obtain ⟨⟨hj, -⟩, hrest⟩ := h
    rw [Memory.read, if_neg (by omega)]
    exact ih hrest (by omega)

/-- In a buffer in canonical form the words read one after another are the words a parse visits. -/
theorem Memory.exists_wordsFrom_eq {ws : List Word} {k bound : Nat} {m : Memory} (h : m.risingFrom k bound = true)
    (hread : ∀ i < ws.length, m.read (k + i) = ws[i]?) : ∃ rest, m.wordsFrom k = ws ++ rest := by
  induction ws generalizing k m with
  | nil => exact ⟨_, rfl⟩
  | cons w ws ih =>
    have hfirst : m.read k = some w := hread 0 (by simp)
    cases m with
    | nil => cases hfirst
    | cons c later =>
      obtain ⟨j, v⟩ := c
      simp only [Memory.risingFrom, Bool.and_eq_true, decide_eq_true_eq] at h
      obtain ⟨⟨hj, -⟩, hlater⟩ := h
      obtain rfl : j = k := by
        by_contra hne
        rw [Memory.read, if_neg hne, Memory.read_of_lt_least hlater (by omega)] at hfirst
        cases hfirst
      obtain rfl : v = w := by simpa [Memory.read] using hfirst
      have hrest : ∀ i < ws.length, Memory.read later (j + 1 + i) = ws[i]? := fun i hi => by
        have hnext := hread (i + 1) (by simpa using hi)
        rw [Memory.read, if_neg (by omega), List.getElem?_cons_succ] at hnext
        rwa [show j + 1 + i = j + (i + 1) by omega]
      obtain ⟨rest, hwords⟩ := ih hlater hrest
      exact ⟨rest, by rw [Memory.wordsFrom, if_pos rfl, hwords, List.cons_append]⟩

theorem Memory.exists_words_writeFrom {ws : List Word} {m : Memory} (h : m.wf 512 = true) (hfits : ws.length ≤ 512) :
    ∃ rest, (m.writeFrom 0 ws).words = ws ++ rest := by
  refine Memory.exists_wordsFrom_eq (Memory.wf_writeFrom h (by omega)) fun i hi => ?_
  rw [Memory.read_writeFrom, if_pos (by omega), Nat.zero_add, Nat.sub_zero]

/-! ## The host's sequence (R244, R254) -/

/-- A run in which the host sees no completion. -/
structure QuietRun (k : Nat) (s t : State) : Prop where
  runs : RunsTo k s t
  quiet : ∀ j, observed (k + j) s = observed j t

theorem QuietRun.refl (s : State) : QuietRun 0 s s := ⟨.refl s, fun j => by rw [Nat.zero_add]⟩

theorem QuietRun.trans {k j : Nat} {s t u : State} (h : QuietRun k s t) (h' : QuietRun j t u) : QuietRun (k + j) s u :=
  ⟨h.runs.trans h'.runs, fun i => by rw [Nat.add_assoc, h.quiet, h'.quiet]⟩

theorem observed_succ {s t : State} (h : step s = .next t) (k : Nat) :
    observed (k + 1) s = (if !s.doneSeen && t.doneSeen then [observe t] else []) ++ observed k t := by
  simp [observed, h]

theorem QuietRun.one {s t : State} (h : step s = .next t) (hseen : t.doneSeen = true → s.doneSeen = true) :
    QuietRun 1 s t := by
  refine ⟨.one h, fun j => ?_⟩
  have hquiet : (!s.doneSeen && t.doneSeen) = false := by
    cases ht : t.doneSeen
    · simp
    · simp [hseen ht]
  rw [Nat.add_comm, observed_succ h, hquiet]
  rfl

/-- Writing words to ARG one after another. -/
theorem quietRun_writes (ws : List Word) {k : Nat} {s : State} {later : List Event} (hb : s.status.state ≠ .busy)
    (hfits : k + ws.length ≤ 512)
    (hscript : s.script = (ws.zipIdx k).map (fun p => Event.write (0x200 + p.2) p.1) ++ later) :
    QuietRun ws.length s { s with script := later, arg := s.arg.writeFrom k ws } := by
  induction ws generalizing k s with
  | nil =>
    obtain rfl : s.script = later := hscript
    exact .refl s
  | cons w ws ih =>
    rw [List.length_cons] at hfits
    rw [List.zipIdx_cons, List.map_cons, List.cons_append] at hscript
    have hstep := step_of_event hscript (after_write_arg (by omega) w hb)
    rw [List.length_cons, Nat.add_comm]
    exact (QuietRun.one hstep id).trans (ih hb (by omega) rfl)

/-- An issue over the command's own operand words, and the turn that completes it. -/
theorem quietRun_issue {i : Instr} {k : Completion} {s : State} {later : List Event} (hwf : i.wellFormed = true)
    (hk : ∀ s, exec i s = .next (complete k s)) (hb : s.status.state ≠ .busy)
    (hsample : sampledWords i.commandWord s.arg.words = some i.operandWords)
    (hs : s.script = .write 0x000 i.commandWord :: .engine :: later) :
    QuietRun 2 s (complete k (accept i.commandWord i.operandWords (popScript later s))) := by
  have hfetch : fetch { cmd := i.commandWord, operands := i.operandWords } = .command i [] := by
    simpa [fetch] using decode_commandWord hwf []
  have hissue := step_of_issue hs hb hsample
  have hturn : engineTurn (accept i.commandWord i.operandWords (popScript later s)) =
      .next (complete k (accept i.commandWord i.operandWords (popScript later s))) :=
    (engineTurn_of_command rfl hfetch).trans (hk _)
  exact (QuietRun.one hissue fun h => by cases h).trans (QuietRun.one (step_of_event rfl hturn) id)

/-- The host's whole sequence: operands, issue, one turn of the engine. -/
theorem quietRun_sequence {i : Instr} {k : Completion} {s : State} (later : List Event) (hwf : i.wellFormed = true)
    (hk : ∀ s, exec i s = .next (complete k s)) (hb : s.status.state ≠ .busy) (harg : s.arg.wf 512 = true) :
    QuietRun (i.operandWords.length + 2) { s with script := issueEvents i ++ .engine :: later }
      { complete k s with script := later, arg := s.arg.writeFrom 0 i.operandWords, doneSeen := false } := by
  have hlayout : decode i.commandWord (i.operandWords ++ []) = .command i [] := decode_commandWord hwf []
  rw [List.append_nil] at hlayout
  have hfits : i.operandWords.length ≤ 467 := (decode_visits _ _).1 i [] hlayout
  obtain ⟨rest, hwords⟩ := Memory.exists_words_writeFrom (ws := i.operandWords) harg (by omega)
  have hsample : sampledWords i.commandWord (s.arg.writeFrom 0 i.operandWords).words = some i.operandWords := by
    rw [hwords]
    exact sampledWords_of_command (decode_commandWord hwf rest)
  have hwrites := quietRun_writes i.operandWords (k := 0) (later := .write 0x000 i.commandWord :: .engine :: later)
    (s := { s with script := issueEvents i ++ .engine :: later }) hb (by omega) (by simp [issueEvents])
  exact hwrites.trans (quietRun_issue hwf hk hb hsample rfl)

/-- The read of STATUS that first returns DONE is an observation (R254). -/
theorem observed_read_status {s : State} (hs : s.script = [.read 0x001]) (hdone : s.status.state = .done)
    (hseen : s.doneSeen = false) : observed 1 s = [observe s] := by
  rw [observed_succ (step_of_event hs (after_read_status _))]
  simp [hasReadStatus, hasRead, hdone, hseen, observed, observe]

/-- Settles O55: the sequence is a quiet run, and the read of STATUS after it is the one observation. -/
theorem hostSequenceRunsTheCommand : Obligations.HostSequenceRunsTheCommand := by
  intro i s hwf hi hb harg hscript
  obtain ⟨k, hk, -, -⟩ := endsAlike hwf hi
  have hread : ∀ j, (s.arg.writeFrom 0 i.operandWords).read j =
      if j < i.operandWords.length then i.operandWords[j]? else s.arg.read j := fun j => by
    rw [Memory.read_writeFrom]
    simp
  refine ⟨_, _, hk s, (quietRun_sequence [] hwf hk hb harg).runs, ?_, ?_, fun j w hw => ?_, fun j hj => ?_⟩
  · rw [← hscript]
    rfl
  · exact ((quietRun_sequence [.read 0x001] hwf hk hb harg).quiet 1).trans (observed_read_status rfl rfl rfl)
  · obtain ⟨hlt, -⟩ := List.getElem?_eq_some_iff.mp hw
    exact (hread j).trans ((if_pos hlt).trans hw)
  · exact (hread j).trans (if_neg (by omega))

end Sys2Proof.Machine
end

section
/-! Runs of GENKEY (R180 to R184, R252): one draw, one candidate, as many rejected candidates as there are, and the end with the
first invertible one; answered by acknowledgements that the events name, or from the stream. -/

namespace Sys2Proof.Claims

open Sys2Proof.Machine

/-! ## The turns of GENKEY in flight -/

/-- GENKEY of s with a block of symbols drawn for its candidate and no draw waiting. -/
def drawn (s : State) (block : List Symbol) (later : List Event) : State :=
  { s with
    script := later
    rngReq := false
    candidate := block
    symbolsTaken := s.symbolsTaken + block.length }

/-- The same after r blocks have been taken from the stream and rejected. -/
def advanced (n : Nat) (s : State) (r : Nat) : State := { s with symbolsTaken := s.symbolsTaken + r * (n * n) }

section

variable {n : Nat} {s : State} (h : GenkeyIssued n s)
include h

theorem GenkeyIssued.eq_drawn (later : List Event) : { s with script := later } = drawn s [] later := by
  simp [drawn, h.noSymbols, h.noRequest]

theorem GenkeyIssued.issued_advanced (r : Nat) : GenkeyIssued n (advanced n s r) := { h with }

theorem GenkeyIssued.turn_eq {u : State} (hc : u.inFlight = s.inFlight) : engineTurn u = exec (.genkey n) u := by
  have hrange : inIntRange (n : Int) = true := by
    have := h.atMostFifteen
    exact inIntRange_of_small (by omega) (by omega)
  have hfetch : fetch { cmd := 0x40, operands := [Word.ofValue (n : Int)] } = .command (.genkey n) [] :=
    decode_commandWord (i := .genkey n) hrange []
  exact engineTurn_of_command (hc.trans h.flight) hfetch

theorem GenkeyIssued.bounds : (1 : Int) ≤ n ∧ (n : Int) ≤ 15 := by
  have := h.atLeastOne
  have := h.atMostFifteen
  omega

/-- With the candidate short a turn asks. -/
theorem GenkeyIssued.engineTurn_short {u : State} (hc : u.inFlight = s.inFlight) (hshort : u.candidate.length < n * n) :
    engineTurn u = .next { u with rngReq := true } := by
  obtain ⟨h1, h15⟩ := h.bounds
  rw [h.turn_eq hc, exec_genkey_short h1 h15 hshort]

/-- With the candidate full and not invertible a turn rejects it. -/
theorem GenkeyIssued.engineTurn_rejected {u : State} (hc : u.inFlight = s.inFlight) (hfull : u.candidate.length = n * n)
    (hinv : ¬Invertible26 (blockMatrix n u.candidate)) : engineTurn u = .next { u with candidate := [] } := by
  obtain ⟨h1, h15⟩ := h.bounds
  rw [h.turn_eq hc, exec_genkey_rejected h1 h15 hfull.ge hinv]

/-- With the candidate full and invertible a turn ends OK with its letters. -/
theorem GenkeyIssued.engineTurn_invertible {u : State} (hc : u.inFlight = s.inFlight) (hfull : u.candidate.length = n * n)
    (hinv : Invertible26 (blockMatrix n u.candidate)) :
    engineTurn u = .next (endedOk u (strItems (blockLetters u.candidate))) := by
  obtain ⟨h1, h15⟩ := h.bounds
  rw [h.turn_eq hc, exec_genkey_invertible h1 h15 hfull.ge (hfull.trans_le (mul_self_toNat_le h15)) hinv]

/-! ## Answered by acknowledgements (R36) -/

/-- A turn that asks and the acknowledgement with the symbol x. -/
theorem GenkeyIssued.runsTo_ack (block : List Symbol) (x : Symbol) (later : List Event) (hshort : block.length < n * n) :
    RunsTo 2 (drawn s block (.engine :: .rngAck (BitVec.ofNat 5 x.val) :: later)) (drawn s (block ++ [x]) later) := by
  have hsym : (BitVec.ofNat 5 x.val).toNat = x.val := by
    have hlt : x.val < 26 := x.isLt
    rw [BitVec.toNat_ofNat, Nat.mod_eq_of_lt (by omega)]
  have hask : step (drawn s block (.engine :: .rngAck (BitVec.ofNat 5 x.val) :: later)) =
      .next { drawn s block (.rngAck (BitVec.ofNat 5 x.val) :: later) with rngReq := true } :=
    step_of_event rfl (h.engineTurn_short rfl hshort)
  obtain ⟨hdelivered, -⟩ := portAnswersOneDrawEach (BitVec.ofNat 5 x.val) { drawn s block later with rngReq := true }
  refine .cons hask (.one (step_of_event rfl ((hdelivered (by rw [hsym]; exact x.isLt) rfl).trans ?_)))
  simp [drawn, hsym, Nat.add_assoc]

/-- The draws of a list of symbols. -/
theorem GenkeyIssued.runsTo_acks (xs block : List Symbol) (later : List Event) (hroom : block.length + xs.length ≤ n * n) :
    RunsTo (2 * xs.length)
      (drawn s block (xs.flatMap (fun x => [Event.engine, Event.rngAck (BitVec.ofNat 5 x.val)]) ++ later))
      (drawn s (block ++ xs) later) := by
  induction xs generalizing block with
  | nil => simpa using RunsTo.refl _
  | cons x xs ih =>
    rw [List.length_cons] at hroom
    have hrest := ih (block ++ [x]) (by rw [List.length_append, List.length_singleton]; omega)
    rw [List.append_assoc, List.singleton_append] at hrest
    rw [List.length_cons, Nat.mul_succ, Nat.add_comm]
    exact (h.runsTo_ack block x _ (by omega)).trans hrest

/-- The events of one candidate, up to its test. -/
theorem GenkeyIssued.runsTo_block {block : List Symbol} (hlen : block.length = n * n) (later : List Event) :
    RunsTo (2 * (n * n)) { s with script := candidateEvents block ++ later } (drawn s block (.engine :: later)) := by
  have hdraws := h.runsTo_acks block [] (.engine :: later) (by rw [hlen, List.length_nil]; omega)
  rw [hlen, List.nil_append] at hdraws
  rw [h.eq_drawn, candidateEvents, List.append_assoc]
  exact hdraws

theorem GenkeyIssued.runsTo_rejected_block {block : List Symbol} (hlen : block.length = n * n)
    (hinv : ¬Invertible26 (blockMatrix n block)) (later : List Event) :
    RunsTo (2 * (n * n) + 1) { s with script := candidateEvents block ++ later }
      { advanced n s 1 with script := later } := by
  have htest := h.engineTurn_rejected (u := drawn s block later) rfl hlen hinv
  refine (h.runsTo_block hlen later).trans (.one (step_of_event rfl (htest.trans ?_)))
  simp [drawn, advanced, h.noSymbols, h.noRequest, hlen]

end

theorem advanced_advanced (n : Nat) (s : State) (r q : Nat) : advanced n (advanced n s r) q = advanced n s (r + q) := by
  simp [advanced, Nat.add_mul, Nat.add_assoc]

/-- Candidate after candidate rejected, GENKEY is where it was, their symbols taken. -/
theorem GenkeyIssued.runsTo_rejected {n : Nat} {s : State} (h : GenkeyIssued n s) {rejected : List (List Symbol)}
    (hrejected : ∀ block ∈ rejected, block.length = n * n ∧ ¬Invertible26 (blockMatrix n block)) (later : List Event) :
    RunsTo (rejected.length * (2 * (n * n) + 1)) { s with script := rejected.flatMap candidateEvents ++ later }
      { advanced n s rejected.length with script := later } := by
  induction rejected generalizing s with
  | nil => simpa [advanced] using RunsTo.refl _
  | cons block rejected ih =>
    obtain ⟨hlen, hinv⟩ := hrejected block (by simp)
    have hrest := ih (h.issued_advanced 1) fun b hb => hrejected b (by simp [hb])
    rw [advanced_advanced, Nat.add_comm 1] at hrest
    rw [List.length_cons, Nat.succ_mul, Nat.add_comm, List.flatMap_cons, List.append_assoc]
    exact (h.runsTo_rejected_block hlen hinv _).trans hrest

/-- Settles O24: the rejected candidates, then the draws of the last and the turn that returns it. -/
theorem genkeyCompletesWithFirstInvertibleBlock : Obligations.GenkeyCompletesWithFirstInvertibleBlock := by
  intro n s rejected last later h hrejected hlen hinv
  have hlast := (h.issued_advanced rejected.length).runsTo_block hlen later
  have htest : step (drawn (advanced n s rejected.length) last (.engine :: later)) = .next _ :=
    step_of_event rfl ((h.issued_advanced rejected.length).engineTurn_invertible
      (u := drawn (advanced n s rejected.length) last later) rfl hlen hinv)
  have hrun := (h.runsTo_rejected hrejected (candidateEvents last ++ later)).trans (hlast.trans (.one htest))
  have hend : endedOk (drawn (advanced n s rejected.length) last later) (strItems (blockLetters last)) =
      endedOk { s with script := later, symbolsTaken := s.symbolsTaken + (rejected.length + 1) * (n * n) }
        (strItems (blockLetters last)) := by
    simp [drawn, advanced, endedOk, hlen, Nat.add_mul, Nat.add_assoc]
  rw [Nat.succ_mul, List.flatMap_append, List.flatMap_singleton, List.append_assoc, ← hend]
  exact hrun

/-! ## Answered from the stream (R36, R252) -/

/-- The next m symbols of the stream. -/
def nextSymbols (s : State) (m : Nat) : List Symbol :=
  (List.range m).map fun j => s.stream.symbolAt (s.symbolsTaken + j)

@[simp] theorem length_nextSymbols (s : State) (m : Nat) : (nextSymbols s m).length = m := by simp [nextSymbols]

theorem nextSymbols_succ (s : State) (m : Nat) :
    nextSymbols s (m + 1) = nextSymbols s m ++ [s.stream.symbolAt (s.symbolsTaken + m)] := by
  simp [nextSymbols, List.range_succ]

theorem nextSymbols_advanced (n : Nat) (s : State) (r : Nat) : nextSymbols (advanced n s r) (n * n) = streamBlock n s r := rfl

section

variable {n : Nat} {s : State} (h : GenkeyIssued n s) (hround : s.recurring = [.rngTurn])
include h hround

/-- A turn that asks and a turn of the source that answers. -/
theorem GenkeyIssued.runsTo_draw {m : Nat} (hshort : m < n * n) :
    RunsTo 2 (drawn s (nextSymbols s m) []) (drawn s (nextSymbols s (m + 1)) []) := by
  have hask : step (drawn s (nextSymbols s m) []) = .next { drawn s (nextSymbols s m) [.rngTurn] with rngReq := true } := by
    rw [step_of_script_nil rfl, ← hround]
    exact h.engineTurn_short rfl (by simpa [newRound, drawn] using hshort)
  obtain ⟨-, -, -, hanswer, -⟩ := portAnswersOneDrawEach 0 { drawn s (nextSymbols s m) [] with rngReq := true }
  refine .cons hask (.one (step_of_event rfl ((hanswer rfl).trans ?_)))
  simp [drawn, nextSymbols_succ, Nat.add_assoc]

theorem GenkeyIssued.runsTo_draws {m : Nat} (hroom : m ≤ n * n) : RunsTo (2 * m) (drawn s [] []) (drawn s (nextSymbols s m) []) := by
  induction m with
  | zero => exact .refl _
  | succ m ih => exact (ih (by omega)).trans (h.runsTo_draw hround (by omega))

/-- A round in which the candidate is not invertible: the turn that rejects it, and a turn of the source with no draw waiting. -/
theorem GenkeyIssued.runsTo_rejected_round (hscript : s.script = [])
    (hinv : ¬Invertible26 (blockMatrix n (nextSymbols s (n * n)))) :
    RunsTo (2 * (n * n) + 2) s (advanced n s 1) := by
  have hstart : s = drawn s [] [] := by rw [← h.eq_drawn, ← hscript]
  have hreject : step (drawn s (nextSymbols s (n * n)) []) =
      .next { advanced n s 1 with script := [.rngTurn] } := by
    rw [step_of_script_nil rfl, ← hround]
    refine (h.engineTurn_rejected (u := newRound (drawn s _ [])) rfl (length_nextSymbols s _) hinv).trans ?_
    simp [newRound, drawn, advanced, h.noSymbols, h.noRequest]
  obtain ⟨-, -, -, -, hidle⟩ := portAnswersOneDrawEach 0 { advanced n s 1 with script := [] }
  have hrest : step { advanced n s 1 with script := [.rngTurn] } = .next (advanced n s 1) := by
    refine step_of_event rfl ((hidle h.noRequest).trans ?_)
    rw [← hscript]
    rfl
  conv => arg 2; rw [hstart]
  exact (h.runsTo_draws hround le_rfl).trans (.cons hreject (.one hrest))

/-- A round in which the candidate is invertible, up to the turn that returns it. -/
theorem GenkeyIssued.exists_done_round (hscript : s.script = [])
    (hinv : Invertible26 (blockMatrix n (nextSymbols s (n * n)))) :
    ∃ t, RunsTo (2 * (n * n) + 1) s t ∧ t.status.state = .done := by
  have hstart : s = drawn s [] [] := by rw [← h.eq_drawn, ← hscript]
  have hreturn : step (drawn s (nextSymbols s (n * n)) []) =
      .next (endedOk (newRound (drawn s (nextSymbols s (n * n)) [])) (strItems (blockLetters (nextSymbols s (n * n))))) := by
    rw [step_of_script_nil rfl]
    exact h.engineTurn_invertible rfl (length_nextSymbols s _) hinv
  have hdraws := h.runsTo_draws hround (le_refl (n * n))
  rw [← hstart] at hdraws
  exact ⟨_, hdraws.trans (.one hreturn), rfl⟩

end

/-- Block after block of the stream rejected. -/
theorem GenkeyIssued.runsTo_advanced {n : Nat} {s : State} (h : GenkeyIssued n s) (hscript : s.script = [])
    (hround : s.recurring = [.rngTurn]) {r : Nat} (hinv : ∀ q < r, ¬Invertible26 (blockMatrix n (streamBlock n s q))) :
    RunsTo (r * (2 * (n * n) + 2)) s (advanced n s r) := by
  induction r with
  | zero => simpa [advanced] using RunsTo.refl s
  | succ r ih =>
    have hnext := (h.issued_advanced r).runsTo_rejected_round hround hscript (hinv r (by omega))
    rw [advanced_advanced] at hnext
    rw [Nat.succ_mul]
    exact (ih fun q hq => hinv q (by omega)).trans hnext

/-- An invertible block of the stream, the first after those rejected, ends the command. -/
theorem GenkeyIssued.exists_done {n : Nat} {s : State} (h : GenkeyIssued n s) (hscript : s.script = [])
    (hround : s.recurring = [.rngTurn]) (hinv : ∃ r, Invertible26 (blockMatrix n (streamBlock n s r))) :
    ∃ k t, RunsTo k s t ∧ t.status.state = .done := by
  classical
  have hbefore := h.runsTo_advanced hscript hround fun q hq => Nat.find_min hinv hq
  have hlast := Nat.find_spec hinv
  generalize Nat.find hinv = r at hbefore hlast
  obtain ⟨t, hrun, hdone⟩ := (h.issued_advanced r).exists_done_round hround hscript hlast
  exact ⟨_, t, hbefore.trans hrun, hdone⟩

/-- With no invertible block in the stream the engine is BUSY after every number of steps: it is at the end of each round, and
with a silent host nothing makes it BUSY again. -/
theorem GenkeyIssued.busy_forever {n : Nat} {s : State} (h : GenkeyIssued n s) (hscript : s.script = [])
    (hround : s.recurring = [.rngTurn]) (hinv : ∀ r, ¬Invertible26 (blockMatrix n (streamBlock n s r))) (k : Nat) :
    ∃ t, RunsTo k s t ∧ t.status.state = .busy := by
  have hrun := h.runsTo_advanced hscript hround (r := k) fun q _ => hinv q
  obtain ⟨j, hj⟩ : ∃ j, k * (2 * (n * n) + 2) = k + j := ⟨k * (2 * (n * n) + 1), by ring⟩
  rw [hj] at hrun
  obtain ⟨t, hfirst, hrest⟩ := runsTo_add_iff.mp hrun
  have hsilent : HostSilent s := by simp [HostSilent, hscript, hround, isHostEvent]
  have hend : (advanced n s k).status.state = .busy := congrArg Status.state h.busy
  exact ⟨t, hfirst, (hsilent.of_runsTo hfirst).busy_of_runsTo hrest hend⟩

/-- With no answer a turn asks, and asks again. -/
theorem GenkeyIssued.runsTo_unanswered {n : Nat} {s : State} (h : GenkeyIssued n s) (hscript : s.script = [])
    (hround : s.recurring = []) (k : Nat) : RunsTo (k + 1) s { s with rngReq := true } := by
  have hroom : s.candidate.length < n * n := by
    rw [h.noSymbols]
    exact Nat.mul_self_lt_mul_self (m := 0) h.atLeastOne
  have hask : ∀ u : State, u.inFlight = s.inFlight → u.candidate = s.candidate → u.script = [] → u.recurring = [] →
      step u = .next { u with rngReq := true } := by
    intro u hc hcandidate hs hr
    have hnew : newRound u = u := congrArg (fun script => { u with script := script }) (hr.trans hs.symm)
    rw [step_of_script_nil hs, hnew]
    exact h.engineTurn_short hc (by rw [hcandidate]; exact hroom)
  induction k with
  | zero => exact .one (hask s rfl rfl hscript hround)
  | succ k ih => exact ih.trans (.one (hask { s with rngReq := true } rfl rfl hscript hround))

/-- Settles O26: the two ways GENKEY hangs as runs of every length, and the end exactly at an invertible block. -/
theorem genkeyNeedNotEnd : Obligations.GenkeyNeedNotEnd := by
  refine ⟨fun k n s h hscript hround => h.runsTo_unanswered hscript hround k,
    fun n s rejected later h hrejected => h.runsTo_rejected hrejected later,
    fun n s h hscript hround hinv => ⟨fun r => h.runsTo_advanced hscript hround fun q _ => hinv q,
      h.busy_forever hscript hround hinv⟩,
    fun n s h hscript hround => ⟨fun ⟨k, t, hrun, hdone⟩ => ?_, h.exists_done hscript hround⟩,
    fun s => ⟨_, after_softReset s, rfl, rfl⟩⟩
  by_contra hinv
  obtain ⟨u, hrun', hbusy⟩ := h.busy_forever hscript hround (not_exists.mp hinv) k
  obtain rfl := hrun.unique hrun'
  cases hdone.symm.trans hbusy

end Sys2Proof.Claims
end
